-- ==== Sys2Proof/Word.lean ====
section
/-! DEFINITION. The machine words of the safe64 CORE: the widths of spec/00_scope.md rule R8. -/

namespace Sys2Proof

/-- A 32-bit register, command word or signed length (`LEN_BITS` = 32, R8, R14, R19). -/
abbrev Word := BitVec 32

/-- One byte of memory; a source or destination unit (R11, R31, R34). -/
abbrev Byte := BitVec 8

/-- The 6-bit value a symbol stands for (`SYMBOL_BITS` = 6, R8, R11). -/
abbrev Code := BitVec 6

/-- The bit accumulator (`ACC_W` = 24, R8, R25). -/
abbrev Acc := BitVec 24

/-- The varint value (`VAL_W` = 64, R8, R20). -/
abbrev Value := BitVec 64

end Sys2Proof
end

