-- ==== Sys2Proof/Config.lean ====
section
/-! DEFINITION. What an implementation fixes (the named parameters of spec/00_scope.md rule R8) and the free values
of spec/93_implementation_defined.md (I2, I9). -/

namespace Sys2Proof

/-- The open parameter `VARINT_OVERFLOW` (R117, 92 D15): what the varint decoder does when a chunk arrives that
needs more than 64 value bits. -/
inductive OverflowMode where
  /-- The behaviour is undefined and the model faults (the model default). -/
  | fault
  /-- The high bits are dropped and the read continues. -/
  | wrap
  /-- The command ends with INVALID_SOURCE_DATA at that chunk. -/
  | error
  deriving DecidableEq, Repr

/-- The parameters of one machine. They stand in the state (`State.cfg`) and no step changes them, so that a
statement over every state is a statement over every machine (log 1, DESIGN CHOICE, safe). -/
structure Config where
  /-- `ADDR_W`: the width of a memory address and of the pointer registers, 1..32 (R8). -/
  addrW : Nat
  /-- `VARINT_OVERFLOW` (R117). -/
  varintOverflow : OverflowMode
  deriving DecidableEq, Repr

/-- The values R8 gives as defaults: `ADDR_W` = 32, `VARINT_OVERFLOW` = FAULT. -/
def Config.default : Config := { addrW := 32, varintOverflow := .fault }

/-- R8: 1 <= ADDR_W <= 32. -/
def Config.wf (c : Config) : Bool := decide (1 ≤ c.addrW) && decide (c.addrW ≤ 32)

/-- The number of addresses of the memory space, 2^ADDR_W (R31). -/
def Config.space (c : Config) : Nat := 2 ^ c.addrW

/-- FREE VALUE (93 I2, R152; log 4): what the k-th drawn register read returns while `BUSY` = 1. -/
opaque Config.drawWord : Nat → BitVec 32

/-- FREE VALUE (93 I9, R148; log 4): the k-th drawn byte left in a destination span by a reset that abandons its
command. -/
opaque Config.drawByte : Nat → BitVec 8

end Sys2Proof
end

