-- ==== Sys2Proof/Syntax.lean ====
section
/-! DEFINITION. The commands of the safe64 CORE: one constructor per row of spec/opcode_table.json
(spec/30_encoding.md rule R53), and the fields of a command word (rule R52). -/

namespace Sys2Proof

/-- The four commands (R53). `enc` and `enc.f` are one instruction whose field `F` takes both values, and so are
`dec` and `dec.f`. Every operand is in registers (R57). -/
inductive Instr where
  /-- ENC: streaming encode (R79). `final` is the field `F`. -/
  | enc (final : Bool)
  /-- DEC: streaming decode (R91). `final` is the field `F`. -/
  | dec (final : Bool)
  /-- VWR: varint write (R107). -/
  | vwr
  /-- VRD: varint read (R112). -/
  | vrd
  deriving DecidableEq, Repr

/-- The fields of a command word (R52): `OP` = bits 3:0, `F` = bit 4, `RSV` = bits 31:5. -/
structure CmdFields where
  op : BitVec 4
  f : Bool
  rsv : BitVec 27
  deriving DecidableEq, Repr

end Sys2Proof
end

