-- ==== Sys2Proof/WellFormed.lean ====
section
/-! DEFINITION. Which command words are well formed (spec/30_encoding.md rules R52, R53, R55). The conditions that
rules R41 and R42 put on a command's spans depend on the state and stand in Machine/Operands.lean. -/

namespace Sys2Proof

/-- R52: the reserved field must be 0. -/
def CmdFields.reservedClear (c : CmdFields) : Bool := c.rsv == 0

/-- R53, R55: `OP` is 0x1 to 0x4; every other value is reserved. -/
def CmdFields.opDefined (c : CmdFields) : Bool := c.op == 1 || c.op == 2 || c.op == 3 || c.op == 4

/-- R53, R55: `F` = 1 is legal for ENC and DEC only. -/
def CmdFields.finalAllowed (c : CmdFields) : Bool := !c.f || c.op == 1 || c.op == 2

/-- The fields are those of one of the six legal words of R53. -/
def CmdFields.wf (c : CmdFields) : Bool := c.reservedClear && c.opDefined && c.finalAllowed

/-- The fields of a command's word, as R53 tabulates them. -/
def Instr.fields : Instr → CmdFields
  | .enc final => { op := 1, f := final, rsv := 0 }
  | .dec final => { op := 2, f := final, rsv := 0 }
  | .vwr => { op := 3, f := false, rsv := 0 }
  | .vrd => { op := 4, f := false, rsv := 0 }

/-- A command is well formed when its fields are. Every term of `Instr` is: `F` is a field of ENC and DEC only. -/
def Instr.wf (i : Instr) : Bool := i.fields.wf

end Sys2Proof
end

