-- ==== Sys2Proof/Decode.lean ====
section
/-! DEFINITION. Decoding and encoding of command words (spec/30_encoding.md rules R52 to R55). The decoder is total
on every 32-bit value and names why a word is illegal; the encoder writes the words of rule R53. -/

namespace Sys2Proof

/-- Why a word is illegal (R55). The block reports every one of them as INVALID_COMMAND. -/
inductive Illegal where
  /-- A bit of `RSV` is set. -/
  | reservedBits
  /-- `OP` is 0x0 or 0x5..0xF. -/
  | reservedOpcode
  /-- `F` = 1 with VWR or VRD. -/
  | finalNotAllowed
  deriving DecidableEq, Repr

/-- What the decoder answers. -/
inductive Decoded where
  | instr (i : Instr)
  | illegal (why : Illegal)
  deriving DecidableEq, Repr

/-- The command of a decoded word, if it is one. -/
def Decoded.instr? : Decoded → Option Instr
  | .instr i => some i
  | .illegal _ => none

/-- The fields of a word (R52). -/
def wordFields (w : Word) : CmdFields :=
  { op := w.extractLsb' 0 4, f := w.getLsbD 4, rsv := w.extractLsb' 5 27 }

/-- The word of the fields (R52): `RSV` in the most significant position, then `F`, then `OP`. -/
def fieldsWord (c : CmdFields) : Word :=
  BitVec.ofNat 32 (c.rsv.toNat * 32 + c.f.toNat * 16 + c.op.toNat)

/-- R54 on the fields of a word. -/
def decodeFields (c : CmdFields) : Decoded :=
  if c.rsv ≠ 0 then .illegal .reservedBits
  else if c.op = 1 then .instr (.enc c.f)
  else if c.op = 2 then .instr (.dec c.f)
  else if c.op = 3 then (if c.f then .illegal .finalNotAllowed else .instr .vwr)
  else if c.op = 4 then (if c.f then .illegal .finalNotAllowed else .instr .vrd)
  else .illegal .reservedOpcode

/-- R54: the block's decode of a command word, total on every 32-bit value. -/
def decode (w : Word) : Decoded := decodeFields (wordFields w)

/-- The command word of a command (R53). -/
def encode (i : Instr) : Word := fieldsWord i.fields

/-- The command the decoder reads from the word whose bits are `w`, of which the table gives `nbits`. A command is
one 32-bit word (R52) and reaches the block as one register write, so no byte order arises (R16). -/
def decodeTableWord (nbits w : Nat) : Option Instr :=
  let v := w % 2 ^ nbits
  if v < 2 ^ 32 then (decode (BitVec.ofNat 32 v)).instr? else none

end Sys2Proof
end

