-- ==== Sys2Proof/Machine/State.lean ====
section
/-! DEFINITION. The state of the safe64 CORE as plain data (spec/10_state.md), what the host can do to it, and the
reasons a step stops. -/

namespace Sys2Proof.Machine

/-- The nine host-visible registers (R14). -/
inductive Reg where
  | cmd | status | result | srcPtr | srcLen | dstPtr | dstLen | valueLo | valueHi
  deriving DecidableEq, Repr

/-- The class of a source byte, an entry of the reverse table `REV` (R72, R75). -/
inductive SymbolClass where
  /-- One of the 64 alphabet symbols, with its code. -/
  | code (c : Code)
  /-- Tab, newline, carriage return or space. -/
  | whitespace
  /-- Any other byte. -/
  | invalid
  deriving DecidableEq, Repr

/-- The error statuses of R134. -/
inductive Status where
  | notEnoughRoom
  | invalidSourceData
  | unterminatedLengthField
  /-- Never reported by the block; only by the host sequence of R132. -/
  | truncatedData
  | invalidLength
  | invalidCommand
  deriving DecidableEq, Repr

/-- The memory behind the master port (R31, R43): the listed bytes, addresses strictly rising, none equal to what
an unlisted address reads as. -/
abbrev Memory := List Host.Cell

/-- One access of the register port: its width in bits and its byte offset in the 256-byte window (R14 to R16). -/
structure PortAccess where
  width : Nat
  offset : BitVec 8
  deriving DecidableEq, Repr

/-- One turn of an agent outside the block, or of the engine. The list of turns in the state is the model's input:
it says which agent moves next and what the host does (log 6). -/
inductive Turn where
  /-- The host writes a word through the register port. A write of `CMD` runs the whole command in this one step
  (R56; the atomic form of R155). -/
  | regWrite (a : PortAccess) (w : Word)
  /-- The host reads a word through the register port (R14). -/
  | regRead (a : PortAccess)
  /-- The host writes `CMD`, and other turns follow before the command completes: the command is started, `BUSY` is
  1, and the engine takes one source unit per engine turn (the stepwise form of R155). -/
  | startHeld (w : Word)
  /-- The engine takes one source unit of the running command. -/
  | engine
  /-- The host line `wait` (R67): read `STATUS` until `BUSY` is 0; while it is 1 the engine moves. -/
  | wait
  /-- The host, or another agent with access to the memory, writes one byte (R43, R47). -/
  | memWrite (addr : Nat) (b : Byte)
  /-- The host, or another agent with access to the memory, reads one byte (R43, R47). -/
  | memRead (addr : Nat)
  /-- Reset is asserted (R147, R148). -/
  | reset
  deriving DecidableEq, Repr

/-- What a read returned to the agent that made it (R67: the value is the line's observation). -/
inductive Observation where
  | reg (offset : BitVec 8) (w : Word)
  | mem (addr : Nat) (b : Byte)
  deriving DecidableEq, Repr

/-- The transient engine state of R25. The counters are natural numbers; `State.wf` bounds them as R25 does
(log 8). -/
structure Engine where
  /-- `ACC`: bit accumulator of the current group. -/
  acc : Acc
  /-- `FILL`: units gathered into the current group. -/
  fill : Nat
  /-- `S`: source units read so far, whitespace included. -/
  s : Nat
  /-- `D`: destination units written so far. -/
  d : Nat
  /-- `COMMIT`: source commit point. -/
  commit : Nat
  /-- `GSTART`: decoder only, offset of the first code unit of the current incomplete group. -/
  gstart : Nat
  /-- `V`: varint decoder only, value gathered so far. -/
  v : Value
  deriving DecidableEq, Repr

/-- The start value of every transient field (R25, R26). -/
def Engine.start : Engine := { acc := 0, fill := 0, s := 0, d := 0, commit := 0, gstart := 0, v := 0 }

/-- The whole state: the parameters, the nine registers (R14), the transient engine state (R25), the memory (R31),
and the model's own inputs and outputs. -/
structure State where
  /-- The parameters of the machine (R8); no step changes them. -/
  cfg : Config
  /-- `CMD`: the last command word written (R14). -/
  cmd : Word
  /-- `STATUS.BUSY` (R14, R21). -/
  busy : Bool
  /-- `RESULT`: outcome of the last command (R14, R134). -/
  result : Word
  /-- `SRC_PTR`, `ADDR_W` bits zero-extended (R14, R18). -/
  srcPtr : Word
  /-- `SRC_LEN`, signed (R14, R19). -/
  srcLen : Word
  /-- `DST_PTR`, `ADDR_W` bits zero-extended (R14, R18). -/
  dstPtr : Word
  /-- `DST_LEN`, signed (R14, R19). -/
  dstLen : Word
  /-- `VALUE` = {`VALUE_HI`, `VALUE_LO`} (R14, R20). -/
  value : Value
  /-- The transient engine state (R25). -/
  engine : Engine
  /-- The memory behind the master port (R31). -/
  mem : Memory
  /-- MODEL: the turns still to come (log 6). -/
  schedule : List Turn
  /-- MODEL: what reads have returned, newest first (log 14). -/
  observed : List Observation
  /-- MODEL: how many free values have been drawn (log 4). -/
  draws : Nat
  deriving DecidableEq, Repr

/-- Why the machine stops with a fault. -/
inductive Fault where
  /-- Raised by VRD when a field needs more than 64 value bits and `VARINT_OVERFLOW` = FAULT (R117, 93 I8). Safe:
  the spec leaves the behaviour undefined and has the model fault. -/
  | varintOverflow
  /-- Raised by a host memory access at an address of 2^ADDR_W or more, which R31 says does not exist (log 9).
  Safe. -/
  | noSuchAddress
  deriving DecidableEq, Repr

/-- Why the machine refuses a step. -/
inductive Refusal where
  /-- Raised by `exec` for an instruction that has no meaning yet. Safe. No arm of this model answers it. -/
  | notModelled (mnemonic : String)
  /-- Raised by a register access that is not an aligned 32-bit word (R16, 93 I3). Safe. -/
  | portAccess
  /-- Raised by a register write, `CMD` included, while `BUSY` = 1 (R151, 93 I1). Safe. -/
  | registerWriteWhileBusy
  /-- Raised by a command whose source or destination span runs past the top address (R41, 93 I4). Safe. -/
  | spanOutsideMemory
  /-- Raised by a command whose source and destination spans share an address (R42, 93 I5). Safe. -/
  | spansOverlap
  /-- Raised by a host write of the running command's source span, or a host read or write of its destination span
  (R47, 93 I7). Safe. -/
  | spanAccessWhileBusy
  deriving DecidableEq, Repr

/-- The outcome of one step of this machine. -/
abbrev Result := Host.Outcome State Fault Refusal

/-- The machine right after reset (R14, R147, R149): every register 0, the transient state cleared, the parameters
at R8's defaults, no memory byte listed (log 3) and nothing scheduled (log 6). -/
def State.reset : State :=
  { cfg := Config.default, cmd := 0, busy := false, result := 0, srcPtr := 0, srcLen := 0, dstPtr := 0, dstLen := 0,
    value := 0, engine := Engine.start, mem := [], schedule := [], observed := [], draws := 0 }

end Sys2Proof.Machine
end

