-- ==== Sys2Proof/Machine/Flags.lean ====
section
/-! DEFINITION. The one status flag of the block, `STATUS.BUSY`, and the status codes of `RESULT`
(spec/10_state.md rules R14, R21, R24; spec/60_exceptions.md rule R134). No command writes any other flag. -/

namespace Sys2Proof.Machine

/-- The word `STATUS` reads as: bit 0 is `BUSY`, bits 31:1 read 0 (R14). -/
def statusWord (busy : Bool) : Word := if busy then 1 else 0

/-- The numeric value of an error status (R134). -/
def Status.toInt : Status → Int
  | .notEnoughRoom => -1
  | .invalidSourceData => -2
  | .unterminatedLengthField => -3
  | .truncatedData => -4
  | .invalidLength => -5
  | .invalidCommand => -6

/-- The value `RESULT` takes for an error status (R134), two's complement in 32 bits (R19). -/
def Status.code (st : Status) : Word := BitVec.ofInt 32 st.toInt

/-- `BUSY <- 1` (R21, R56 (2)). -/
def State.setBusy (s : State) : State := { s with busy := true }

/-- `BUSY <- 0` (R21, R56 (5)). -/
def State.clearBusy (s : State) : State := { s with busy := false }

end Sys2Proof.Machine
end

