-- ==== Sys2Proof/Machine/Ops.lean ====
section
/-! DEFINITION. The named operations over memory and registers, and the completion of a command, with success or with
an error status (spec/20_memory.md, spec/10_state.md, spec/30_encoding.md rules R56 and R58, spec/60_exceptions.md). -/

namespace Sys2Proof.Machine

/-- What an unlisted address reads as (R43; log 3, DESIGN CHOICE, unsafe). -/
def unlistedByte : Byte := 0

/-- `MemRead(addr, 1)` (R10, R34): the last byte written there, or the prior contents (R43). -/
def Memory.read : Memory → Nat → Byte
  | [], _ => unlistedByte
  | (a, b) :: rest, x => if a = x then b else Memory.read rest x

/-- `MemWrite(addr, 1, v)` (R10, R34), keeping the canonical form. -/
def Memory.write : Memory → Nat → Byte → Memory
  | [], x, v => if v = unlistedByte then [] else [(x, v)]
  | (a, b) :: rest, x, v =>
    if x < a then (if v = unlistedByte then (a, b) :: rest else (x, v) :: (a, b) :: rest)
    else if x = a then (if v = unlistedByte then rest else (x, v) :: rest)
    else (a, b) :: Memory.write rest x v

/-- Byte writes to increasing addresses, one at a time (R38, R45). -/
def Memory.writeBytes : Memory → Nat → List Byte → Memory
  | m, _, [] => m
  | m, x, b :: bs => Memory.writeBytes (Memory.write m x b) (x + 1) bs

/-- The canonical form from address `lo` on: addresses strictly rising, no entry equal to an unlisted byte. -/
def Memory.wfFrom : Nat → Memory → Bool
  | _, [] => true
  | lo, (a, b) :: rest => decide (lo ≤ a) && decide (b ≠ unlistedByte) && Memory.wfFrom (a + 1) rest

/-- The canonical form of memory. -/
def Memory.wf (m : Memory) : Bool := Memory.wfFrom 0 m

/-- Every listed address lies in a space of `limit` addresses (R31). -/
def Memory.below (limit : Nat) (m : Memory) : Bool := m.all fun c => decide (c.1 < limit)

/-- `trunc_ADDR_W(w)`, zero-extended to 32 bits (R18). -/
def truncAddr (c : Config) (w : Word) : Word := BitVec.ofNat 32 (w.toNat % c.space)

/-- What a host read of a register returns while `BUSY` = 0 (R14, R18, R20). -/
def State.readReg (s : State) : Reg → Word
  | .cmd => s.cmd
  | .status => statusWord s.busy
  | .result => s.result
  | .srcPtr => s.srcPtr
  | .srcLen => s.srcLen
  | .dstPtr => s.dstPtr
  | .dstLen => s.dstLen
  | .valueLo => s.value.extractLsb' 0 32
  | .valueHi => s.value.extractLsb' 32 32

/-- Store a word in a register (R14, R18, R20). A write to `STATUS` or `RESULT` has no effect (R17). -/
def State.writeReg (s : State) (r : Reg) (w : Word) : State :=
  match r with
  | .cmd => { s with cmd := w }
  | .status => s
  | .result => s
  | .srcPtr => { s with srcPtr := truncAddr s.cfg w }
  | .srcLen => { s with srcLen := w }
  | .dstPtr => { s with dstPtr := truncAddr s.cfg w }
  | .dstLen => { s with dstLen := w }
  | .valueLo => { s with value := s.value.extractLsb' 32 32 ++ w }
  | .valueHi => { s with value := w ++ s.value.extractLsb' 0 32 }

/-- The write-back of R58: the cursors move by the offsets, the lengths shrink by them, `RESULT` takes the outcome. -/
def State.writeBack (s : State) (outcome : Word) (srcOut dstOut : Nat) : State :=
  { s with
    srcPtr := truncAddr s.cfg (s.srcPtr + BitVec.ofNat 32 srcOut)
    srcLen := s.srcLen - BitVec.ofNat 32 srcOut
    dstPtr := truncAddr s.cfg (s.dstPtr + BitVec.ofNat 32 dstOut)
    dstLen := s.dstLen - BitVec.ofNat 32 dstOut
    result := outcome }

/-- `complete(count, src_out, dst_out)` (R10): the write-back with a count, then `BUSY <- 0` (R21). -/
def State.complete (s : State) (count srcOut dstOut : Nat) : State :=
  (s.writeBack (BitVec.ofNat 32 count) srcOut dstOut).clearBusy

/-- `raise E(src_out, dst_out)` (R10, R136): an error does not trap; the command completes with the status of E, the
write-back runs with the offsets given, and `BUSY` clears. This is the block's whole taking of an exception, and
there is no return from it (R138). -/
def State.raise (s : State) (st : Status) (srcOut dstOut : Nat) : State :=
  (s.writeBack st.code srcOut dstOut).clearBusy

/-- Completion with INVALID_LENGTH or INVALID_COMMAND: only `RESULT` is written (R55, R58, R134). -/
def State.reject (s : State) (st : Status) : State := { s with result := st.code }.clearBusy

/-- R56 (2) and (3), R26: `BUSY <- 1` and the transient state takes its start values. -/
def State.start (s : State) : State := { s.setBusy with engine := Engine.start }

/-- Write destination units at the write offset `D` and up (R38). -/
def State.emit (s : State) (d : Nat) (units : List Byte) : State :=
  { s with mem := s.mem.writeBytes (s.dstPtr.toNat + d) units }

/-- The engine's transient state after a part of a command (R25). -/
def State.withEngine (s : State) (e : Engine) : State := { s with engine := e }

end Sys2Proof.Machine
end

