-- ==== Sys2Proof/Machine/Operands.lean ====
section
/-! DEFINITION. The operands of a command (spec/30_encoding.md rule R57): its spans as the registers stand when it
starts (R22), the checks made before its first memory access (R40, R41, R42), and the register window (R14, R15). -/

namespace Sys2Proof.Machine

/-- A contiguous run of memory bytes (R12). -/
structure Span where
  base : Nat
  len : Nat
  deriving DecidableEq, Repr

/-- The address is one of the span's. -/
def Span.has (p : Span) (a : Nat) : Bool := decide (p.base ≤ a) && decide (a < p.base + p.len)

/-- R41: the span lies inside the memory space. -/
def Span.inside (p : Span) (c : Config) : Bool := decide (p.base + p.len ≤ c.space)

/-- R42: the spans share no address, when both have length > 0. -/
def Span.apart (p q : Span) : Bool :=
  decide (p.len = 0) || decide (q.len = 0) || decide (p.base + p.len ≤ q.base) || decide (q.base + q.len ≤ p.base)

/-- R57: ENC, DEC and VRD read the source cursor. -/
def hasSource : Instr → Bool
  | .enc _ => true
  | .dec _ => true
  | .vwr => false
  | .vrd => true

/-- R57: ENC, DEC and VWR read the destination cursor. -/
def hasDest : Instr → Bool
  | .enc _ => true
  | .dec _ => true
  | .vwr => true
  | .vrd => false

/-- `n`, the number of source units: `x[SRC_LEN]` where it is not negative (R22). -/
def State.srcCount (s : State) : Nat := s.srcLen.toInt.toNat

/-- `m`, the number of destination units: `x[DST_LEN]` where it is not negative (R22). -/
def State.dstCount (s : State) : Nat := s.dstLen.toInt.toNat

/-- The source byte at read offset `k`: `MemRead(x[SRC_PTR] + k, 1)` (R37). -/
def State.srcByte (s : State) (k : Nat) : Byte := s.mem.read (s.srcPtr.toNat + k)

/-- The source span of a command (R22); empty for VWR (R42). -/
def State.srcSpan (s : State) (i : Instr) : Span :=
  { base := s.srcPtr.toNat, len := if hasSource i then s.srcCount else 0 }

/-- The destination span of a command (R22); empty for VRD (R42). -/
def State.dstSpan (s : State) (i : Instr) : Span :=
  { base := s.dstPtr.toNat, len := if hasDest i then s.dstCount else 0 }

/-- R40, R80, R92, R108, R113: no length the command reads is negative. -/
def State.lengthsOk (s : State) (i : Instr) : Bool :=
  (!hasSource i || decide (0 ≤ s.srcLen.toInt)) && (!hasDest i || decide (0 ≤ s.dstLen.toInt))

/-- R41: each span the command has lies inside the memory space (log 2). -/
def State.spansInside (s : State) (i : Instr) : Bool :=
  (!hasSource i || (s.srcSpan i).inside s.cfg) && (!hasDest i || (s.dstSpan i).inside s.cfg)

/-- R42: the command's spans do not overlap. -/
def State.spansApart (s : State) (i : Instr) : Bool := (s.srcSpan i).apart (s.dstSpan i)

/-- The checks before a command's first memory access, in the order of R139: a negative length completes with
INVALID_LENGTH; a command that is not well formed (R41, R42) is refused; any other goes on. -/
def State.accept (s : State) (i : Instr) : Result :=
  if !s.lengthsOk i then .next (s.reject .invalidLength)
  else if !s.spansInside i then .refused .spanOutsideMemory
  else if !s.spansApart i then .refused .spansOverlap
  else .next s

/-- The register at an offset of the window (R14); none at the reserved offsets 0x24 to 0xFC (R15). -/
def regAt (offset : BitVec 8) : Option Reg :=
  [Reg.cmd, .status, .result, .srcPtr, .srcLen, .dstPtr, .dstLen, .valueLo, .valueHi][offset.toNat / 4]?

/-- The offset of a register in the window (R14). -/
def Reg.offset : Reg → BitVec 8
  | .cmd => 0x00
  | .status => 0x04
  | .result => 0x08
  | .srcPtr => 0x0C
  | .srcLen => 0x10
  | .dstPtr => 0x14
  | .dstLen => 0x18
  | .valueLo => 0x1C
  | .valueHi => 0x20

/-- R16: an access of an aligned 32-bit word. -/
def PortAccess.aligned (a : PortAccess) : Bool := decide (a.width = 32) && decide (a.offset.toNat % 4 = 0)

/-- The access of a register as R14 and R67 make it. -/
def Reg.access (r : Reg) : PortAccess := { width := 32, offset := r.offset }

end Sys2Proof.Machine
end

