-- ==== Sys2Proof/Machine/Command.lean ====
section
/-! DEFINITION. The lifecycle of a command (spec/30_encoding.md rule R56): start, admission, and its units one after
the other until it completes (spec/70_reset_and_hazards.md rule R155). -/

namespace Sys2Proof.Machine

/-- Units of a command, one after the other, while `BUSY` = 1. A command needs at most one unit per source unit and
one for the end of its span (R155), so the fuel given by `runCommand` never runs out. -/
def drive (unit : State → Result) : Nat → State → Result
  | 0, s => .next s
  | k + 1, s =>
    if s.busy then
      match unit s with
      | .next t => drive unit k t
      | .fault f => .fault f
      | .refused r => .refused r
    else .next s

/-- R56 (2), (3) and the entry checks: the command is started and accepted. A command cannot begin while another
runs (R138, R151; log 11). -/
def beginCommand (i : Instr) (s : State) : Result :=
  if s.busy then .refused .registerWriteWhileBusy else s.start.accept i

/-- R56 (2) to (5): a command from its start to its completion. -/
def runCommand (i : Instr) (unit : State → Result) (s : State) : Result :=
  match beginCommand i s with
  | .next t => drive unit (s.srcCount + 1) t
  | .fault f => .fault f
  | .refused r => .refused r

end Sys2Proof.Machine
end

