-- ==== Sys2Proof/Machine/Tables.lean ====
section
/-! DEFINITION. The read-only tables of the block (spec/40_alphabet_tables.md rules R69, R72, R76, R77): constants
that no command, access or reset changes (R29, R78). -/

namespace Sys2Proof.Machine

/-- The forward alphabet `FWD`, codes 0 to 63 in order (R69): `-`, `0`-`9`, `A`-`Z`, `_`, `a`-`z`. -/
def fwdTable : List Byte :=
  [0x2D] ++
  [0x30, 0x31, 0x32, 0x33, 0x34, 0x35, 0x36, 0x37, 0x38, 0x39] ++
  [0x41, 0x42, 0x43, 0x44, 0x45, 0x46, 0x47, 0x48, 0x49, 0x4A, 0x4B, 0x4C, 0x4D] ++
  [0x4E, 0x4F, 0x50, 0x51, 0x52, 0x53, 0x54, 0x55, 0x56, 0x57, 0x58, 0x59, 0x5A] ++
  [0x5F] ++
  [0x61, 0x62, 0x63, 0x64, 0x65, 0x66, 0x67, 0x68, 0x69, 0x6A, 0x6B, 0x6C, 0x6D] ++
  [0x6E, 0x6F, 0x70, 0x71, 0x72, 0x73, 0x74, 0x75, 0x76, 0x77, 0x78, 0x79, 0x7A]

/-- `FWD(c)` (R69). -/
def fwd (c : Code) : Byte := fwdTable.getD c.toNat 0

/-- `REV(b)`, by the byte ranges R72 lists. The ASCII values are those the spec supplies (93 G1, log 15). -/
def rev (b : Byte) : SymbolClass :=
  let n := b.toNat
  if n = 0x2D then .code 0
  else if 0x30 ≤ n ∧ n ≤ 0x39 then .code (BitVec.ofNat 6 (n - 0x2F))
  else if 0x41 ≤ n ∧ n ≤ 0x5A then .code (BitVec.ofNat 6 (n - 0x36))
  else if n = 0x5F then .code 37
  else if 0x61 ≤ n ∧ n ≤ 0x7A then .code (BitVec.ofNat 6 (n - 0x3B))
  else if n = 0x09 ∨ n = 0x0A ∨ n = 0x0D ∨ n = 0x20 then .whitespace
  else .invalid

/-- R76: symbols the encoder emits for `r` trailing bytes of an incomplete group. -/
def partialSymbols (r : Nat) : Nat := [0, 2, 3].getD r 0

/-- R76: padding bits of an encoder partial group, 6 x symbols - 8 x bytes. -/
def encoderPadding (r : Nat) : Nat := 6 * partialSymbols r - 8 * r

/-- R77: bytes the decoder emits for `q` trailing codes of an incomplete group; a lone code is never valid. -/
def partialBytes (q : Nat) : Option Nat := [some 0, none, some 1, some 2].getD q none

/-- R77: padding bits the decoder discards for `q` trailing codes of an incomplete group. -/
def decoderPadding (q : Nat) : Option Nat := (partialBytes q).map fun e => 6 * q - 8 * e

end Sys2Proof.Machine
end

