-- ==== Sys2Proof/Machine/Decoder.lean ====
section
/-! DEFINITION. The unit `safe64_decoder` and its command DEC (spec/42_decoder.md rule R91). -/

namespace Sys2Proof.Machine

/-- The low 8e bits of `ACC` as bytes, most significant first: `ACC[8(e-1-k)+7 : 8(e-1-k)]` for k = 0..e-1 (R91,
R96, R97). -/
def accBytes (acc : Acc) (e : Nat) : List Byte :=
  (List.range e).map fun k => acc.extractLsb' (8 * (e - 1 - k)) 8

/-- R95: `ACC <- trunc_24((ACC << 6) | c)`. -/
def shiftCode (acc : Acc) (c : Code) : Acc := (acc <<< 6) ||| c.setWidth 24

/-- R96: a complete group, with the state after its fourth code was read. -/
def decGroup (s : State) (e : Engine) : State :=
  if s.dstCount < e.d + 3 then (s.withEngine e).raise .notEnoughRoom e.commit e.d
  else (s.emit e.d (accBytes e.acc 3)).withEngine { e with d := e.d + 3, acc := 0, fill := 0, commit := e.s }

/-- R95: a source byte of class CODE. -/
def decCode (s : State) (c : Code) : State :=
  let e := s.engine
  let e' := { e with gstart := if e.fill = 0 then e.s else e.gstart, acc := shiftCode e.acc c, fill := e.fill + 1, s := e.s + 1 }
  if e'.fill = 4 then decGroup s e' else s.withEngine e'

/-- One iteration of DEC's loop: whitespace is skipped (R93), an invalid byte ends the command (R94), a code is
accumulated (R95). -/
def decByte (s : State) : State :=
  let e := s.engine
  match rev (s.srcByte e.s) with
  | .whitespace => s.withEngine { e with s := e.s + 1 }
  | .invalid => s.raise .invalidSourceData e.s e.d
  | .code c => decCode s c

/-- The end of the source span, the first case of R97 that applies: no group pending, the final lone symbol, the
final partial group, or the rollback of R98. -/
def decEnd (final : Bool) (s : State) : State :=
  let e := s.engine
  if e.fill = 0 then (s.withEngine { e with commit := e.s }).complete e.d e.s e.d
  else if final then
    match partialBytes e.fill with
    | none => s.raise .invalidSourceData e.gstart e.d
    | some n =>
      if s.dstCount < e.d + n then s.raise .notEnoughRoom e.commit e.d
      else ((s.emit e.d (accBytes e.acc n)).withEngine { e with d := e.d + n, commit := e.s }).complete (e.d + n) e.s (e.d + n)
  else s.complete e.d e.commit e.d

/-- One unit of DEC. -/
def decUnit (final : Bool) (s : State) : Result :=
  .next (if s.engine.s < s.srcCount then decByte s else decEnd final s)

/-- DEC: streaming decode (R91). -/
def execDec (final : Bool) (s : State) : Result := runCommand (.dec final) (decUnit final) s

end Sys2Proof.Machine
end

