-- ==== Sys2Proof/Machine/Encoder.lean ====
section
/-! DEFINITION. The unit `safe64_encoder` and its command ENC (spec/41_encoder.md rule R79). -/

namespace Sys2Proof.Machine

/-- The symbols of the low 6e bits of `ACC`, most significant 6 bits first: `FWD(ACC[6(e-1-k)+5 : 6(e-1-k)])` for
k = 0..e-1 (R79, R82, R84). -/
def accSymbols (acc : Acc) (e : Nat) : List Byte :=
  (List.range e).map fun k => fwd (acc.extractLsb' (6 * (e - 1 - k)) 6)

/-- R81: `ACC <- trunc_24((ACC << 8) | b)`. -/
def shiftByte (acc : Acc) (b : Byte) : Acc := (acc <<< 8) ||| b.setWidth 24

/-- R82, R83: a complete group, with the state after its third byte was read. -/
def encGroup (s : State) (e : Engine) : State :=
  if s.dstCount < e.d + 4 then (s.withEngine e).raise .notEnoughRoom e.commit e.d
  else (s.emit e.d (accSymbols e.acc 4)).withEngine { e with d := e.d + 4, acc := 0, fill := 0, commit := e.s }

/-- One iteration of ENC's loop (R81): read a byte, and emit the group it completes. -/
def encByte (s : State) : State :=
  let e := s.engine
  let e' := { e with acc := shiftByte e.acc (s.srcByte e.s), fill := e.fill + 1, s := e.s + 1 }
  if e'.fill = 3 then encGroup s e' else s.withEngine e'

/-- The end of the source span (R84, R85): the final partial group, or the rollback of an incomplete one. -/
def encEnd (final : Bool) (s : State) : State :=
  let e := s.engine
  if 0 < e.fill ∧ final then
    let n := partialSymbols e.fill
    if s.dstCount < e.d + n then s.raise .notEnoughRoom e.commit e.d
    else ((s.emit e.d (accSymbols e.acc n)).withEngine { e with d := e.d + n, commit := e.s }).complete (e.d + n) e.s (e.d + n)
  else s.complete e.d e.commit e.d

/-- One unit of ENC. -/
def encUnit (final : Bool) (s : State) : Result :=
  .next (if s.engine.s < s.srcCount then encByte s else encEnd final s)

/-- ENC: streaming encode (R79). -/
def execEnc (final : Bool) (s : State) : Result := runCommand (.enc final) (encUnit final) s

end Sys2Proof.Machine
end

