-- ==== Sys2Proof/Machine/Varint.lean ====
section
/-! DEFINITION. The units `varint_encoder` and `varint_decoder` and their commands VWR and VRD (spec/43_varint.md
rules R106, R107, R112). -/

namespace Sys2Proof.Machine

/-- R106: the number of bits needed to represent `v`, 0 for 0. -/
def bitLength (v : Nat) : Nat := if v = 0 then 0 else Nat.log2 v + 1

/-- R106: the number of chunks of a value, max(1, ceil(bitlen / 5)). -/
def chunks (v : Nat) : Nat := max 1 ((bitLength v + 4) / 5)

/-- R107, R110: the code of chunk `k` of `n`: a 5-bit piece, with the continuation bit on all but the last. -/
def chunkCode (v : Value) (n k : Nat) : Code :=
  let piece := (v.extractLsb' (5 * (n - 1 - k)) 5).setWidth 6
  if k < n - 1 then 0x20 ||| piece else piece

/-- R107: the symbols of a length field, most significant chunk first. -/
def varintSymbols (v : Value) : List Byte :=
  (List.range (chunks v.toNat)).map fun k => fwd (chunkCode v (chunks v.toNat) k)

/-- The one unit of VWR (R107, R109): a varint is written whole or not at all. -/
def vwrUnit (s : State) : Result :=
  let n := chunks s.value.toNat
  if s.dstCount < n then .next (s.raise .notEnoughRoom 0 0)
  else .next (((s.emit 0 (varintSymbols s.value)).withEngine { s.engine with d := n }).complete n 0 n)

/-- VWR: varint write (R107). -/
def execVwr (s : State) : Result := runCommand .vwr vwrUnit s

/-- R112: `V <- trunc_VAL_W((V << 5) | c[4:0])`. -/
def shiftChunk (v : Value) (c : Code) : Value := (v <<< 5) ||| (c.extractLsb' 0 5).setWidth 64

/-- A chunk that is accepted (R112, R114): the last one stores `VALUE` and completes. -/
def vrdAccept (s : State) (c : Code) : State :=
  let e := s.engine
  let e' := { e with v := shiftChunk e.v c, s := e.s + 1 }
  if c.getLsbD 5 then s.withEngine e'
  else ({ s with value := e'.v }.withEngine e').complete e'.s e'.s 0

/-- One chunk of VRD (R112), and the open parameter where the value needs more than 64 bits (R117). -/
def vrdChunk (s : State) (c : Code) : Result :=
  if s.engine.v >>> 59 ≠ 0 then
    match s.cfg.varintOverflow with
    | .fault => .fault .varintOverflow
    | .wrap => .next (vrdAccept s c)
    | .error => .next (s.raise .invalidSourceData s.engine.s 0)
  else .next (vrdAccept s c)

/-- One unit of VRD: a byte that is no code ends the command (R115), and so does the end of the span (R116). -/
def vrdUnit (s : State) : Result :=
  if s.engine.s < s.srcCount then
    match rev (s.srcByte s.engine.s) with
    | .code c => vrdChunk s c
    | .whitespace => .next (s.raise .invalidSourceData s.engine.s 0)
    | .invalid => .next (s.raise .invalidSourceData s.engine.s 0)
  else .next (s.raise .unterminatedLengthField 0 0)

/-- VRD: varint read (R112). -/
def execVrd (s : State) : Result := runCommand .vrd vrdUnit s

end Sys2Proof.Machine
end

