-- ==== Sys2Proof/Machine/Dispatch.lean ====
section
/-! DEFINITION. The meaning of every command, one arm per constructor of `Instr` (spec/30_encoding.md rule R53). -/

namespace Sys2Proof.Machine

def exec (i : Instr) (s : State) : Host.Outcome State Fault Refusal :=
  match i with
  | .enc final => Sys2Proof.Machine.execEnc final s
  | .dec final => Sys2Proof.Machine.execDec final s
  | .vwr => Sys2Proof.Machine.execVwr s
  | .vrd => Sys2Proof.Machine.execVrd s

end Sys2Proof.Machine
end

