-- ==== Sys2Proof/Machine/Port.lean ====
section
/-! DEFINITION. What the host, the memory's other agents and the engine do in one turn: register accesses (R14 to
R18, R56, R151, R152), the units of a running command (R155), memory accesses (R43, R47), reset (R147, R148). -/

namespace Sys2Proof.Machine

/-- One unit of a command. -/
def commandUnit : Instr → State → Result
  | .enc final => encUnit final
  | .dec final => decUnit final
  | .vwr => vwrUnit
  | .vrd => vrdUnit

/-- R55, R56 (4): an illegal word completes with INVALID_COMMAND and changes nothing else. -/
def runIllegal (s : State) : State := s.start.reject .invalidCommand

/-- R56 (2) to (5): the word in `CMD` is decoded and run to completion. -/
def runWord (w : Word) (s : State) : Result :=
  match decode w with
  | .instr i => exec i s
  | .illegal _ => .next (runIllegal s)

/-- R56 (2) to (4), with the engine's units still to come (R155): the word in `CMD` is decoded and started. -/
def startWord (w : Word) (s : State) : Result :=
  match decode w with
  | .instr i => beginCommand i s
  | .illegal _ => .next (runIllegal s)

/-- The engine takes one unit of the running command, which is the one `CMD` holds (R151: `CMD` cannot change while
it runs). An illegal word never stays running; if one does it completes with INVALID_COMMAND (log 16). -/
def engineTurn (s : State) : Result :=
  if s.busy then
    match decode s.cmd with
    | .instr i => commandUnit i s
    | .illegal _ => .next (s.reject .invalidCommand)
  else .next s

/-- A host write of a word (R14 to R18, R56, R151). -/
def hostWrite (a : PortAccess) (w : Word) (s : State) : Result :=
  if !a.aligned then .refused .portAccess
  else
    match regAt a.offset with
    | none => .next s
    | some r =>
      if s.busy then .refused .registerWriteWhileBusy
      else if r = .cmd then runWord w (s.writeReg .cmd w)
      else .next (s.writeReg r w)

/-- A host write of `CMD` whose command completes later (R56, R151, R155). -/
def hostStart (w : Word) (s : State) : Result :=
  if s.busy then .refused .registerWriteWhileBusy else startWord w (s.writeReg .cmd w)

/-- Record what a register read returned. -/
def State.observeReg (s : State) (offset : BitVec 8) (w : Word) : State :=
  { s with observed := .reg offset w :: s.observed }

/-- A host read of a word (R14, R15, R18). While `BUSY` = 1 a register other than `STATUS` returns a free value
(R152, 93 I2; log 4); a reserved offset reads 0 (R15; log 7). -/
def hostRead (a : PortAccess) (s : State) : Result :=
  if !a.aligned then .refused .portAccess
  else
    match regAt a.offset with
    | none => .next (s.observeReg a.offset 0)
    | some r =>
      if s.busy ∧ r ≠ .status then
        .next { s.observeReg a.offset (Config.drawWord s.draws) with draws := s.draws + 1 }
      else .next (s.observeReg a.offset (s.readReg r))

/-- The source span that the host must not write: the running command's (R47). -/
def State.guardedSrc (s : State) : Span :=
  match s.busy, decode s.cmd with
  | true, .instr i => s.srcSpan i
  | _, _ => { base := 0, len := 0 }

/-- The destination span that the host must not read or write: the running command's (R47). -/
def State.guardedDst (s : State) : Span :=
  match s.busy, decode s.cmd with
  | true, .instr i => s.dstSpan i
  | _, _ => { base := 0, len := 0 }

/-- A memory write by the host or another agent (R31, R43, R47). -/
def hostMemWrite (addr : Nat) (b : Byte) (s : State) : Result :=
  if s.cfg.space ≤ addr then .fault .noSuchAddress
  else if s.guardedSrc.has addr || s.guardedDst.has addr then .refused .spanAccessWhileBusy
  else .next { s with mem := s.mem.write addr b }

/-- A memory read by the host or another agent (R31, R43, R47). -/
def hostMemRead (addr : Nat) (s : State) : Result :=
  if s.cfg.space ≤ addr then .fault .noSuchAddress
  else if s.guardedDst.has addr then .refused .spanAccessWhileBusy
  else .next { s with observed := .mem addr (s.mem.read addr) :: s.observed }

/-- The free bytes a reset leaves in a span of `n` bytes (R148, 93 I9; log 4). -/
def drawnBytes (draws n : Nat) : List Byte := (List.range n).map fun j => Config.drawByte (draws + j)

/-- Reset (R147): every register and the transient state take their reset values, and memory does not change, but
that each byte of the destination span of a command it abandons holds a free value (R148). -/
def resetTurn (s : State) : State :=
  let p := s.guardedDst
  { s with
    cmd := 0, busy := false, result := 0, srcPtr := 0, srcLen := 0, dstPtr := 0, dstLen := 0, value := 0
    engine := Engine.start
    mem := s.mem.writeBytes p.base (drawnBytes s.draws p.len)
    draws := s.draws + p.len }

/-- The host line `wait` (R67): one read of `STATUS`, and while `BUSY` is 1 the engine moves and the wait goes on. -/
def waitTurn (s : State) : Result :=
  let t := s.observeReg Reg.status.offset (s.readReg .status)
  if s.busy then engineTurn { t with schedule := .wait :: t.schedule } else .next t

/-- One turn. -/
def takeTurn (t : Turn) (s : State) : Result :=
  match t with
  | .regWrite a w => hostWrite a w s
  | .regRead a => hostRead a s
  | .startHeld w => hostStart w s
  | .engine => engineTurn s
  | .wait => waitTurn s
  | .memWrite addr b => hostMemWrite addr b s
  | .memRead addr => hostMemRead addr s
  | .reset => .next (resetTurn s)

end Sys2Proof.Machine
end

