-- ==== Sys2Proof/Machine/Step.lean ====
section
/-! DEFINITION. One step of the machine: the next scheduled turn, or, with nothing scheduled, one unit of the running
command; an idle block with nothing scheduled keeps its state (R145, R155). -/

namespace Sys2Proof.Machine

/-- One step (log 6, log 14). -/
def step (s : State) : Host.Outcome State Fault Refusal :=
  match s.schedule with
  | [] => engineTurn s
  | t :: rest => takeTurn t { s with schedule := rest }

/-- The state whose next step is the host write of this word to `CMD` (R56): the block fetches nothing (R51), a
command reaches it as a register write. `BUSY` is set to 0, since a command can start in no other state (R151; log 6). -/
def State.withFetchWord (s : State) (nbits w : Nat) : State :=
  { s with busy := false, schedule := .regWrite Reg.cmd.access (BitVec.ofNat 32 (w % 2 ^ nbits)) :: s.schedule }

end Sys2Proof.Machine
end

