-- ==== Sys2Proof/Machine/HostProtocol.lean ====
section
/-! DEFINITION. The host's side: the line syntax (spec/30_encoding.md rules R67, R68), the length helpers and the
one-shot sequences (spec/44_host_protocol.md rules R127 to R132). These bind the host and are not part of the block
(R7); every command runs in one step here (R155). -/

namespace Sys2Proof.Machine

/-- One line of a host program (R67). -/
inductive HostLine where
  | wr (r : Reg) (imm : Word)
  | rd (r : Reg)
  | cmd (i : Instr)
  | wait
  deriving DecidableEq, Repr

/-- The register-port access a line encodes as (R67). -/
def HostLine.turn : HostLine → Turn
  | .wr r imm => .regWrite r.access imm
  | .rd r => .regRead r.access
  | .cmd i => .regWrite Reg.cmd.access (encode i)
  | .wait => .wait

/-- `src p, n` (R68). -/
def srcLines (p n : Word) : List HostLine := [.wr .srcPtr p, .wr .srcLen n]

/-- `dst p, n` (R68). -/
def dstLines (p n : Word) : List HostLine := [.wr .dstPtr p, .wr .dstLen n]

/-- `val v` (R68). -/
def valLines (v : Value) : List HostLine :=
  [.wr .valueLo (v.extractLsb' 0 32), .wr .valueHi (v.extractLsb' 32 32)]

/-- `run op` (R68). -/
def runLines (i : Instr) : List HostLine := [.cmd i, .wait, .rd .result]

/-- `encode sp, sn, dp, dn` (R68, R130). -/
def encodeLines (sp sn dp dn : Word) : List HostLine := srcLines sp sn ++ dstLines dp dn ++ runLines (.enc true)

/-- `decode sp, sn, dp, dn` (R68, R130). -/
def decodeLines (sp sn dp dn : Word) : List HostLine := srcLines sp sn ++ dstLines dp dn ++ runLines (.dec true)

/-- A host program's lines, one turn each. -/
def playLines : List HostLine → State → Result
  | [], s => .next s
  | l :: ls, s =>
    match takeTurn l.turn s with
    | .next t => playLines ls t
    | .fault f => .fault f
    | .refused r => .refused r

/-- `encodedLength` (R127). -/
def encodedLength (n : Int) (withLength : Bool) : Int :=
  if n < 0 then Status.invalidLength.toInt
  else n / 3 * 4 + partialSymbols (n % 3).toNat + (if withLength then chunks n.toNat else 0)

/-- `decodedLength` (R128), with the best-effort value 0 for a lone symbol. -/
def decodedLength (e : Int) : Int :=
  if e < 0 then Status.invalidLength.toInt else e / 4 * 3 + (partialBytes (e % 4).toNat).getD 0

/-- What a host sequence answers: the state it leaves and the value it returns. -/
abbrev HostResult := Host.Outcome (State × Int) Fault Refusal

/-- The value the newest read returned: a line's observation, on which the host decides (R67, R68). -/
def State.lastRead (s : State) : Word :=
  match s.observed with
  | .reg _ w :: _ => w
  | .mem _ b :: _ => b.setWidth 32
  | [] => 0

/-- Lines whose last one is a read, then what the host does with the value it returned (R68). -/
def playThen (ls : List HostLine) (s : State) (next : State → Word → HostResult) : HostResult :=
  match playLines ls s with
  | .next t => next t t.lastRead
  | .fault f => .fault f
  | .refused r => .refused r

/-- `encode_l sp, sn, dp, dn` (R131). The lengths are mathematical integers (R9), written to the registers in two's
complement (R67; log 13). -/
def encodeL (sp : Word) (sn : Int) (dp : Word) (dn : Int) (s : State) : HostResult :=
  playThen (valLines (BitVec.ofInt 64 sn) ++ dstLines dp (BitVec.ofInt 32 dn) ++ runLines .vwr) s fun t written =>
    if written.toInt < 0 then .next (t, written.toInt)
    else
      playThen (srcLines sp (BitVec.ofInt 32 sn) ++ runLines (.enc true)) t fun u body =>
        if body.toInt < 0 then .next (u, body.toInt) else .next (u, written.toInt + body.toInt)

/-- The part of `decode_l` that follows the length field (R132): `declared` is L, `rest` is r. -/
def decodeBody (declared : Nat) (rest : Int) (dp : Word) (dn : Int) (s : State) : HostResult :=
  if rest < encodedLength declared false then .next (s, Status.truncatedData.toInt)
  else if dn < declared then .next (s, Status.notEnoughRoom.toInt)
  else
    playThen (dstLines dp (BitVec.ofNat 32 declared) ++ runLines (.dec true)) s fun t body =>
      if body.toInt < 0 then .next (t, body.toInt)
      else if body.toInt < declared then .next (t, Status.truncatedData.toInt)
      else .next (t, body.toInt)

/-- `decode_l sp, sn, dp, dn` (R132; 90 C2). L is what `rd VALUE_LO` and `rd VALUE_HI` return (R20; log 13). -/
def decodeL (sp : Word) (sn : Int) (dp : Word) (dn : Int) (s : State) : HostResult :=
  playThen (srcLines sp (BitVec.ofInt 32 sn) ++ runLines .vrd) s fun t consumed =>
    if consumed.toInt < 0 then .next (t, consumed.toInt)
    else
      playThen [.rd .valueLo] t fun u lo =>
        playThen [.rd .valueHi] u fun v hi => decodeBody (hi ++ lo).toNat (sn - consumed.toInt) dp dn v

end Sys2Proof.Machine
end

