-- ==== Sys2Proof/Machine/Reference.lean ====
section
/-! DEFINITION. The wire format as functions on lists (spec/30_encoding.md rules R60 to R66), written from the bit
tables of those rules and not from the engines' accumulator, so that statements can compare the two. No step of the
machine uses this file. -/

namespace Sys2Proof.Machine

/-- The symbols of a byte sequence: complete groups by R60's table, then at most one partial group by R62 or R61,
with the padding bits 0 (R63). -/
def encodeBytes : List Byte → List Byte
  | [] => []
  | [b0] => [fwd (0#4 ++ b0.extractLsb' 6 2), fwd (b0.extractLsb' 0 6)]
  | [b0, b1] =>
    [fwd (0#2 ++ b0.extractLsb' 4 4), fwd (b0.extractLsb' 0 4 ++ b1.extractLsb' 6 2), fwd (b1.extractLsb' 0 6)]
  | b0 :: b1 :: b2 :: rest =>
    fwd (b0.extractLsb' 2 6) :: fwd (b0.extractLsb' 0 2 ++ b1.extractLsb' 4 4) ::
      fwd (b1.extractLsb' 0 4 ++ b2.extractLsb' 6 2) :: fwd (b2.extractLsb' 0 6) :: encodeBytes rest

/-- The bytes of a code sequence: the inverse of R60 on complete groups, then R62 or R61 on a partial group of three
or two codes, whose padding bits are not read (R63). A lone code gives no byte (R77). -/
def decodeCodes : List Code → List Byte
  | [] => []
  | [_] => []
  | [c0, c1] => [c0.extractLsb' 0 2 ++ c1]
  | [c0, c1, c2] => [c0.extractLsb' 0 4 ++ c1.extractLsb' 2 4, c1.extractLsb' 0 2 ++ c2]
  | c0 :: c1 :: c2 :: c3 :: rest =>
    (c0 ++ c1.extractLsb' 4 2) :: (c1.extractLsb' 0 4 ++ c2.extractLsb' 2 4) :: (c2.extractLsb' 0 2 ++ c3) ::
      decodeCodes rest

/-- A code sequence with the padding bits of its partial group cleared: `c0[5:2]` of two codes (R61), `c0[5:4]` of
three (R62). -/
def clearPadding : List Code → List Code
  | [] => []
  | [c] => [c]
  | [c0, c1] => [c0 &&& 0b000011, c1]
  | [c0, c1, c2] => [c0 &&& 0b001111, c1, c2]
  | c0 :: c1 :: c2 :: c3 :: rest => c0 :: c1 :: c2 :: c3 :: clearPadding rest

/-- The code of a byte, if it is one of the 64 symbols (R72). -/
def codeOf (b : Byte) : Option Code :=
  match rev b with
  | .code c => some c
  | .whitespace => none
  | .invalid => none

/-- The codes of a text, whitespace skipped (R93). -/
def sourceCodes (bs : List Byte) : List Code := bs.filterMap codeOf

/-- The byte is one of the four whitespace bytes (R72). -/
def isSpace (b : Byte) : Bool := rev b == .whitespace

/-- The byte may stand in an encoded text: a symbol or whitespace (R59). -/
def isText (b : Byte) : Bool := rev b != .invalid

/-- The offset just after the k-th code of a text; 0 for k = 0 (R101). -/
def afterCodes : Nat → List Byte → Nat
  | 0, _ => 0
  | _ + 1, [] => 0
  | k + 1, b :: bs => 1 + afterCodes (if (codeOf b).isSome then k else k + 1) bs

/-- The value of a chunk sequence: `sum over k of c_k[4:0] * 32^(n-1-k)` (R64). -/
def varintValue (cs : List Code) : Nat := cs.foldl (fun v c => 32 * v + c.toNat % 32) 0

/-- Every chunk has its continuation flag `c[5]` set (R64). -/
def allContinue (cs : List Code) : Bool := cs.all fun c => c.getLsbD 5

/-- A whole length field: continuation chunks, then one chunk without the flag (R64). -/
def isVarint (cs : List Code) : Bool :=
  match cs.getLast? with
  | none => false
  | some c => allContinue cs.dropLast && !c.getLsbD 5

end Sys2Proof.Machine
end

