-- ==== Sys2Proof/Safety.lean ====
section
/-! DEFINITION. What the statements speak of: the invariant of the machine, the conditions under which a command
runs, and what its completion leaves. -/

namespace Sys2Proof.Machine

/-- R25, R27, R81, R85: the transient state of a running ENC between two units. -/
structure EncProgress (s : State) : Prop where
  fillSmall : s.engine.fill ≤ 2
  readBound : s.engine.s ≤ s.srcCount
  writeBound : s.engine.d ≤ s.dstCount
  readSplit : s.engine.s = s.engine.commit + s.engine.fill
  wholeGroups : 3 * s.engine.d = 4 * s.engine.commit
  accBits : s.engine.acc.toNat < 2 ^ (8 * s.engine.fill)

/-- R25, R27, R93, R95: the transient state of a running DEC between two units. -/
structure DecProgress (s : State) : Prop where
  fillSmall : s.engine.fill ≤ 3
  readBound : s.engine.s ≤ s.srcCount
  writeBound : s.engine.d ≤ s.dstCount
  readSplit : s.engine.commit + s.engine.fill ≤ s.engine.s
  groupStart : 0 < s.engine.fill → s.engine.commit ≤ s.engine.gstart ∧ s.engine.gstart + s.engine.fill ≤ s.engine.s
  wholeGroups : s.engine.d % 3 = 0
  accBits : s.engine.acc.toNat < 2 ^ (6 * s.engine.fill)

/-- R25, R112: the transient state of a running VRD between two units. -/
structure VrdProgress (s : State) : Prop where
  readBound : s.engine.s ≤ s.srcCount
  nothingWritten : s.engine.d = 0

/-- R26, R107: a running VWR has not done anything yet (it is one unit). -/
def VwrProgress (s : State) : Prop := s.engine = Engine.start

/-- The transient state of a running command between two units. -/
def progressOk (i : Instr) (s : State) : Prop :=
  match i with
  | .enc _ => EncProgress s
  | .dec _ => DecProgress s
  | .vwr => VwrProgress s
  | .vrd => VrdProgress s

/-- The invariant of the machine: the parameters are in their range (R8), the pointers have `ADDR_W` bits (R18), the
memory is in canonical form and holds no byte outside the space (R31), and while `BUSY` = 1 the word in `CMD` is a
command whose spans are well formed (R41, R42) and whose transient state is within the bounds of R25. -/
structure State.Wf (s : State) : Prop where
  cfgOk : s.cfg.wf = true
  srcOk : s.srcPtr.toNat < s.cfg.space
  dstOk : s.dstPtr.toNat < s.cfg.space
  memOk : s.mem.wf = true
  memBelow : s.mem.below s.cfg.space = true
  runningOk : s.busy = true → ∃ i, decode s.cmd = .instr i ∧ s.lengthsOk i = true ∧ s.spansInside i = true ∧
    s.spansApart i = true ∧ progressOk i s

/-- The source span exists and lies inside the memory space (R41). -/
abbrev SrcFits (s : State) : Prop :=
  0 ≤ s.srcLen.toInt ∧ s.srcPtr.toNat + s.srcLen.toInt.toNat ≤ 2 ^ s.cfg.addrW

/-- The destination span exists and lies inside the memory space (R41). -/
abbrev DstFits (s : State) : Prop :=
  0 ≤ s.dstLen.toInt ∧ s.dstPtr.toNat + s.dstLen.toInt.toNat ≤ 2 ^ s.cfg.addrW

/-- The two spans share no address, when both have length > 0 (R42). -/
abbrev SpansDisjoint (s : State) : Prop :=
  s.srcLen.toInt = 0 ∨ s.dstLen.toInt = 0 ∨ s.srcPtr.toNat + s.srcLen.toInt.toNat ≤ s.dstPtr.toNat ∨
    s.dstPtr.toNat + s.dstLen.toInt.toNat ≤ s.srcPtr.toNat

/-- An idle machine on which a command with both spans may start (R41, R42, R56). -/
structure Ready (s : State) : Prop where
  wf : s.Wf
  idle : s.busy = false
  src : SrcFits s
  dst : DstFits s
  apart : SpansDisjoint s

/-- `n` bytes of memory from an address. -/
def readSpan (m : Memory) (base n : Nat) : List Byte := (List.range n).map fun k => m.read (base + k)

/-- The bytes of the source span (R22). -/
def State.srcBytes (s : State) : List Byte := readSpan s.mem s.srcPtr.toNat s.srcLen.toInt.toNat

/-- What a completion with the write-back leaves (R21, R38, R57, R58), `VALUE` apart: the outcome in `RESULT`, both
cursors moved, exactly the bytes `out` written from the destination cursor on, and everything else as before. -/
structure Completes (s t : State) (outcome : Int) (srcOut dstOut : Nat) (out : List Byte) : Prop where
  busy : t.busy = false
  result : t.result.toInt = outcome
  srcPtr : t.srcPtr.toNat = (s.srcPtr.toNat + srcOut) % 2 ^ s.cfg.addrW
  srcLen : t.srcLen.toInt = s.srcLen.toInt - srcOut
  dstPtr : t.dstPtr.toNat = (s.dstPtr.toNat + dstOut) % 2 ^ s.cfg.addrW
  dstLen : t.dstLen.toInt = s.dstLen.toInt - dstOut
  written : out.length = dstOut ∧ readSpan t.mem s.dstPtr.toNat dstOut = out
  others : ∀ a, a < s.dstPtr.toNat ∨ s.dstPtr.toNat + dstOut ≤ a → t.mem.read a = s.mem.read a
  rest : t.cfg = s.cfg ∧ t.cmd = s.cmd ∧ t.schedule = s.schedule ∧ t.observed = s.observed ∧ t.draws = s.draws

end Sys2Proof.Machine
end

