-- ==== Sys2Proof/Certificates/Slice0/Obligations.lean ====
section
/-! DEFINITION. The statements about the safe64 CORE, for the provers. Each docstring names the rule of spec/ it
formalises, or the log entry where it rests on a choice of the model's. -/

open Sys2Proof Sys2Proof.Machine

/-! ## Command words -/

/-- R54, the decode of every 32-bit word, by the numbers of its fields (`RSV` = w / 32, `OP` = w mod 16,
`F` = bit 4). -/
def Obligations.DecodeByFields : Prop :=
  ∀ w : Word,
    (w.toNat / 32 ≠ 0 → ∃ why, decode w = .illegal why) ∧
    (w.toNat / 32 = 0 →
      (w.toNat % 16 = 1 → decode w = .instr (.enc (w.toNat / 16 % 2 == 1))) ∧
      (w.toNat % 16 = 2 → decode w = .instr (.dec (w.toNat / 16 % 2 == 1))) ∧
      (w.toNat % 16 = 3 → w.toNat / 16 % 2 = 0 → decode w = .instr .vwr) ∧
      (w.toNat % 16 = 3 → w.toNat / 16 % 2 = 1 → ∃ why, decode w = .illegal why) ∧
      (w.toNat % 16 = 4 → w.toNat / 16 % 2 = 0 → decode w = .instr .vrd) ∧
      (w.toNat % 16 = 4 → w.toNat / 16 % 2 = 1 → ∃ why, decode w = .illegal why) ∧
      (w.toNat % 16 = 0 ∨ 5 ≤ w.toNat % 16 → ∃ why, decode w = .illegal why))

/-- R53: the legal command words are exactly six, each with its command. A word decodes to a command exactly when it
is that command's word, so decoding the encoding of any command gives it back with its field `F`. -/
def Obligations.DecodeIffEncode : Prop :=
  (∀ (w : Word) (i : Instr), decode w = .instr i ↔ w = encode i) ∧
  encode (.enc false) = 0x00000001 ∧ encode (.enc true) = 0x00000011 ∧ encode (.dec false) = 0x00000002 ∧
  encode (.dec true) = 0x00000012 ∧ encode .vwr = 0x00000003 ∧ encode .vrd = 0x00000004

/-- R53: each of the six legal words, written out from the table of the rule, decodes to its command. -/
def Obligations.SixLegalWords : Prop :=
  decode 0x00000001 = .instr (.enc false) ∧ decode 0x00000011 = .instr (.enc true) ∧
  decode 0x00000002 = .instr (.dec false) ∧ decode 0x00000012 = .instr (.dec true) ∧
  decode 0x00000003 = .instr .vwr ∧ decode 0x00000004 = .instr .vrd

/-- R55: all words but six are illegal (so 2^32 - 6 are), and on an idle block an illegal word completes at once with
`RESULT` = -6; `CMD` holds the word (R56), the transient state is cleared (R26) and nothing else changes. -/
def Obligations.IllegalWordsOnlySetResult : Prop :=
  (∀ w : Word, (∃ why, decode w = .illegal why) ↔
    w ∉ [0x00000001#32, 0x00000011#32, 0x00000002#32, 0x00000012#32, 0x00000003#32, 0x00000004#32]) ∧
  ∀ (s : State) (w : Word) (why : Illegal), s.busy = false → decode w = .illegal why →
    takeTurn (.regWrite Reg.cmd.access w) s =
      .next { s with cmd := w, result := BitVec.ofInt 32 (-6), engine := Engine.start }

/-- R56: when the next turn is a host write of a command's word to `CMD` and `BUSY` = 0, the step is the meaning of
that command, on the state with the word in `CMD` and the turn taken. -/
def Obligations.StepRunsTheDecodedCommand : Prop :=
  ∀ (s : State) (w : Word) (i : Instr) (rest : List Turn),
    s.schedule = .regWrite { width := 32, offset := 0x00 } w :: rest → s.busy = false → decode w = .instr i →
      step s = exec i { s with schedule := rest, cmd := w }

/-- The model's interface (log 6): a word of the opcode table placed where the next step takes its command is run
by that step. -/
def Obligations.FetchedTableWordRuns : Prop :=
  ∀ (s : State) (nbits w : Nat) (i : Instr), decodeTableWord nbits w = some i →
    step (s.withFetchWord nbits w) = exec i { s with busy := false, cmd := BitVec.ofNat 32 (w % 2 ^ nbits) }

/-- R150: the commands started straight after reset. ENC and DEC succeed with 0, VWR reports NOT_ENOUGH_ROOM, VRD
reports UNTERMINATED_LENGTH_FIELD. -/
def Obligations.CommandsStraightAfterReset : Prop :=
  (∀ final, ∃ t, exec (.enc final) State.reset = .next t ∧ t.busy = false ∧ t.result.toInt = 0) ∧
  (∀ final, ∃ t, exec (.dec final) State.reset = .next t ∧ t.busy = false ∧ t.result.toInt = 0) ∧
  (∃ t, exec .vwr State.reset = .next t ∧ t.busy = false ∧ t.result.toInt = -1) ∧
  (∃ t, exec .vrd State.reset = .next t ∧ t.busy = false ∧ t.result.toInt = -3)

/-! ## Tables and the wire format -/

/-- R70 and R71 (which the spec marks as derived from R69): the closed form of `FWD`, and `FWD` is strictly
increasing. -/
def Obligations.ForwardTableClosedForm : Prop :=
  (∀ c : Code, (fwd c).toNat =
    if c.toNat = 0 then 0x2D else if c.toNat ≤ 10 then 0x2F + c.toNat else if c.toNat ≤ 36 then 0x36 + c.toNat
    else if c.toNat = 37 then 0x5F else 0x3B + c.toNat) ∧
  ∀ c d : Code, c.toNat < d.toNat → (fwd c).toNat < (fwd d).toNat

/-- R72: `REV` by `FWD` and the four whitespace bytes. -/
def Obligations.ReverseTableByForward : Prop :=
  ∀ b : Byte, (∀ c : Code, rev b = .code c ↔ fwd c = b) ∧
    (rev b = .whitespace ↔ (b = 0x09 ∨ b = 0x0A ∨ b = 0x0D ∨ b = 0x20)) ∧
    (rev b = .invalid ↔ (∀ c : Code, fwd c ≠ b) ∧ ¬ (b = 0x09 ∨ b = 0x0A ∨ b = 0x0D ∨ b = 0x20))

/-- R73 (which the spec marks as derived): `REV` undoes `FWD`, and of the 256 bytes 64 are codes, 4 whitespace and
188 invalid. -/
def Obligations.ReverseTableCounts : Prop :=
  (∀ c : Code, rev (fwd c) = .code c) ∧
  ((List.range 256).filter fun n => (codeOf (BitVec.ofNat 8 n)).isSome).length = 64 ∧
  ((List.range 256).filter fun n => isSpace (BitVec.ofNat 8 n)).length = 4 ∧
  ((List.range 256).filter fun n => !isText (BitVec.ofNat 8 n)).length = 188

/-- R60, R61, R62: the engines' accumulator gives the bit layout of the wire format, for complete and partial
groups, in both directions; the decoder's padding bits have no part in it (R63). -/
def Obligations.GroupLayout : Prop :=
  (∀ b0 b1 b2 : Byte, accSymbols (shiftByte (shiftByte (shiftByte 0 b0) b1) b2) 4 = encodeBytes [b0, b1, b2]) ∧
  (∀ b0 b1 : Byte, accSymbols (shiftByte (shiftByte 0 b0) b1) 3 = encodeBytes [b0, b1]) ∧
  (∀ b0 : Byte, accSymbols (shiftByte 0 b0) 2 = encodeBytes [b0]) ∧
  (∀ c0 c1 c2 c3 : Code,
    accBytes (shiftCode (shiftCode (shiftCode (shiftCode 0 c0) c1) c2) c3) 3 = decodeCodes [c0, c1, c2, c3]) ∧
  (∀ c0 c1 c2 : Code, accBytes (shiftCode (shiftCode (shiftCode 0 c0) c1) c2) 2 = decodeCodes [c0, c1, c2]) ∧
  ∀ c0 c1 : Code, accBytes (shiftCode (shiftCode 0 c0) c1) 1 = decodeCodes [c0, c1]

/-- R106: the chunk count. `bitLength v` is the number of bits of v; `chunks v` is max(1, ceil(bitlen / 5)), the
least n >= 1 with v < 32^n; its boundaries; 13 exactly from 2^60 on, for 64-bit values. -/
def Obligations.ChunkCountIsLeast : Prop :=
  (∀ v, v < 2 ^ 64 →
    (bitLength v = 0 ↔ v = 0) ∧ (v ≠ 0 → 2 ^ (bitLength v - 1) ≤ v ∧ v < 2 ^ bitLength v) ∧
    1 ≤ chunks v ∧ bitLength v ≤ chunks v * 5 ∧ (∀ n, 1 ≤ n → bitLength v ≤ n * 5 → chunks v ≤ n) ∧
    v < 32 ^ chunks v ∧ (∀ n, 1 ≤ n → v < 32 ^ n → chunks v ≤ n) ∧
    chunks v ≤ 13 ∧ (chunks v = 13 ↔ 2 ^ 60 ≤ v)) ∧
  chunks 0 = 1 ∧ chunks 31 = 1 ∧ chunks 32 = 2 ∧ chunks 1023 = 2 ∧ chunks 1024 = 3 ∧ chunks 32767 = 3 ∧
  chunks 32768 = 4 ∧ chunks 1048575 = 4 ∧ chunks 1048576 = 5

/-! ## ENC -/

/-- R79 (with the outcomes the spec derives from it in R88): ENC on a ready machine completes, in one of three ways
by the lengths, and writes exactly the symbols of the groups it consumed. -/
def Obligations.EncOutcomeByLengths : Prop :=
  ∀ (s : State) (final : Bool), Ready s →
    ∃ t, exec (.enc final) s = .next t ∧ t.value = s.value ∧
      let n := s.srcLen.toInt.toNat
      let m := s.dstLen.toInt.toNat
      let g := n / 3
      let e := if n % 3 = 0 then 0 else if n % 3 = 1 then 2 else 3
      let k := min g (m / 4)
      (final = true → 4 * g + e ≤ m → Completes s t (4 * g + e : Nat) n (4 * g + e) (encodeBytes s.srcBytes)) ∧
      (final = false → 4 * g ≤ m →
        Completes s t (4 * g : Nat) (3 * g) (4 * g) (encodeBytes (s.srcBytes.take (3 * g)))) ∧
      (m < 4 * g + (if final then e else 0) →
        Completes s t (-1) (3 * k) (4 * k) (encodeBytes (s.srcBytes.take (3 * k))))

/-- R89 (which the spec marks as derived), for two pieces: an ENC over a prefix, then an `enc.f` over the rolled-back
bytes and the rest, leave the memory, the cursors and the total count that one `enc.f` leaves. -/
def Obligations.EncSplitInvariance : Prop :=
  ∀ (s : State) (k : Nat), Ready s → k ≤ s.srcLen.toInt.toNat →
    encodedLength s.srcLen.toInt false ≤ s.dstLen.toInt →
    ∃ t a b, exec (.enc true) s = .next t ∧ exec (.enc false) { s with srcLen := BitVec.ofNat 32 k } = .next a ∧
      exec (.enc true) { a with srcLen := a.srcLen + BitVec.ofNat 32 (s.srcLen.toInt.toNat - k) } = .next b ∧
      b.srcPtr = t.srcPtr ∧ b.srcLen = t.srcLen ∧ b.dstPtr = t.dstPtr ∧ b.dstLen = t.dstLen ∧
      a.result.toInt + b.result.toInt = t.result.toInt ∧ ∀ x, b.mem.read x = t.mem.read x

/-! ## DEC -/

/-- R91 (with the outcomes the spec derives from it in R101): DEC on a ready machine whose source holds only symbols
and whitespace completes, in one of four ways by the number of codes, and writes exactly the bytes of the groups it
committed. -/
def Obligations.DecOutcomeOnText : Prop :=
  ∀ (s : State) (final : Bool), Ready s → s.srcBytes.all isText = true →
    ∃ t, exec (.dec final) s = .next t ∧ t.value = s.value ∧
      let text := s.srcBytes
      let cs := sourceCodes text
      let n := cs.length
      let m := s.dstLen.toInt.toNat
      let g := n / 4
      let q := n % 4
      let u := if q = 2 then 1 else if q = 3 then 2 else 0
      let k := min g (m / 3)
      (final = true → q ≠ 1 → 3 * g + u ≤ m → Completes s t (3 * g + u : Nat) text.length (3 * g + u) (decodeCodes cs)) ∧
      (final = true → q = 1 → 3 * g ≤ m →
        Completes s t (-2) (afterCodes n text - 1) (3 * g) (decodeCodes (cs.take (4 * g)))) ∧
      (final = false → 3 * g ≤ m →
        Completes s t (3 * g : Nat) (if q = 0 then text.length else afterCodes (4 * g) text) (3 * g)
          (decodeCodes (cs.take (4 * g)))) ∧
      (m < 3 * g + (if final then u else 0) →
        Completes s t (-1) (afterCodes (4 * k) text) (3 * k) (decodeCodes (cs.take (4 * k))))

/-- R94, R139: DEC on a source with an invalid byte stops there with INVALID_SOURCE_DATA, the source cursor at that
byte, the complete groups before it written; or earlier, with NOT_ENOUGH_ROOM, where one of those groups does not
fit. -/
def Obligations.DecStopsAtInvalidByte : Prop :=
  ∀ (s : State) (final : Bool) (before after : List Byte) (b : Byte), Ready s →
    s.srcBytes = before ++ b :: after → before.all isText = true → isText b = false →
    ∃ t, exec (.dec final) s = .next t ∧ t.value = s.value ∧
      let cs := sourceCodes before
      let g := cs.length / 4
      let m := s.dstLen.toInt.toNat
      (3 * g ≤ m → Completes s t (-2) before.length (3 * g) (decodeCodes (cs.take (4 * g)))) ∧
      (m < 3 * g →
        Completes s t (-1) (afterCodes (4 * (m / 3)) before) (3 * (m / 3)) (decodeCodes (cs.take (4 * (m / 3)))))

/-- R102 (which the spec marks as derived): two ready machines whose sources differ only in whitespace complete DEC
with the same status, the same count and the same bytes at the same destination. -/
def Obligations.WhitespaceIsTransparent : Prop :=
  ∀ (s t : State) (final : Bool), Ready s → Ready t → s.cfg = t.cfg → s.dstPtr = t.dstPtr → s.dstLen = t.dstLen →
    (s.srcBytes.filter fun b => !isSpace b) = (t.srcBytes.filter fun b => !isSpace b) →
    ∃ s' t', exec (.dec final) s = .next s' ∧ exec (.dec final) t = .next t' ∧ s'.result = t'.result ∧
      s'.dstPtr = t'.dstPtr ∧ s'.dstLen = t'.dstLen ∧
      ∀ k, k < (s.dstLen - s'.dstLen).toNat → s'.mem.read (s.dstPtr.toNat + k) = t'.mem.read (t.dstPtr.toNat + k)

/-- R104 (which the spec marks as derived), for two pieces of a text that decodes: a DEC over a prefix, then a
`dec.f` over the rolled-back units and the rest, leave the memory, the cursors and the total count that one `dec.f`
leaves. -/
def Obligations.DecSplitInvariance : Prop :=
  ∀ (s : State) (k : Nat), Ready s → k ≤ s.srcLen.toInt.toNat → s.srcBytes.all isText = true →
    (sourceCodes s.srcBytes).length % 4 ≠ 1 → decodedLength (sourceCodes s.srcBytes).length ≤ s.dstLen.toInt →
    ∃ t a b, exec (.dec true) s = .next t ∧ exec (.dec false) { s with srcLen := BitVec.ofNat 32 k } = .next a ∧
      exec (.dec true) { a with srcLen := a.srcLen + BitVec.ofNat 32 (s.srcLen.toInt.toNat - k) } = .next b ∧
      b.srcPtr = t.srcPtr ∧ b.srcLen = t.srcLen ∧ b.dstPtr = t.dstPtr ∧ b.dstLen = t.dstLen ∧
      a.result.toInt + b.result.toInt = t.result.toInt ∧ ∀ x, b.mem.read x = t.mem.read x

/-- R103, first half (which the spec marks as derived): `dec.f` of what a successful `enc.f` wrote, into any
destination with room, writes the encoder's source bytes. -/
def Obligations.DecodeOfEncode : Prop :=
  ∀ (s t : State) (p l : Word), Ready s → exec (.enc true) s = .next t → 0 ≤ t.result.toInt →
    Ready { t with srcPtr := s.dstPtr, srcLen := t.result, dstPtr := p, dstLen := l } →
    s.srcLen.toInt ≤ l.toInt →
    ∃ v, exec (.dec true) { t with srcPtr := s.dstPtr, srcLen := t.result, dstPtr := p, dstLen := l } = .next v ∧
      v.result.toInt = s.srcLen.toInt ∧ readSpan v.mem p.toNat s.srcLen.toInt.toNat = s.srcBytes

/-- R103, second half, with R63: `enc.f` of what a successful `dec.f` wrote from a text without whitespace writes the
text with the padding bits of its partial group cleared (the text itself, where they are 0). -/
def Obligations.EncodeOfDecode : Prop :=
  ∀ (s t : State) (p l : Word), Ready s → (s.srcBytes.all fun b => (codeOf b).isSome) = true →
    exec (.dec true) s = .next t → 0 ≤ t.result.toInt →
    Ready { t with srcPtr := s.dstPtr, srcLen := t.result, dstPtr := p, dstLen := l } →
    s.srcLen.toInt ≤ l.toInt →
    ∃ v, exec (.enc true) { t with srcPtr := s.dstPtr, srcLen := t.result, dstPtr := p, dstLen := l } = .next v ∧
      v.result.toInt = s.srcLen.toInt ∧
      readSpan v.mem p.toNat s.srcLen.toInt.toNat = (clearPadding (sourceCodes s.srcBytes)).map fwd

/-! ## VWR and VRD -/

/-- R107, R109: VWR on an idle machine completes. With room it writes a whole length field of least length for
`VALUE` (R64, R106); without, it reports NOT_ENOUGH_ROOM and nothing is written or moved. -/
def Obligations.VwrWritesLengthField : Prop :=
  ∀ s : State, s.Wf → s.busy = false → DstFits s →
    ∃ t cs, exec .vwr s = .next t ∧ t.value = s.value ∧ isVarint cs = true ∧ varintValue cs = s.value.toNat ∧
      (cs.length = 1 ∨ 32 ^ (cs.length - 1) ≤ s.value.toNat) ∧
      ((cs.length : Int) ≤ s.dstLen.toInt → Completes s t cs.length 0 cs.length (cs.map fwd)) ∧
      (s.dstLen.toInt < cs.length → Completes s t (-1) 0 0 [])

/-- R112, R114, R118: VRD on an idle machine whose source begins with a whole length field whose value fits 64 bits
completes with the value in `VALUE` and the number of units consumed in `RESULT`, whatever follows the field and
whether or not it is minimal. -/
def Obligations.VrdReadsLengthField : Prop :=
  ∀ (s : State) (cs : List Code) (rest : List Byte), s.Wf → s.busy = false → SrcFits s →
    s.srcBytes = cs.map fwd ++ rest → isVarint cs = true → varintValue cs < 2 ^ 64 →
    ∃ t, exec .vrd s = .next t ∧ t.value.toNat = varintValue cs ∧ Completes s t cs.length cs.length 0 []

/-- R116: VRD on a source that ends inside the field reports UNTERMINATED_LENGTH_FIELD; the cursor and `VALUE` do not
change. The chunks' value fits 64 bits, or the read goes on where it does not (WRAP, R117). -/
def Obligations.VrdUnterminatedField : Prop :=
  ∀ (s : State) (cs : List Code), s.Wf → s.busy = false → SrcFits s →
    s.srcBytes = cs.map fwd → allContinue cs = true →
    varintValue cs < 2 ^ 64 ∨ s.cfg.varintOverflow = .wrap →
    ∃ t, exec .vrd s = .next t ∧ t.value = s.value ∧ Completes s t (-3) 0 0 []

/-- R115: VRD that meets a whitespace or invalid byte inside the field reports INVALID_SOURCE_DATA with the source
cursor at that byte; `VALUE` does not change. The chunks' value fits 64 bits, or the read goes on where it does not (WRAP, R117). -/
def Obligations.VrdStopsAtNonCode : Prop :=
  ∀ (s : State) (cs : List Code) (b : Byte) (rest : List Byte), s.Wf → s.busy = false → SrcFits s →
    s.srcBytes = cs.map fwd ++ b :: rest → allContinue cs = true → codeOf b = none →
    varintValue cs < 2 ^ 64 ∨ s.cfg.varintOverflow = .wrap →
    ∃ t, exec .vrd s = .next t ∧ t.value = s.value ∧ Completes s t (-2) cs.length 0 []

/-- R117: a chunk that arrives when the value already has a 1 in its five top bits. Under FAULT the model faults;
under ERROR the command ends with INVALID_SOURCE_DATA at that chunk; under WRAP the high bits drop and the read goes
on to the end of the field. A field of at most 12 chunks, or of 13 whose first piece is at most 15, never needs it. -/
def Obligations.VrdOverflowFollowsParameter : Prop :=
  (∀ s : State, s.Wf → s.busy = false → SrcFits s →
    (∀ (cs : List Code) (c : Code) (rest : List Byte), s.srcBytes = cs.map fwd ++ fwd c :: rest →
      allContinue cs = true → varintValue cs < 2 ^ 64 → 2 ^ 59 ≤ varintValue cs →
      (s.cfg.varintOverflow = .fault → exec .vrd s = .fault .varintOverflow) ∧
      (s.cfg.varintOverflow = .error →
        ∃ t, exec .vrd s = .next t ∧ t.value = s.value ∧ Completes s t (-2) cs.length 0 [])) ∧
    (∀ (cs : List Code) (rest : List Byte), s.srcBytes = cs.map fwd ++ rest → isVarint cs = true →
      s.cfg.varintOverflow = .wrap →
      ∃ t, exec .vrd s = .next t ∧ t.value.toNat = varintValue cs % 2 ^ 64 ∧ Completes s t cs.length cs.length 0 [])) ∧
  ∀ (c : Code) (cs : List Code), (cs.length + 1 ≤ 12 ∨ cs.length + 1 = 13 ∧ c.toNat % 32 ≤ 15) →
    varintValue (c :: cs) < 2 ^ 64

/-- R120 (which the spec marks as derived): VRD of what a successful VWR wrote, with any units after it, gives
`VALUE` and the chunk count back. -/
def Obligations.VarintRoundTrip : Prop :=
  ∀ (s t : State) (l : Word), s.Wf → s.busy = false → DstFits s → exec .vwr s = .next t → 0 ≤ t.result.toInt →
    t.result.toInt ≤ l.toInt → SrcFits { t with srcPtr := s.dstPtr, srcLen := l, value := 0 } →
    ∃ u, exec .vrd { t with srcPtr := s.dstPtr, srcLen := l, value := 0 } = .next u ∧ u.value = s.value ∧
      u.result = t.result

/-! ## What every command leaves, and what it may not touch -/

/-- R80, R92, R108, R113: a negative length among those the command reads. `RESULT` is -5 and no other register and
no byte of memory changes. -/
def Obligations.NegativeLengthOnlySetsResult : Prop :=
  ∀ s : State, s.busy = false →
    (s.srcLen.toInt < 0 ∨ s.dstLen.toInt < 0 → ∀ final,
      exec (.enc final) s = .next { s with result := BitVec.ofInt 32 (-5), engine := Engine.start } ∧
      exec (.dec final) s = .next { s with result := BitVec.ofInt 32 (-5), engine := Engine.start }) ∧
    (s.dstLen.toInt < 0 → exec .vwr s = .next { s with result := BitVec.ofInt 32 (-5), engine := Engine.start }) ∧
    (s.srcLen.toInt < 0 → exec .vrd s = .next { s with result := BitVec.ofInt 32 (-5), engine := Engine.start })

/-- R41: a command with no negative length, one of whose spans runs past the top address, is refused (which spans a
command has: log 2). -/
def Obligations.SpanPastTheTopIsRefused : Prop :=
  ∀ s : State, s.busy = false →
    (∀ final, 0 ≤ s.srcLen.toInt → 0 ≤ s.dstLen.toInt →
      (2 ^ s.cfg.addrW < s.srcPtr.toNat + s.srcLen.toInt.toNat ∨ 2 ^ s.cfg.addrW < s.dstPtr.toNat + s.dstLen.toInt.toNat) →
      exec (.enc final) s = .refused .spanOutsideMemory ∧ exec (.dec final) s = .refused .spanOutsideMemory) ∧
    (0 ≤ s.dstLen.toInt → 2 ^ s.cfg.addrW < s.dstPtr.toNat + s.dstLen.toInt.toNat →
      exec .vwr s = .refused .spanOutsideMemory) ∧
    (0 ≤ s.srcLen.toInt → 2 ^ s.cfg.addrW < s.srcPtr.toNat + s.srcLen.toInt.toNat →
      exec .vrd s = .refused .spanOutsideMemory)

/-- R42: ENC and DEC with spans that lie inside the memory space and share an address are refused; VWR and VRD have
one span each and are never refused for an overlap. -/
def Obligations.OverlappingSpansAreRefused : Prop :=
  (∀ (s : State) (final : Bool) (a : Nat), s.busy = false → SrcFits s → DstFits s →
    s.srcPtr.toNat ≤ a → a < s.srcPtr.toNat + s.srcLen.toInt.toNat →
    s.dstPtr.toNat ≤ a → a < s.dstPtr.toNat + s.dstLen.toInt.toNat →
    exec (.enc final) s = .refused .spansOverlap ∧ exec (.dec final) s = .refused .spansOverlap) ∧
  ∀ s : State, exec .vwr s ≠ .refused .spansOverlap ∧ exec .vrd s ≠ .refused .spansOverlap

/-- R57, R38: the frame of ENC and DEC. Only `SRC_PTR`, `SRC_LEN`, `DST_PTR`, `DST_LEN` and `RESULT` may change among
the registers, and memory changes only at the `dst_out` bytes from the destination cursor on. -/
def Obligations.EncDecFrame : Prop :=
  ∀ (s t : State) (final : Bool), s.mem.wf = true →
    exec (.enc final) s = .next t ∨ exec (.dec final) s = .next t →
    t.cfg = s.cfg ∧ t.cmd = s.cmd ∧ t.busy = s.busy ∧ t.value = s.value ∧ t.schedule = s.schedule ∧
      t.observed = s.observed ∧ t.draws = s.draws ∧
      ∀ a, a < s.dstPtr.toNat ∨ s.dstPtr.toNat + (s.dstLen - t.dstLen).toNat ≤ a → t.mem.read a = s.mem.read a

/-- R57, R38: the frame of VWR. The source cursor is not touched (R107). -/
def Obligations.VwrFrame : Prop :=
  ∀ s t : State, s.Wf → exec .vwr s = .next t →
    t.cfg = s.cfg ∧ t.cmd = s.cmd ∧ t.busy = s.busy ∧ t.srcPtr = s.srcPtr ∧ t.srcLen = s.srcLen ∧ t.value = s.value ∧
      t.schedule = s.schedule ∧ t.observed = s.observed ∧ t.draws = s.draws ∧
      ∀ a, a < s.dstPtr.toNat ∨ s.dstPtr.toNat + (s.dstLen - t.dstLen).toNat ≤ a → t.mem.read a = s.mem.read a

/-- R57, R38: the frame of VRD. The destination cursor is not touched (R112) and no memory is written. -/
def Obligations.VrdFrame : Prop :=
  ∀ s t : State, s.Wf → exec .vrd s = .next t →
    t.cfg = s.cfg ∧ t.cmd = s.cmd ∧ t.busy = s.busy ∧ t.dstPtr = s.dstPtr ∧ t.dstLen = s.dstLen ∧ t.mem = s.mem ∧
      t.schedule = s.schedule ∧ t.observed = s.observed ∧ t.draws = s.draws ∧
      (t.result.toInt < 0 → t.value = s.value)

/-- R135 (which the spec marks as derived): the statuses each command can report. -/
def Obligations.StatusesOfEachCommand : Prop :=
  ∀ s t : State,
    (∀ final, exec (.enc final) s = .next t → 0 ≤ t.result.toInt ∨ t.result.toInt = -1 ∨ t.result.toInt = -5) ∧
    (∀ final, exec (.dec final) s = .next t →
      0 ≤ t.result.toInt ∨ t.result.toInt = -1 ∨ t.result.toInt = -2 ∨ t.result.toInt = -5) ∧
    (exec .vwr s = .next t → 0 ≤ t.result.toInt ∨ t.result.toInt = -1 ∨ t.result.toInt = -5) ∧
    (exec .vrd s = .next t →
      0 ≤ t.result.toInt ∨ t.result.toInt = -2 ∨ t.result.toInt = -3 ∨ t.result.toInt = -5)

/-- R26, R37: a command's outcome depends only on the command, the operand registers and the bytes of its source
span. Two idle machines that agree on those complete alike and write the same bytes. -/
def Obligations.OperandsDetermineOutcome : Prop :=
  ∀ (i : Instr) (s t s' : State), s.busy = false → t.busy = false → s.mem.wf = true → t.mem.wf = true →
    s.cfg = t.cfg → s.srcPtr = t.srcPtr → s.srcLen = t.srcLen → s.dstPtr = t.dstPtr → s.dstLen = t.dstLen →
    s.value = t.value → (i ≠ .vwr → s.srcBytes = t.srcBytes) → exec i s = .next s' →
    ∃ t', exec i t = .next t' ∧ t'.result = s'.result ∧ t'.srcPtr = s'.srcPtr ∧ t'.srcLen = s'.srcLen ∧
      t'.dstPtr = s'.dstPtr ∧ t'.dstLen = s'.dstLen ∧ t'.value = s'.value ∧ t'.busy = s'.busy ∧
      ∀ k, k < (s.dstLen - s'.dstLen).toNat → t'.mem.read (s.dstPtr.toNat + k) = s'.mem.read (s.dstPtr.toNat + k)

/-! ## The machine over its steps -/

/-- R8, R18, R31, R41, R42, R25: every step, whatever turn it takes, keeps the machine's invariant. -/
def Obligations.StepKeepsWf : Prop := ∀ s t : State, s.Wf → step s = .next t → t.Wf

/-- The invariant holds right after reset (R147). -/
def Obligations.ResetIsWf : Prop := State.reset.Wf

/-- R155: taking a command as one atomic step, or as one step per source unit, ends in the same outcome, for every
word and every idle machine with nothing else scheduled. -/
def Obligations.StepwiseEqualsAtomic : Prop :=
  ∀ (s : State) (w : Word), s.busy = false → s.schedule = [] →
    Host.Core.run Sys2Proof.core (s.srcCount + 2) { s with schedule := [.startHeld w] } =
      Host.Core.run Sys2Proof.core (s.srcCount + 2) { s with schedule := [.regWrite Reg.cmd.access w] }

/-- R155: every running command completes, within one step per source unit and one more; or it is a VRD under
`VARINT_OVERFLOW` = FAULT and the model faults on the value's width (R117). -/
def Obligations.RunningCommandCompletes : Prop :=
  ∀ s : State, s.Wf → s.busy = true → s.schedule = [] →
    (∃ t, Host.Core.run Sys2Proof.core (s.srcCount + 1) s = .next t ∧ t.busy = false) ∨
    (decode s.cmd = .instr .vrd ∧ s.cfg.varintOverflow = .fault ∧
      Host.Core.run Sys2Proof.core (s.srcCount + 1) s = .fault .varintOverflow)

/-- R21: in one step `BUSY` rises only by a `CMD` write whose command is still running after it, and falls only by a
move of the engine or by reset. -/
def Obligations.BusyChangesOnlyByCommandsAndReset : Prop :=
  ∀ s t : State, step s = .next t →
    (s.busy = false → t.busy = true → ∃ w rest, s.schedule = .startHeld w :: rest) ∧
    (s.busy = true → t.busy = false →
      s.schedule = [] ∨ ∃ rest, s.schedule = .engine :: rest ∨ s.schedule = .wait :: rest ∨ s.schedule = .reset :: rest)

/-- R27: in a machine that meets the invariant, the shift that gathers the next byte or code drops no 1 bit of
`ACC`. -/
def Obligations.AccumulatorDropsNoBit : Prop :=
  ∀ (s : State) (final : Bool), s.Wf → s.busy = true →
    (decode s.cmd = .instr (.enc final) → ∀ b : Byte,
      (shiftByte s.engine.acc b).toNat = s.engine.acc.toNat * 256 + b.toNat) ∧
    (decode s.cmd = .instr (.dec final) → ∀ c : Code,
      (shiftCode s.engine.acc c).toNat = s.engine.acc.toNat * 64 + c.toNat)

/-! ## Reset -/

/-- R147: reset, at any time, leaves every register 0, `BUSY` among them, and the transient state at its start. Memory
does not change, but for the destination span of a command it abandons (R148). The block is then idle and waits. -/
def Obligations.ResetClearsEveryRegister : Prop :=
  ∀ s : State, s.mem.wf = true →
    ∃ t, takeTurn .reset s = .next t ∧ (∀ r, t.readReg r = 0) ∧ t.busy = false ∧ t.engine = Engine.start ∧ t.cfg = s.cfg ∧
      (s.busy = false → t.mem = s.mem) ∧ (t.schedule = [] → step t = .next t) ∧
      ∀ a, a < s.dstPtr.toNat ∨ s.dstPtr.toNat + s.dstLen.toInt.toNat ≤ a → t.mem.read a = s.mem.read a

/-- Reset during a command, after R148: each byte of its destination span holds an unspecified value, and its source
span is not written. Two clauses are the model's choice: which draw stands for each byte's free value (log 4), and that
a reset that abandons a VRD, which has no destination span, keeps all of memory (log 10). -/
def Obligations.ResetDuringCommand : Prop :=
  ∀ (s : State) (i : Instr), s.Wf → s.busy = true → decode s.cmd = .instr i →
    ∃ t, takeTurn .reset s = .next t ∧ (∀ r, t.readReg r = 0) ∧
      (i ≠ .vrd → ∀ k, k < s.dstLen.toInt.toNat →
        t.mem.read (s.dstPtr.toNat + k) = Config.drawByte (s.draws + k)) ∧
      (i = .vrd → t.mem = s.mem) ∧
      (i ≠ .vwr → ∀ k, k < s.srcLen.toInt.toNat → t.mem.read (s.srcPtr.toNat + k) = s.mem.read (s.srcPtr.toNat + k))

/-! ## The register port -/

/-- R14, R67: the offsets of the nine registers in the window, and the register each selects. -/
def Obligations.RegisterOffsets : Prop :=
  (Reg.cmd.offset = 0x00 ∧ Reg.status.offset = 0x04 ∧ Reg.result.offset = 0x08 ∧ Reg.srcPtr.offset = 0x0C ∧
    Reg.srcLen.offset = 0x10 ∧ Reg.dstPtr.offset = 0x14 ∧ Reg.dstLen.offset = 0x18 ∧ Reg.valueLo.offset = 0x1C ∧
    Reg.valueHi.offset = 0x20) ∧
  ∀ r : Reg, regAt r.offset = some r

/-- R14, R18, R19, R20: while the block is idle a read returns the register, `STATUS` reads 0, and nothing else
changes. -/
def Obligations.IdleReadReturnsRegister : Prop :=
  ∀ (s : State) (r : Reg), s.busy = false →
    takeTurn (.regRead r.access) s = .next { s with
      observed := .reg r.offset (match r with
        | .cmd => s.cmd
        | .status => 0
        | .result => s.result
        | .srcPtr => s.srcPtr
        | .srcLen => s.srcLen
        | .dstPtr => s.dstPtr
        | .dstLen => s.dstLen
        | .valueLo => BitVec.ofNat 32 s.value.toNat
        | .valueHi => BitVec.ofNat 32 (s.value.toNat / 2 ^ 32)) :: s.observed }

/-- R14, R18, R20: while the block is idle a write of a read/write register other than `CMD` is read back, a pointer
truncated to `ADDR_W` bits, and no other register and no memory changes. -/
def Obligations.RegisterWriteReadsBack : Prop :=
  ∀ (s : State) (r : Reg) (w : Word), s.busy = false → r ≠ .cmd → r ≠ .status → r ≠ .result →
    ∃ t, takeTurn (.regWrite r.access w) s = .next t ∧
      t.readReg r = (if r = .srcPtr ∨ r = .dstPtr then BitVec.ofNat 32 (w.toNat % 2 ^ s.cfg.addrW) else w) ∧
      (∀ r', r' ≠ r → t.readReg r' = s.readReg r') ∧ t.mem = s.mem ∧ t.engine = s.engine ∧ t.cfg = s.cfg ∧
      t.busy = s.busy ∧ t.schedule = s.schedule ∧ t.observed = s.observed ∧ t.draws = s.draws

/-- R17: a host write to `STATUS` or `RESULT` while `BUSY` = 0 has no effect. -/
def Obligations.StatusAndResultIgnoreWrites : Prop :=
  ∀ (s : State) (w : Word), s.busy = false →
    takeTurn (.regWrite { width := 32, offset := 0x04 } w) s = .next s ∧
    takeTurn (.regWrite { width := 32, offset := 0x08 } w) s = .next s

/-- R15: every reserved offset of the window reads 0 and a write to it has no effect (at any time: log 7). -/
def Obligations.ReservedOffsetsReadZero : Prop :=
  ∀ (s : State) (offset : BitVec 8) (w : Word), 0x24 ≤ offset.toNat → offset.toNat % 4 = 0 →
    takeTurn (.regWrite { width := 32, offset := offset } w) s = .next s ∧
    takeTurn (.regRead { width := 32, offset := offset }) s = .next { s with observed := .reg offset 0 :: s.observed }

/-- R16: a register access that is not an aligned 32-bit word is refused. -/
def Obligations.UnalignedAccessIsRefused : Prop :=
  ∀ (s : State) (a : PortAccess) (w : Word), a.width ≠ 32 ∨ a.offset.toNat % 4 ≠ 0 →
    takeTurn (.regWrite a w) s = .refused .portAccess ∧ takeTurn (.regRead a) s = .refused .portAccess

/-- R151: while `BUSY` = 1 a write of any register, `CMD` included, is refused, so no second command can start and
no operand can change. -/
def Obligations.RegisterWriteWhileBusyIsRefused : Prop :=
  ∀ (s : State) (r : Reg) (w : Word), s.busy = true →
    takeTurn (.regWrite r.access w) s = .refused .registerWriteWhileBusy ∧
    takeTurn (.startHeld w) s = .refused .registerWriteWhileBusy

/-- The model's choice (log 11), from R138 and R151: no command begins while another runs. -/
def Obligations.ExecWhileBusyIsRefused : Prop :=
  ∀ (s : State) (i : Instr), s.busy = true → exec i s = .refused .registerWriteWhileBusy

/-- R152: while `BUSY` = 1 `STATUS` reads 1, and a read of any other register returns a value that nothing here
constrains and has no effect. -/
def Obligations.ReadsWhileBusy : Prop :=
  ∀ (s : State) (r : Reg), s.busy = true →
    takeTurn (.regRead Reg.status.access) s = .next { s with observed := .reg 0x04 1 :: s.observed } ∧
    (r ≠ .status → ∃ v, takeTurn (.regRead r.access) s =
      .next { s with observed := .reg r.offset v :: s.observed, draws := s.draws + 1 })

/-! ## The memory, as the host sees it -/

/-- R43: plain memory. A byte written by the host reads back, every other byte as before, reads change nothing but
the observation. -/
def Obligations.HostMemoryReadsBack : Prop :=
  ∀ (s : State) (a c : Nat) (b : Byte), s.mem.wf = true → s.busy = false → a < 2 ^ s.cfg.addrW → c < 2 ^ s.cfg.addrW →
    ∃ t, takeTurn (.memWrite a b) s = .next t ∧ t.mem.wf = true ∧ (∀ r, t.readReg r = s.readReg r) ∧
      takeTurn (.memRead c) t =
        .next { t with observed := .mem c (if c = a then b else s.mem.read c) :: t.observed }

/-- R47: while a command runs, a host write to its source span or destination span and a host read of its destination
span are refused; any other access of the memory space is made. -/
def Obligations.SpanAccessWhileBusyIsRefused : Prop :=
  ∀ (s : State) (i : Instr) (a : Nat) (b : Byte), s.busy = true → decode s.cmd = .instr i → a < 2 ^ s.cfg.addrW →
    let inSrc := i ≠ .vwr ∧ s.srcPtr.toNat ≤ a ∧ a < s.srcPtr.toNat + s.srcLen.toInt.toNat
    let inDst := i ≠ .vrd ∧ s.dstPtr.toNat ≤ a ∧ a < s.dstPtr.toNat + s.dstLen.toInt.toNat
    (inSrc ∨ inDst → takeTurn (.memWrite a b) s = .refused .spanAccessWhileBusy) ∧
    (¬ inSrc → ¬ inDst → takeTurn (.memWrite a b) s = .next { s with mem := s.mem.write a b }) ∧
    (inDst → takeTurn (.memRead a) s = .refused .spanAccessWhileBusy) ∧
    (¬ inDst → takeTurn (.memRead a) s = .next { s with observed := .mem a (s.mem.read a) :: s.observed })

/-- The model's choice (log 9), from R31: a host access at an address outside the memory space faults. -/
def Obligations.AddressOutsideSpaceFaults : Prop :=
  ∀ (s : State) (a : Nat) (b : Byte), 2 ^ s.cfg.addrW ≤ a →
    takeTurn (.memWrite a b) s = .fault .noSuchAddress ∧ takeTurn (.memRead a) s = .fault .noSuchAddress

/-! ## The host's side -/

/-- R129 (which the spec marks as derived): the length helpers are inverse on the lengths that can occur (R127, R128);
and the last sentences of R88 and R101: on a ready machine `enc.f` succeeds exactly where `encodedLength` fits the
destination, `dec.f` of a text whose codes are not 1 mod 4 exactly where `decodedLength` does, and the count is that
length. -/
def Obligations.LengthHelpersAgree : Prop :=
  (∀ n : Int, 0 ≤ n → decodedLength (encodedLength n false) = n) ∧
  (∀ e : Int, 0 ≤ e → e % 4 ≠ 1 → encodedLength (decodedLength e) false = e) ∧
  (∀ n : Int, n < 0 → ∀ withLength, encodedLength n withLength = -5 ∧ decodedLength n = -5) ∧
  (∀ n : Nat, encodedLength n false = (4 * (n / 3) + (if n % 3 = 0 then 0 else if n % 3 = 1 then 2 else 3) : Nat)) ∧
  (∀ s : State, Ready s → ∃ t, exec (.enc true) s = .next t ∧
    (0 ≤ t.result.toInt ↔ encodedLength s.srcLen.toInt false ≤ s.dstLen.toInt) ∧
    (0 ≤ t.result.toInt → t.result.toInt = encodedLength s.srcLen.toInt false)) ∧
  ∀ s : State, Ready s → s.srcBytes.all isText = true → (sourceCodes s.srcBytes).length % 4 ≠ 1 →
    ∃ t, exec (.dec true) s = .next t ∧
      (0 ≤ t.result.toInt ↔ decodedLength (sourceCodes s.srcBytes).length ≤ s.dstLen.toInt) ∧
      (0 ≤ t.result.toInt → t.result.toInt = decodedLength (sourceCodes s.srcBytes).length)

/-- R133 (which the spec marks as derived): the length-prefixed round trip. `encode_l` of B returns the helper's
length, and `decode_l` of its whole output, with room for B, writes B and returns its length. -/
def Obligations.LengthPrefixedRoundTrip : Prop :=
  ∀ (s : State) (sp dp rp : Word) (sn dn rn : Nat), s.Wf → s.busy = false →
    sn < 2 ^ 31 → dn < 2 ^ 31 → rn < 2 ^ 31 →
    sp.toNat < 2 ^ s.cfg.addrW → dp.toNat < 2 ^ s.cfg.addrW → rp.toNat < 2 ^ s.cfg.addrW →
    sp.toNat + sn ≤ 2 ^ s.cfg.addrW → dp.toNat + dn ≤ 2 ^ s.cfg.addrW → rp.toNat + sn ≤ 2 ^ s.cfg.addrW →
    (sp.toNat + sn ≤ dp.toNat ∨ dp.toNat + dn ≤ sp.toNat) → (rp.toNat + sn ≤ dp.toNat ∨ dp.toNat + dn ≤ rp.toNat) →
    encodedLength sn true ≤ dn → sn ≤ rn →
    ∃ t u, encodeL sp sn dp dn s = .next (t, encodedLength sn true) ∧
      decodeL dp (encodedLength sn true) rp rn t = .next (u, (sn : Int)) ∧
      readSpan u.mem rp.toNat sn = readSpan s.mem sp.toNat sn

/-- R132: the checks of `decode_l` between the length field and the body, for every room `dn`, negative ones among them.
A source too short for the declared length gives TRUNCATED_DATA, a destination too small for it NOT_ENOUGH_ROOM; no
memory is written, and the destination cursor is not set. -/
def Obligations.DecodeLengthChecks : Prop :=
  ∀ (s : State) (sp dp : Word) (sn : Nat) (dn : Int) (cs : List Code) (rest : List Byte), s.Wf → s.busy = false →
    sn < 2 ^ 31 → sp.toNat < 2 ^ s.cfg.addrW → sp.toNat + sn ≤ 2 ^ s.cfg.addrW →
    readSpan s.mem sp.toNat sn = cs.map fwd ++ rest → isVarint cs = true → varintValue cs < 2 ^ 64 →
    ((rest.length : Int) < encodedLength (varintValue cs) false →
      ∃ t, decodeL sp sn dp dn s = .next (t, -4) ∧ t.mem = s.mem ∧ t.dstPtr = s.dstPtr ∧ t.dstLen = s.dstLen) ∧
    (encodedLength (varintValue cs) false ≤ rest.length → dn < varintValue cs →
      ∃ t, decodeL sp sn dp dn s = .next (t, -1) ∧ t.mem = s.mem ∧ t.dstPtr = s.dstPtr ∧ t.dstLen = s.dstLen)
end

