-- ==== Sys2Proof/Laws/Memory.lean ====
section
/-! SUPPORT. The laws of memory: a read after a write, the canonical form, the bounds of the space, and a run of
byte writes. -/

namespace Sys2Proof.Machine

/-- Every entry of a canonical list lies at its start or above. -/
theorem Memory.read_below_wfFrom (m : Memory) : ∀ lo x, Memory.wfFrom lo m = true → x < lo → m.read x = unlistedByte := by
  induction m with
  | nil => intro _ _ _ _; rfl
  | cons c rest ih =>
    intro lo x h hx
    obtain ⟨a, b⟩ := c
    simp only [Memory.wfFrom, Bool.and_eq_true, decide_eq_true_eq] at h
    have hne : a ≠ x := by omega
    simp only [Memory.read, if_neg hne]
    exact ih (a + 1) x h.2 (by omega)

/-- A canonical list stays canonical from a lower start. -/
theorem Memory.wfFrom_mono (m : Memory) {lo lo' : Nat} (hl : lo' ≤ lo) (h : Memory.wfFrom lo m = true) :
    Memory.wfFrom lo' m = true := by
  cases m with
  | nil => rfl
  | cons c rest =>
    simp only [Memory.wfFrom, Bool.and_eq_true, decide_eq_true_eq] at h ⊢
    exact ⟨⟨by omega, h.1.2⟩, h.2⟩

/-- A read after a write, in a canonical memory: the byte written at its address, every other address as before. -/
theorem Memory.read_write_from (m : Memory) : ∀ lo x y v, Memory.wfFrom lo m = true →
    (m.write x v).read y = if y = x then v else m.read y := by
  induction m with
  | nil => intro _ x y v _; grind [Memory.write, Memory.read]
  | cons c rest ih =>
    intro lo x y v h
    obtain ⟨a, b⟩ := c
    simp only [Memory.wfFrom, Bool.and_eq_true, decide_eq_true_eq] at h
    have below : x < a + 1 → Memory.read rest x = unlistedByte := Memory.read_below_wfFrom rest (a + 1) x h.2
    have tail := ih (a + 1) x y v h.2
    grind [Memory.write, Memory.read]

/-- A write keeps the canonical form. -/
theorem Memory.wfFrom_write (m : Memory) : ∀ lo x v, Memory.wfFrom lo m = true → lo ≤ x →
    Memory.wfFrom lo (m.write x v) = true := by
  induction m with
  | nil =>
    intro lo x v _ hx
    by_cases hv : v = unlistedByte <;> simp [Memory.write, hv, Memory.wfFrom, hx]
  | cons c rest ih =>
    intro lo x v h hx
    obtain ⟨a, b⟩ := c
    have h' := h
    simp only [Memory.wfFrom, Bool.and_eq_true, decide_eq_true_eq] at h'
    simp only [Memory.write]
    by_cases h1 : x < a
    · by_cases hv : v = unlistedByte
      · simpa [h1, hv] using h
      · simp only [h1, hv, if_true, if_false, Memory.wfFrom, Bool.and_eq_true, decide_eq_true_eq]
        exact ⟨⟨hx, hv⟩, ⟨by omega, h'.1.2⟩, h'.2⟩
    · by_cases h2 : x = a
      · subst h2
        by_cases hv : v = unlistedByte
        · simpa [hv] using Memory.wfFrom_mono rest (by omega) h'.2
        · simp only [h1, hv, if_true, if_false, Memory.wfFrom, Bool.and_eq_true, decide_eq_true_eq]
          exact ⟨⟨hx, hv⟩, h'.2⟩
      · simp only [if_neg h1, if_neg h2, Memory.wfFrom, Bool.and_eq_true, decide_eq_true_eq]
        exact ⟨h'.1, ih (a + 1) x v h'.2 (by omega)⟩

/-- A read after a write (R43). -/
theorem Memory.read_write {m : Memory} (h : m.wf = true) (x y : Nat) (v : Byte) :
    (m.write x v).read y = if y = x then v else m.read y := Memory.read_write_from m 0 x y v h

/-- A write keeps the canonical form. -/
theorem Memory.wf_write {m : Memory} (h : m.wf = true) (x : Nat) (v : Byte) : (m.write x v).wf = true :=
  Memory.wfFrom_write m 0 x v h (Nat.zero_le x)

/-- A write inside the space lists no address outside it. -/
theorem Memory.below_write {limit : Nat} : ∀ {m : Memory} (x : Nat) (v : Byte), m.below limit = true → x < limit →
    (m.write x v).below limit = true := by
  intro m
  induction m with
  | nil => intro x v _ hx; by_cases hv : v = unlistedByte <;> simp [Memory.write, hv, Memory.below, hx]
  | cons c rest ih =>
    intro x v h hx
    obtain ⟨a, b⟩ := c
    have ih' := ih x v
    simp only [Memory.below, List.all_cons, Bool.and_eq_true, decide_eq_true_eq] at h ih' ⊢
    simp only [Memory.write]
    split
    · split
      · simp [List.all_cons, h.1, h.2]
      · simp [List.all_cons, h.1, h.2, hx]
    · split
      · split
        · exact h.2
        · simp [List.all_cons, h.2, hx]
      · simp only [List.all_cons, Bool.and_eq_true, decide_eq_true_eq]
        exact ⟨h.1, ih' h.2 hx⟩

/-- A run of writes keeps the canonical form. -/
theorem Memory.wf_writeBytes (bs : List Byte) : ∀ {m : Memory} (x : Nat), m.wf = true → (m.writeBytes x bs).wf = true := by
  induction bs with
  | nil => intro m x h; exact h
  | cons b bs ih => intro m x h; exact ih (x + 1) (Memory.wf_write h x b)

/-- A run of writes inside the space lists no address outside it. -/
theorem Memory.below_writeBytes {limit : Nat} (bs : List Byte) : ∀ {m : Memory} (x : Nat), m.below limit = true →
    x + bs.length ≤ limit → (m.writeBytes x bs).below limit = true := by
  induction bs with
  | nil => intro m x h _; exact h
  | cons b bs ih =>
    intro m x h hx
    simp only [List.length_cons] at hx
    exact ih (x + 1) (Memory.below_write x b h (by omega)) (by omega)

/-- What a run of writes leaves: its bytes where it wrote, every other address as before (R38). -/
theorem Memory.read_writeBytes (bs : List Byte) : ∀ {m : Memory} (x y : Nat), m.wf = true →
    (m.writeBytes x bs).read y = if x ≤ y ∧ y < x + bs.length then bs.getD (y - x) 0 else m.read y := by
  induction bs with
  | nil => intro m x y _; simp [Memory.writeBytes]
  | cons b bs ih =>
    intro m x y h
    simp only [Memory.writeBytes, List.length_cons]
    rw [ih (x + 1) y (Memory.wf_write h x b), Memory.read_write h]
    by_cases hxy : y = x
    · subst hxy; simp
    · by_cases hin : x + 1 ≤ y ∧ y < x + 1 + bs.length
      · have : y - x = (y - (x + 1)) + 1 := by omega
        rw [if_pos hin, if_pos (by omega), this]; simp
      · rw [if_neg hin, if_neg hxy, if_neg (by omega)]

/-- Two runs of writes one after the other are one run. -/
theorem Memory.writeBytes_append (bs cs : List Byte) : ∀ (m : Memory) (x : Nat),
    (m.writeBytes x bs).writeBytes (x + bs.length) cs = m.writeBytes x (bs ++ cs) := by
  induction bs with
  | nil => intro m x; simp [Memory.writeBytes]
  | cons b bs ih =>
    intro m x
    simp only [Memory.writeBytes, List.length_cons, List.cons_append]
    rw [← ih, Nat.add_right_comm x 1, Nat.add_assoc]

end Sys2Proof.Machine
end

