-- ==== Sys2Proof/Laws/State.lean ====
section
/-! SUPPORT. One lemma per field for every named update of the state: each is true by unfolding the update once, and
no later proof unfolds it again. -/

namespace Sys2Proof.Machine

section
variable (s : State)

-- setBusy
@[simp] theorem State.setBusy_cfg : (s.setBusy).cfg = s.cfg := rfl
@[simp] theorem State.setBusy_cmd : (s.setBusy).cmd = s.cmd := rfl
@[simp] theorem State.setBusy_busy : (s.setBusy).busy = true := rfl
@[simp] theorem State.setBusy_result : (s.setBusy).result = s.result := rfl
@[simp] theorem State.setBusy_srcPtr : (s.setBusy).srcPtr = s.srcPtr := rfl
@[simp] theorem State.setBusy_srcLen : (s.setBusy).srcLen = s.srcLen := rfl
@[simp] theorem State.setBusy_dstPtr : (s.setBusy).dstPtr = s.dstPtr := rfl
@[simp] theorem State.setBusy_dstLen : (s.setBusy).dstLen = s.dstLen := rfl
@[simp] theorem State.setBusy_value : (s.setBusy).value = s.value := rfl
@[simp] theorem State.setBusy_engine : (s.setBusy).engine = s.engine := rfl
@[simp] theorem State.setBusy_mem : (s.setBusy).mem = s.mem := rfl
@[simp] theorem State.setBusy_schedule : (s.setBusy).schedule = s.schedule := rfl
@[simp] theorem State.setBusy_observed : (s.setBusy).observed = s.observed := rfl
@[simp] theorem State.setBusy_draws : (s.setBusy).draws = s.draws := rfl

-- clearBusy
@[simp] theorem State.clearBusy_cfg : (s.clearBusy).cfg = s.cfg := rfl
@[simp] theorem State.clearBusy_cmd : (s.clearBusy).cmd = s.cmd := rfl
@[simp] theorem State.clearBusy_busy : (s.clearBusy).busy = false := rfl
@[simp] theorem State.clearBusy_result : (s.clearBusy).result = s.result := rfl
@[simp] theorem State.clearBusy_srcPtr : (s.clearBusy).srcPtr = s.srcPtr := rfl
@[simp] theorem State.clearBusy_srcLen : (s.clearBusy).srcLen = s.srcLen := rfl
@[simp] theorem State.clearBusy_dstPtr : (s.clearBusy).dstPtr = s.dstPtr := rfl
@[simp] theorem State.clearBusy_dstLen : (s.clearBusy).dstLen = s.dstLen := rfl
@[simp] theorem State.clearBusy_value : (s.clearBusy).value = s.value := rfl
@[simp] theorem State.clearBusy_engine : (s.clearBusy).engine = s.engine := rfl
@[simp] theorem State.clearBusy_mem : (s.clearBusy).mem = s.mem := rfl
@[simp] theorem State.clearBusy_schedule : (s.clearBusy).schedule = s.schedule := rfl
@[simp] theorem State.clearBusy_observed : (s.clearBusy).observed = s.observed := rfl
@[simp] theorem State.clearBusy_draws : (s.clearBusy).draws = s.draws := rfl

-- writeBack
@[simp] theorem State.writeBack_cfg (o : Word) (so d : Nat) : (s.writeBack o so d).cfg = s.cfg := rfl
@[simp] theorem State.writeBack_cmd (o : Word) (so d : Nat) : (s.writeBack o so d).cmd = s.cmd := rfl
@[simp] theorem State.writeBack_busy (o : Word) (so d : Nat) : (s.writeBack o so d).busy = s.busy := rfl
@[simp] theorem State.writeBack_result (o : Word) (so d : Nat) : (s.writeBack o so d).result = o := rfl
@[simp] theorem State.writeBack_srcPtr (o : Word) (so d : Nat) : (s.writeBack o so d).srcPtr = truncAddr s.cfg (s.srcPtr + BitVec.ofNat 32 so) := rfl
@[simp] theorem State.writeBack_srcLen (o : Word) (so d : Nat) : (s.writeBack o so d).srcLen = s.srcLen - BitVec.ofNat 32 so := rfl
@[simp] theorem State.writeBack_dstPtr (o : Word) (so d : Nat) : (s.writeBack o so d).dstPtr = truncAddr s.cfg (s.dstPtr + BitVec.ofNat 32 d) := rfl
@[simp] theorem State.writeBack_dstLen (o : Word) (so d : Nat) : (s.writeBack o so d).dstLen = s.dstLen - BitVec.ofNat 32 d := rfl
@[simp] theorem State.writeBack_value (o : Word) (so d : Nat) : (s.writeBack o so d).value = s.value := rfl
@[simp] theorem State.writeBack_engine (o : Word) (so d : Nat) : (s.writeBack o so d).engine = s.engine := rfl
@[simp] theorem State.writeBack_mem (o : Word) (so d : Nat) : (s.writeBack o so d).mem = s.mem := rfl
@[simp] theorem State.writeBack_schedule (o : Word) (so d : Nat) : (s.writeBack o so d).schedule = s.schedule := rfl
@[simp] theorem State.writeBack_observed (o : Word) (so d : Nat) : (s.writeBack o so d).observed = s.observed := rfl
@[simp] theorem State.writeBack_draws (o : Word) (so d : Nat) : (s.writeBack o so d).draws = s.draws := rfl

-- complete
@[simp] theorem State.complete_cfg (c so d : Nat) : (s.complete c so d).cfg = s.cfg := rfl
@[simp] theorem State.complete_cmd (c so d : Nat) : (s.complete c so d).cmd = s.cmd := rfl
@[simp] theorem State.complete_busy (c so d : Nat) : (s.complete c so d).busy = false := rfl
@[simp] theorem State.complete_result (c so d : Nat) : (s.complete c so d).result = BitVec.ofNat 32 c := rfl
@[simp] theorem State.complete_srcPtr (c so d : Nat) : (s.complete c so d).srcPtr = truncAddr s.cfg (s.srcPtr + BitVec.ofNat 32 so) := rfl
@[simp] theorem State.complete_srcLen (c so d : Nat) : (s.complete c so d).srcLen = s.srcLen - BitVec.ofNat 32 so := rfl
@[simp] theorem State.complete_dstPtr (c so d : Nat) : (s.complete c so d).dstPtr = truncAddr s.cfg (s.dstPtr + BitVec.ofNat 32 d) := rfl
@[simp] theorem State.complete_dstLen (c so d : Nat) : (s.complete c so d).dstLen = s.dstLen - BitVec.ofNat 32 d := rfl
@[simp] theorem State.complete_value (c so d : Nat) : (s.complete c so d).value = s.value := rfl
@[simp] theorem State.complete_engine (c so d : Nat) : (s.complete c so d).engine = s.engine := rfl
@[simp] theorem State.complete_mem (c so d : Nat) : (s.complete c so d).mem = s.mem := rfl
@[simp] theorem State.complete_schedule (c so d : Nat) : (s.complete c so d).schedule = s.schedule := rfl
@[simp] theorem State.complete_observed (c so d : Nat) : (s.complete c so d).observed = s.observed := rfl
@[simp] theorem State.complete_draws (c so d : Nat) : (s.complete c so d).draws = s.draws := rfl

-- raise
@[simp] theorem State.raise_cfg (st : Status) (so d : Nat) : (s.raise st so d).cfg = s.cfg := rfl
@[simp] theorem State.raise_cmd (st : Status) (so d : Nat) : (s.raise st so d).cmd = s.cmd := rfl
@[simp] theorem State.raise_busy (st : Status) (so d : Nat) : (s.raise st so d).busy = false := rfl
@[simp] theorem State.raise_result (st : Status) (so d : Nat) : (s.raise st so d).result = st.code := rfl
@[simp] theorem State.raise_srcPtr (st : Status) (so d : Nat) : (s.raise st so d).srcPtr = truncAddr s.cfg (s.srcPtr + BitVec.ofNat 32 so) := rfl
@[simp] theorem State.raise_srcLen (st : Status) (so d : Nat) : (s.raise st so d).srcLen = s.srcLen - BitVec.ofNat 32 so := rfl
@[simp] theorem State.raise_dstPtr (st : Status) (so d : Nat) : (s.raise st so d).dstPtr = truncAddr s.cfg (s.dstPtr + BitVec.ofNat 32 d) := rfl
@[simp] theorem State.raise_dstLen (st : Status) (so d : Nat) : (s.raise st so d).dstLen = s.dstLen - BitVec.ofNat 32 d := rfl
@[simp] theorem State.raise_value (st : Status) (so d : Nat) : (s.raise st so d).value = s.value := rfl
@[simp] theorem State.raise_engine (st : Status) (so d : Nat) : (s.raise st so d).engine = s.engine := rfl
@[simp] theorem State.raise_mem (st : Status) (so d : Nat) : (s.raise st so d).mem = s.mem := rfl
@[simp] theorem State.raise_schedule (st : Status) (so d : Nat) : (s.raise st so d).schedule = s.schedule := rfl
@[simp] theorem State.raise_observed (st : Status) (so d : Nat) : (s.raise st so d).observed = s.observed := rfl
@[simp] theorem State.raise_draws (st : Status) (so d : Nat) : (s.raise st so d).draws = s.draws := rfl

-- reject
@[simp] theorem State.reject_cfg (st : Status) : (s.reject st).cfg = s.cfg := rfl
@[simp] theorem State.reject_cmd (st : Status) : (s.reject st).cmd = s.cmd := rfl
@[simp] theorem State.reject_busy (st : Status) : (s.reject st).busy = false := rfl
@[simp] theorem State.reject_result (st : Status) : (s.reject st).result = st.code := rfl
@[simp] theorem State.reject_srcPtr (st : Status) : (s.reject st).srcPtr = s.srcPtr := rfl
@[simp] theorem State.reject_srcLen (st : Status) : (s.reject st).srcLen = s.srcLen := rfl
@[simp] theorem State.reject_dstPtr (st : Status) : (s.reject st).dstPtr = s.dstPtr := rfl
@[simp] theorem State.reject_dstLen (st : Status) : (s.reject st).dstLen = s.dstLen := rfl
@[simp] theorem State.reject_value (st : Status) : (s.reject st).value = s.value := rfl
@[simp] theorem State.reject_engine (st : Status) : (s.reject st).engine = s.engine := rfl
@[simp] theorem State.reject_mem (st : Status) : (s.reject st).mem = s.mem := rfl
@[simp] theorem State.reject_schedule (st : Status) : (s.reject st).schedule = s.schedule := rfl
@[simp] theorem State.reject_observed (st : Status) : (s.reject st).observed = s.observed := rfl
@[simp] theorem State.reject_draws (st : Status) : (s.reject st).draws = s.draws := rfl

-- start
@[simp] theorem State.start_cfg : (s.start).cfg = s.cfg := rfl
@[simp] theorem State.start_cmd : (s.start).cmd = s.cmd := rfl
@[simp] theorem State.start_busy : (s.start).busy = true := rfl
@[simp] theorem State.start_result : (s.start).result = s.result := rfl
@[simp] theorem State.start_srcPtr : (s.start).srcPtr = s.srcPtr := rfl
@[simp] theorem State.start_srcLen : (s.start).srcLen = s.srcLen := rfl
@[simp] theorem State.start_dstPtr : (s.start).dstPtr = s.dstPtr := rfl
@[simp] theorem State.start_dstLen : (s.start).dstLen = s.dstLen := rfl
@[simp] theorem State.start_value : (s.start).value = s.value := rfl
@[simp] theorem State.start_engine : (s.start).engine = Engine.start := rfl
@[simp] theorem State.start_mem : (s.start).mem = s.mem := rfl
@[simp] theorem State.start_schedule : (s.start).schedule = s.schedule := rfl
@[simp] theorem State.start_observed : (s.start).observed = s.observed := rfl
@[simp] theorem State.start_draws : (s.start).draws = s.draws := rfl

-- emit
@[simp] theorem State.emit_cfg (d : Nat) (u : List Byte) : (s.emit d u).cfg = s.cfg := rfl
@[simp] theorem State.emit_cmd (d : Nat) (u : List Byte) : (s.emit d u).cmd = s.cmd := rfl
@[simp] theorem State.emit_busy (d : Nat) (u : List Byte) : (s.emit d u).busy = s.busy := rfl
@[simp] theorem State.emit_result (d : Nat) (u : List Byte) : (s.emit d u).result = s.result := rfl
@[simp] theorem State.emit_srcPtr (d : Nat) (u : List Byte) : (s.emit d u).srcPtr = s.srcPtr := rfl
@[simp] theorem State.emit_srcLen (d : Nat) (u : List Byte) : (s.emit d u).srcLen = s.srcLen := rfl
@[simp] theorem State.emit_dstPtr (d : Nat) (u : List Byte) : (s.emit d u).dstPtr = s.dstPtr := rfl
@[simp] theorem State.emit_dstLen (d : Nat) (u : List Byte) : (s.emit d u).dstLen = s.dstLen := rfl
@[simp] theorem State.emit_value (d : Nat) (u : List Byte) : (s.emit d u).value = s.value := rfl
@[simp] theorem State.emit_engine (d : Nat) (u : List Byte) : (s.emit d u).engine = s.engine := rfl
@[simp] theorem State.emit_mem (d : Nat) (u : List Byte) : (s.emit d u).mem = s.mem.writeBytes (s.dstPtr.toNat + d) u := rfl
@[simp] theorem State.emit_schedule (d : Nat) (u : List Byte) : (s.emit d u).schedule = s.schedule := rfl
@[simp] theorem State.emit_observed (d : Nat) (u : List Byte) : (s.emit d u).observed = s.observed := rfl
@[simp] theorem State.emit_draws (d : Nat) (u : List Byte) : (s.emit d u).draws = s.draws := rfl

-- withEngine
@[simp] theorem State.withEngine_cfg (e : Engine) : (s.withEngine e).cfg = s.cfg := rfl
@[simp] theorem State.withEngine_cmd (e : Engine) : (s.withEngine e).cmd = s.cmd := rfl
@[simp] theorem State.withEngine_busy (e : Engine) : (s.withEngine e).busy = s.busy := rfl
@[simp] theorem State.withEngine_result (e : Engine) : (s.withEngine e).result = s.result := rfl
@[simp] theorem State.withEngine_srcPtr (e : Engine) : (s.withEngine e).srcPtr = s.srcPtr := rfl
@[simp] theorem State.withEngine_srcLen (e : Engine) : (s.withEngine e).srcLen = s.srcLen := rfl
@[simp] theorem State.withEngine_dstPtr (e : Engine) : (s.withEngine e).dstPtr = s.dstPtr := rfl
@[simp] theorem State.withEngine_dstLen (e : Engine) : (s.withEngine e).dstLen = s.dstLen := rfl
@[simp] theorem State.withEngine_value (e : Engine) : (s.withEngine e).value = s.value := rfl
@[simp] theorem State.withEngine_engine (e : Engine) : (s.withEngine e).engine = e := rfl
@[simp] theorem State.withEngine_mem (e : Engine) : (s.withEngine e).mem = s.mem := rfl
@[simp] theorem State.withEngine_schedule (e : Engine) : (s.withEngine e).schedule = s.schedule := rfl
@[simp] theorem State.withEngine_observed (e : Engine) : (s.withEngine e).observed = s.observed := rfl
@[simp] theorem State.withEngine_draws (e : Engine) : (s.withEngine e).draws = s.draws := rfl

-- observeReg
@[simp] theorem State.observeReg_cfg (o : BitVec 8) (w : Word) : (s.observeReg o w).cfg = s.cfg := rfl
@[simp] theorem State.observeReg_cmd (o : BitVec 8) (w : Word) : (s.observeReg o w).cmd = s.cmd := rfl
@[simp] theorem State.observeReg_busy (o : BitVec 8) (w : Word) : (s.observeReg o w).busy = s.busy := rfl
@[simp] theorem State.observeReg_result (o : BitVec 8) (w : Word) : (s.observeReg o w).result = s.result := rfl
@[simp] theorem State.observeReg_srcPtr (o : BitVec 8) (w : Word) : (s.observeReg o w).srcPtr = s.srcPtr := rfl
@[simp] theorem State.observeReg_srcLen (o : BitVec 8) (w : Word) : (s.observeReg o w).srcLen = s.srcLen := rfl
@[simp] theorem State.observeReg_dstPtr (o : BitVec 8) (w : Word) : (s.observeReg o w).dstPtr = s.dstPtr := rfl
@[simp] theorem State.observeReg_dstLen (o : BitVec 8) (w : Word) : (s.observeReg o w).dstLen = s.dstLen := rfl
@[simp] theorem State.observeReg_value (o : BitVec 8) (w : Word) : (s.observeReg o w).value = s.value := rfl
@[simp] theorem State.observeReg_engine (o : BitVec 8) (w : Word) : (s.observeReg o w).engine = s.engine := rfl
@[simp] theorem State.observeReg_mem (o : BitVec 8) (w : Word) : (s.observeReg o w).mem = s.mem := rfl
@[simp] theorem State.observeReg_schedule (o : BitVec 8) (w : Word) : (s.observeReg o w).schedule = s.schedule := rfl
@[simp] theorem State.observeReg_observed (o : BitVec 8) (w : Word) : (s.observeReg o w).observed = .reg o w :: s.observed := rfl
@[simp] theorem State.observeReg_draws (o : BitVec 8) (w : Word) : (s.observeReg o w).draws = s.draws := rfl

end

/-- The field bounds of a fresh machine. -/
@[simp] theorem reset_fields : State.reset.busy = false ∧ State.reset.mem = [] ∧ State.reset.schedule = [] ∧
    State.reset.engine = Engine.start ∧ State.reset.cfg = Config.default := ⟨rfl, rfl, rfl, rfl, rfl⟩

/-- Every register reads 0 right after reset (R14, R147). -/
theorem reset_readReg (r : Reg) : State.reset.readReg r = 0 := by cases r <;> decide

section
variable (s : State) (w : Word) (r : Reg)

@[simp] theorem State.writeReg_cfg : (s.writeReg r w).cfg = s.cfg := by cases r <;> rfl
@[simp] theorem State.writeReg_busy : (s.writeReg r w).busy = s.busy := by cases r <;> rfl
@[simp] theorem State.writeReg_result : (s.writeReg r w).result = s.result := by cases r <;> rfl
@[simp] theorem State.writeReg_engine : (s.writeReg r w).engine = s.engine := by cases r <;> rfl
@[simp] theorem State.writeReg_mem : (s.writeReg r w).mem = s.mem := by cases r <;> rfl
@[simp] theorem State.writeReg_schedule : (s.writeReg r w).schedule = s.schedule := by cases r <;> rfl
@[simp] theorem State.writeReg_observed : (s.writeReg r w).observed = s.observed := by cases r <;> rfl
@[simp] theorem State.writeReg_draws : (s.writeReg r w).draws = s.draws := by cases r <;> rfl
end

end Sys2Proof.Machine
end

