-- ==== Sys2Proof/Laws/Ops.lean ====
section
/-! SUPPORT. What the shared operations of a command's lifecycle can do, said once: admission, the start, the units
one after the other, the whole run, and the engine's turn. -/

namespace Sys2Proof.Machine

/-- Admission (R139): a negative length is rejected, an ill-formed command is refused, any other goes on unchanged. -/
theorem State.accept_cases (s : State) (i : Instr) :
    (s.lengthsOk i = false ∧ s.accept i = .next (s.reject .invalidLength)) ∨
    (s.lengthsOk i = true ∧ s.spansInside i = false ∧ s.accept i = .refused .spanOutsideMemory) ∨
    (s.lengthsOk i = true ∧ s.spansInside i = true ∧ s.spansApart i = false ∧ s.accept i = .refused .spansOverlap) ∨
    (s.lengthsOk i = true ∧ s.spansInside i = true ∧ s.spansApart i = true ∧ s.accept i = .next s) := by
  cases h1 : s.lengthsOk i <;> cases h2 : s.spansInside i <;> cases h3 : s.spansApart i <;> simp [State.accept, h1, h2, h3]

/-- The start does not change what admission reads. -/
@[simp] theorem State.start_lengthsOk (s : State) (i : Instr) : s.start.lengthsOk i = s.lengthsOk i := rfl
@[simp] theorem State.start_spansInside (s : State) (i : Instr) : s.start.spansInside i = s.spansInside i := rfl
@[simp] theorem State.start_spansApart (s : State) (i : Instr) : s.start.spansApart i = s.spansApart i := rfl
@[simp] theorem State.start_srcCount (s : State) : s.start.srcCount = s.srcCount := rfl
@[simp] theorem State.start_dstCount (s : State) : s.start.dstCount = s.dstCount := rfl
@[simp] theorem State.withEngine_srcCount (s : State) (e : Engine) : (s.withEngine e).srcCount = s.srcCount := rfl
@[simp] theorem State.withEngine_dstCount (s : State) (e : Engine) : (s.withEngine e).dstCount = s.dstCount := rfl
@[simp] theorem State.emit_srcCount (s : State) (d : Nat) (u : List Byte) : (s.emit d u).srcCount = s.srcCount := rfl
@[simp] theorem State.emit_dstCount (s : State) (d : Nat) (u : List Byte) : (s.emit d u).dstCount = s.dstCount := rfl

/-- What `beginCommand` leaves when it goes on: the machine was idle, and the command is started, or rejected with
INVALID_LENGTH. -/
theorem beginCommand_next {i : Instr} {s t : State} (h : beginCommand i s = .next t) :
    s.busy = false ∧ ((s.lengthsOk i = false ∧ t = s.start.reject .invalidLength) ∨
      (s.lengthsOk i = true ∧ s.spansInside i = true ∧ s.spansApart i = true ∧ t = s.start)) := by
  unfold beginCommand at h
  cases hb : s.busy with
  | true => simp [hb] at h
  | false =>
    refine ⟨rfl, ?_⟩
    rw [hb] at h
    rcases State.accept_cases s.start i with ⟨h1, e⟩ | ⟨_, _, e⟩ | ⟨_, _, _, e⟩ | ⟨h1, h2, h3, e⟩ <;> simp [e] at h
    · exact .inl ⟨h1, h.symm⟩
    · exact .inr ⟨h1, h2, h3, h.symm⟩

/-- An idle machine, with the lengths and spans a command needs, starts it. -/
theorem beginCommand_starts {i : Instr} {s : State} (hb : s.busy = false) (h1 : s.lengthsOk i = true)
    (h2 : s.spansInside i = true) (h3 : s.spansApart i = true) : beginCommand i s = .next s.start := by
  rcases State.accept_cases s.start i with ⟨e, _⟩ | ⟨_, e, _⟩ | ⟨_, _, e, _⟩ | ⟨_, _, _, e⟩ <;> simp_all [beginCommand]

/-- A state that is not busy is where the units end. -/
@[simp] theorem drive_idle (unit : State → Result) (k : Nat) {s : State} (h : s.busy = false) : drive unit k s = .next s := by
  cases k <;> simp [drive, h]

/-- One unit of a running command, then the others. -/
theorem drive_step (unit : State → Result) (k : Nat) {s t : State} (h : s.busy = true) (hu : unit s = .next t) :
    drive unit (k + 1) s = drive unit k t := by simp [drive, h, hu]

/-- A property that every unit of a running command keeps holds where the units end. -/
theorem drive_keeps {unit : State → Result} {P : State → Prop}
    (keep : ∀ s t, P s → s.busy = true → unit s = .next t → P t) :
    ∀ k s t, P s → drive unit k s = .next t → P t := by
  intro k
  induction k with
  | zero => intro s t hp h; simp [drive] at h; exact h ▸ hp
  | succ k ih =>
    intro s t hp h
    cases hb : s.busy with
    | false => rw [drive_idle unit _ hb] at h; cases h; exact hp
    | true =>
      cases hu : unit s with
      | next u => rw [drive_step unit k hb hu] at h; exact ih u t (keep s u hp hb hu) h
      | fault f => simp [drive, hb, hu] at h
      | refused r => simp [drive, hb, hu] at h

/-- The units end: where a measure falls at every unit that leaves the command running, enough fuel leaves the
machine idle. -/
theorem drive_ends {unit : State → Result} {P : State → Prop} (left : State → Nat)
    (keep : ∀ s t, P s → s.busy = true → unit s = .next t → P t)
    (fall : ∀ s t, P s → s.busy = true → unit s = .next t → t.busy = true → left t < left s) :
    ∀ k s t, P s → left s < k → drive unit k s = .next t → t.busy = false := by
  intro k
  induction k with
  | zero => intro s t _ hk _; omega
  | succ k ih =>
    intro s t hp hk h
    cases hb : s.busy with
    | false => rw [drive_idle unit _ hb] at h; cases h; exact hb
    | true =>
      cases hu : unit s with
      | next u =>
        rw [drive_step unit k hb hu] at h
        cases hub : u.busy with
        | false => rw [drive_idle unit _ hub] at h; cases h; exact hub
        | true => exact ih u t (keep s u hp hb hu) (by have := fall s u hp hb hu hub; omega) h
      | fault f => simp [drive, hb, hu] at h
      | refused r => simp [drive, hb, hu] at h

/-- What a whole command leaves when it goes on: it was rejected with INVALID_LENGTH, or its units ran from the
start state. -/
theorem runCommand_next {i : Instr} {unit : State → Result} {s t : State} (h : runCommand i unit s = .next t) :
    s.busy = false ∧ ((s.lengthsOk i = false ∧ t = s.start.reject .invalidLength) ∨
      (s.lengthsOk i = true ∧ s.spansInside i = true ∧ s.spansApart i = true ∧
        drive unit (s.srcCount + 1) s.start = .next t)) := by
  unfold runCommand at h
  cases hbeg : beginCommand i s with
  | next u =>
    obtain ⟨hb, hc⟩ := beginCommand_next hbeg
    refine ⟨hb, ?_⟩
    rw [hbeg] at h
    rcases hc with ⟨h1, rfl⟩ | ⟨h1, h2, h3, rfl⟩
    · simp only [drive_idle _ _ (State.reject_busy _ _)] at h
      cases h
      exact .inl ⟨h1, rfl⟩
    · exact .inr ⟨h1, h2, h3, h⟩
  | fault f => simp [hbeg] at h
  | refused r => simp [hbeg] at h

/-- A command whose operands are well formed is its units from the start state. -/
theorem runCommand_starts {i : Instr} {unit : State → Result} {s : State} (hb : s.busy = false)
    (h1 : s.lengthsOk i = true) (h2 : s.spansInside i = true) (h3 : s.spansApart i = true) :
    runCommand i unit s = drive unit (s.srcCount + 1) s.start := by
  simp [runCommand, beginCommand_starts hb h1 h2 h3]

/-- The engine's turn on an idle machine changes nothing (R145). -/
theorem engineTurn_idle {s : State} (h : s.busy = false) : engineTurn s = .next s := by simp [engineTurn, h]

/-- The engine's turn on a running command is one unit of it. -/
theorem engineTurn_running {s : State} {i : Instr} (h : s.busy = true) (hd : decode s.cmd = .instr i) :
    engineTurn s = commandUnit i s := by simp [engineTurn, h, hd]

/-- A step with nothing scheduled is the engine's turn; otherwise it is the next turn of the schedule. -/
theorem step_nil {s : State} (h : s.schedule = []) : step s = engineTurn s := by simp [step, h]

theorem step_cons {s : State} {t : Turn} {rest : List Turn} (h : s.schedule = t :: rest) :
    step s = takeTurn t { s with schedule := rest } := by simp [step, h]

end Sys2Proof.Machine
end

