-- ==== Sys2Proof/Laws/HostProtocol.lean ====
section
/-! SUPPORT. What playing the lines of a host program can do, said once: lines in sequence, lines that end in a read,
and the single lines on an idle machine. -/

namespace Sys2Proof.Machine

@[simp] theorem playLines_nil (s : State) : playLines [] s = .next s := rfl

/-- A line that the machine takes, then the others. -/
theorem playLines_cons {l : HostLine} {ls : List HostLine} {s t : State} (h : takeTurn l.turn s = .next t) :
    playLines (l :: ls) s = playLines ls t := by simp [playLines, h]

/-- Lines in sequence: the second part is played from the state the first one leaves. -/
theorem playLines_append {a b : List HostLine} {s t : State} (h : playLines a s = .next t) :
    playLines (a ++ b) s = playLines b t := by
  induction a generalizing s with
  | nil => simpa using congrArg (playLines b) (by simpa using h)
  | cons l ls ih =>
    cases e : takeTurn l.turn s with
    | next u => simp only [playLines, e, List.cons_append] at h ⊢; exact ih h
    | fault f => simp [playLines, e] at h
    | refused r => simp [playLines, e] at h

/-- Lines that the machine takes, then what the host does with the value of the last read. -/
theorem playThen_next {ls : List HostLine} {s t : State} (h : playLines ls s = .next t)
    (next : State → Word → HostResult) : playThen ls s next = next t t.lastRead := by simp [playThen, h]

/-- A sequence that answers played all its lines. -/
theorem playThen_answers {ls : List HostLine} {s : State} {next : State → Word → HostResult} {r : State × Int}
    (h : playThen ls s next = .next r) : ∃ t, playLines ls s = .next t ∧ next t t.lastRead = .next r := by
  unfold playThen at h
  split at h
  · exact ⟨_, ‹_›, h⟩
  · cases h
  · cases h

@[simp] theorem State.observeReg_lastRead (s : State) (o : BitVec 8) (w : Word) : (s.observeReg o w).lastRead = w := rfl

/-- Every register's access is an aligned word, and selects it (R14). -/
@[simp] theorem Reg.access_aligned (r : Reg) : r.access.aligned = true := by cases r <;> decide
@[simp] theorem Reg.regAt_access (r : Reg) : regAt r.access.offset = some r := by cases r <;> decide

/-- `rd REG` on an idle machine observes the register. -/
theorem takeTurn_rd {s : State} (r : Reg) (h : s.busy = false) :
    takeTurn (HostLine.rd r).turn s = .next (s.observeReg r.offset (s.readReg r)) := by
  simp [HostLine.turn, takeTurn, hostRead, h]
  rfl

/-- `wr REG, imm` on an idle machine, for a register that starts no command. -/
theorem takeTurn_wr {s : State} {r : Reg} (w : Word) (h : s.busy = false) (hr : r ≠ .cmd) :
    takeTurn (HostLine.wr r w).turn s = .next (s.writeReg r w) := by
  simp [HostLine.turn, takeTurn, hostWrite, h, hr]

/-- `wait` on an idle machine reads `STATUS` once. -/
theorem takeTurn_wait {s : State} (h : s.busy = false) :
    takeTurn HostLine.wait.turn s = .next (s.observeReg Reg.status.offset 0) := by
  simp [HostLine.turn, takeTurn, waitTurn, h, State.readReg, statusWord]

end Sys2Proof.Machine
end

