-- ==== Sys2Proof/Laws/PerInstr.lean ====
section
/-! SUPPORT. Statements made per instruction: about an instruction as syntax and its command word. -/

namespace Sys2Proof.Laws.LegalWord

/-- The fields of the instruction are well formed, and its word is one of the six of R53 with `RSV` = 0. -/
def Statement (i : Instr) : Prop :=
  i.wf = true ∧ (encode i).extractLsb' 5 27 = 0 ∧
    encode i ∈ [0x00000001#32, 0x00000011#32, 0x00000002#32, 0x00000012#32, 0x00000003#32, 0x00000004#32]

theorem enc (final : Bool) : Statement (.enc final) := by cases final <;> (unfold Statement; decide)

theorem dec (final : Bool) : Statement (.dec final) := by cases final <;> (unfold Statement; decide)

theorem vwr : Statement .vwr := by unfold Statement; decide

theorem vrd : Statement .vrd := by unfold Statement; decide

end Sys2Proof.Laws.LegalWord
end

