-- ==== Sys2Proof/Laws/Units.lean ====
section
/-! SUPPORT. What one unit of each command can do (the loop bodies of R79, R91, R107, R112), said once. -/

namespace Sys2Proof.Machine

/-- One unit of ENC: a byte gathered, a group emitted, a group without room, or the end of the span. -/
theorem encUnit_cases (final : Bool) (s : State) :
    (∃ acc, s.engine.s < s.srcCount ∧ s.engine.fill + 1 ≠ 3 ∧ acc = shiftByte s.engine.acc (s.srcByte s.engine.s) ∧
      encUnit final s = .next (s.withEngine { s.engine with acc := acc, fill := s.engine.fill + 1, s := s.engine.s + 1 })) ∨
    (∃ acc, s.engine.s < s.srcCount ∧ s.engine.fill + 1 = 3 ∧ acc = shiftByte s.engine.acc (s.srcByte s.engine.s) ∧
      s.engine.d + 4 ≤ s.dstCount ∧ encUnit final s = .next ((s.emit s.engine.d (accSymbols acc 4)).withEngine
        { s.engine with acc := 0, fill := 0, s := s.engine.s + 1, d := s.engine.d + 4, commit := s.engine.s + 1 })) ∨
    (∃ e, s.engine.s < s.srcCount ∧ s.engine.fill + 1 = 3 ∧ s.dstCount < s.engine.d + 4 ∧ e.d = s.engine.d ∧
      encUnit final s = .next ((s.withEngine e).raise .notEnoughRoom s.engine.commit s.engine.d)) ∨
    (s.srcCount ≤ s.engine.s ∧ encUnit final s = .next (encEnd final s)) := by
  by_cases hs : s.engine.s < s.srcCount
  · by_cases hf : s.engine.fill + 1 = 3
    · by_cases hr : s.dstCount < s.engine.d + 4
      · exact .inr (.inr (.inl ⟨{ s.engine with acc := shiftByte s.engine.acc (s.srcByte s.engine.s), fill := 3, s := s.engine.s + 1 },
          hs, hf, hr, rfl, by simp [encUnit, hs, encByte, hf, encGroup, hr]⟩))
      · exact .inr (.inl ⟨_, hs, hf, rfl, by omega, by simp [encUnit, hs, encByte, hf, encGroup, hr]⟩)
    · exact .inl ⟨_, hs, hf, rfl, by simp [encUnit, hs, encByte, hf]⟩
  · exact .inr (.inr (.inr ⟨by omega, by simp [encUnit, hs]⟩))

/-- The end of ENC's span: the command completes, or the final partial group has no room. -/
theorem encEnd_cases (final : Bool) (s : State) :
    (0 < s.engine.fill ∧ final = true ∧ s.dstCount < s.engine.d + partialSymbols s.engine.fill ∧
      encEnd final s = s.raise .notEnoughRoom s.engine.commit s.engine.d) ∨
    (∃ n, n = partialSymbols s.engine.fill ∧ 0 < s.engine.fill ∧ final = true ∧ s.engine.d + n ≤ s.dstCount ∧
      encEnd final s = ((s.emit s.engine.d (accSymbols s.engine.acc n)).withEngine
        { s.engine with d := s.engine.d + n, commit := s.engine.s }).complete (s.engine.d + n) s.engine.s (s.engine.d + n)) ∨
    ((s.engine.fill = 0 ∨ final = false) ∧ encEnd final s = s.complete s.engine.d s.engine.commit s.engine.d) := by
  by_cases hf : 0 < s.engine.fill ∧ final = true
  · by_cases hr : s.dstCount < s.engine.d + partialSymbols s.engine.fill
    · exact .inl ⟨hf.1, hf.2, hr, by simp [encEnd, hf, hr]⟩
    · exact .inr (.inl ⟨_, rfl, hf.1, hf.2, by omega, by simp [encEnd, hf, hr]⟩)
  · refine .inr (.inr ⟨?_, by simp [encEnd, hf]⟩)
    cases final <;> simp_all

/-- One unit of DEC: whitespace skipped, an invalid byte, a code gathered, a group emitted, a group without room, or
the end of the span. -/
theorem decUnit_cases (final : Bool) (s : State) :
    (s.engine.s < s.srcCount ∧ rev (s.srcByte s.engine.s) = .whitespace ∧
      decUnit final s = .next (s.withEngine { s.engine with s := s.engine.s + 1 })) ∨
    (s.engine.s < s.srcCount ∧ rev (s.srcByte s.engine.s) = .invalid ∧
      decUnit final s = .next (s.raise .invalidSourceData s.engine.s s.engine.d)) ∨
    (∃ c g, s.engine.s < s.srcCount ∧ rev (s.srcByte s.engine.s) = .code c ∧ s.engine.fill + 1 ≠ 4 ∧
      g = (if s.engine.fill = 0 then s.engine.s else s.engine.gstart) ∧
      decUnit final s = .next (s.withEngine { s.engine with acc := shiftCode s.engine.acc c, fill := s.engine.fill + 1, s := s.engine.s + 1, gstart := g })) ∨
    (∃ c g, s.engine.s < s.srcCount ∧ rev (s.srcByte s.engine.s) = .code c ∧ s.engine.fill + 1 = 4 ∧
      s.engine.d + 3 ≤ s.dstCount ∧ decUnit final s = .next ((s.emit s.engine.d (accBytes (shiftCode s.engine.acc c) 3)).withEngine
        { s.engine with acc := 0, fill := 0, s := s.engine.s + 1, d := s.engine.d + 3, commit := s.engine.s + 1, gstart := g })) ∨
    (∃ e, s.engine.s < s.srcCount ∧ s.engine.fill + 1 = 4 ∧ s.dstCount < s.engine.d + 3 ∧ e.d = s.engine.d ∧
      decUnit final s = .next ((s.withEngine e).raise .notEnoughRoom s.engine.commit s.engine.d)) ∨
    (s.srcCount ≤ s.engine.s ∧ decUnit final s = .next (decEnd final s)) := by
  by_cases hs : s.engine.s < s.srcCount
  · cases hb : rev (s.srcByte s.engine.s) with
    | whitespace => exact .inl ⟨hs, rfl, by simp [decUnit, hs, decByte, hb]⟩
    | invalid => exact .inr (.inl ⟨hs, rfl, by simp [decUnit, hs, decByte, hb]⟩)
    | code c =>
      by_cases hf : s.engine.fill + 1 = 4
      · by_cases hr : s.dstCount < s.engine.d + 3
        · exact .inr (.inr (.inr (.inr (.inl ⟨{ s.engine with acc := shiftCode s.engine.acc c, fill := 4, s := s.engine.s + 1, gstart := if s.engine.fill = 0 then s.engine.s else s.engine.gstart },
            hs, hf, hr, rfl, by simp [decUnit, hs, decByte, hb, decCode, hf, decGroup, hr]⟩))))
        · exact .inr (.inr (.inr (.inl ⟨c, _, hs, rfl, hf, by omega, by simp [decUnit, hs, decByte, hb, decCode, hf, decGroup, hr]; rfl⟩)))
      · exact .inr (.inr (.inl ⟨c, _, hs, rfl, hf, rfl, by simp [decUnit, hs, decByte, hb, decCode, hf]⟩))
  · exact .inr (.inr (.inr (.inr (.inr ⟨by omega, by simp [decUnit, hs]⟩))))

/-- The end of DEC's span (R97, R98). -/
theorem decEnd_cases (final : Bool) (s : State) :
    (s.engine.fill = 0 ∧ decEnd final s =
      (s.withEngine { s.engine with commit := s.engine.s }).complete s.engine.d s.engine.s s.engine.d) ∨
    (0 < s.engine.fill ∧ final = true ∧ partialBytes s.engine.fill = none ∧
      decEnd final s = s.raise .invalidSourceData s.engine.gstart s.engine.d) ∨
    (∃ n, 0 < s.engine.fill ∧ final = true ∧ partialBytes s.engine.fill = some n ∧ s.dstCount < s.engine.d + n ∧
      decEnd final s = s.raise .notEnoughRoom s.engine.commit s.engine.d) ∨
    (∃ n, 0 < s.engine.fill ∧ final = true ∧ partialBytes s.engine.fill = some n ∧ s.engine.d + n ≤ s.dstCount ∧
      decEnd final s = ((s.emit s.engine.d (accBytes s.engine.acc n)).withEngine
        { s.engine with d := s.engine.d + n, commit := s.engine.s }).complete (s.engine.d + n) s.engine.s (s.engine.d + n)) ∨
    (0 < s.engine.fill ∧ final = false ∧ decEnd final s = s.complete s.engine.d s.engine.commit s.engine.d) := by
  by_cases hf : s.engine.fill = 0
  · exact .inl ⟨hf, by simp [decEnd, hf]⟩
  · have hp : 0 < s.engine.fill := by omega
    cases final with
    | false => exact .inr (.inr (.inr (.inr ⟨hp, rfl, by simp [decEnd, hf]⟩)))
    | true =>
      cases hn : partialBytes s.engine.fill with
      | none => exact .inr (.inl ⟨hp, rfl, rfl, by simp [decEnd, hf, hn]⟩)
      | some n =>
        by_cases hr : s.dstCount < s.engine.d + n
        · exact .inr (.inr (.inl ⟨n, hp, rfl, rfl, hr, by simp [decEnd, hf, hn, hr]⟩))
        · exact .inr (.inr (.inr (.inl ⟨n, hp, rfl, rfl, by omega, by simp [decEnd, hf, hn, hr]⟩)))

/-- The unit of VWR: no room, or the whole field is written. -/
theorem vwrUnit_cases (s : State) :
    (s.dstCount < chunks s.value.toNat ∧ vwrUnit s = .next (s.raise .notEnoughRoom 0 0)) ∨
    (chunks s.value.toNat ≤ s.dstCount ∧ vwrUnit s = .next (((s.emit 0 (varintSymbols s.value)).withEngine
      { s.engine with d := chunks s.value.toNat }).complete (chunks s.value.toNat) 0 (chunks s.value.toNat))) := by
  by_cases hr : s.dstCount < chunks s.value.toNat
  · exact .inl ⟨hr, by simp [vwrUnit, hr]⟩
  · exact .inr ⟨by omega, by simp [vwrUnit, hr]⟩

/-- One unit of VRD: a chunk, a byte that is no code, or the end of the span. -/
theorem vrdUnit_cases (s : State) :
    (∃ c, s.engine.s < s.srcCount ∧ rev (s.srcByte s.engine.s) = .code c ∧ vrdUnit s = vrdChunk s c) ∨
    (s.engine.s < s.srcCount ∧ (rev (s.srcByte s.engine.s) = .whitespace ∨ rev (s.srcByte s.engine.s) = .invalid) ∧
      vrdUnit s = .next (s.raise .invalidSourceData s.engine.s 0)) ∨
    (s.srcCount ≤ s.engine.s ∧ vrdUnit s = .next (s.raise .unterminatedLengthField 0 0)) := by
  by_cases hs : s.engine.s < s.srcCount
  · cases hb : rev (s.srcByte s.engine.s) with
    | code c => exact .inl ⟨c, hs, rfl, by simp [vrdUnit, hs, hb]⟩
    | whitespace => exact .inr (.inl ⟨hs, .inl rfl, by simp [vrdUnit, hs, hb]⟩)
    | invalid => exact .inr (.inl ⟨hs, .inr rfl, by simp [vrdUnit, hs, hb]⟩)
  · exact .inr (.inr ⟨by omega, by simp [vrdUnit, hs]⟩)

/-- A chunk of VRD: accepted, or the value would need more than 64 bits and the parameter decides (R117). -/
theorem vrdChunk_cases (s : State) (c : Code) :
    (vrdChunk s c = .next (vrdAccept s c) ∧ (s.engine.v >>> 59 = 0 ∨ s.cfg.varintOverflow = .wrap)) ∨
    (vrdChunk s c = .fault .varintOverflow ∧ s.engine.v >>> 59 ≠ 0 ∧ s.cfg.varintOverflow = .fault) ∨
    (vrdChunk s c = .next (s.raise .invalidSourceData s.engine.s 0) ∧ s.engine.v >>> 59 ≠ 0 ∧
      s.cfg.varintOverflow = .error) := by
  by_cases h : s.engine.v >>> 59 ≠ 0
  · cases hc : s.cfg.varintOverflow with
    | fault => exact .inr (.inl ⟨by rw [vrdChunk, if_pos h, hc], h, rfl⟩)
    | wrap => exact .inl ⟨by rw [vrdChunk, if_pos h, hc], .inr rfl⟩
    | error => exact .inr (.inr ⟨by rw [vrdChunk, if_pos h, hc], h, rfl⟩)
  · exact .inl ⟨by rw [vrdChunk, if_neg h], .inl (not_not.mp h)⟩

/-- An accepted chunk: the read goes on, or `VALUE` is stored and the command completes (R114). -/
theorem vrdAccept_cases (s : State) (c : Code) :
    (c.getLsbD 5 = true ∧ vrdAccept s c =
      s.withEngine { s.engine with v := shiftChunk s.engine.v c, s := s.engine.s + 1 }) ∨
    (c.getLsbD 5 = false ∧ vrdAccept s c = ({ s with value := shiftChunk s.engine.v c }.withEngine
      { s.engine with v := shiftChunk s.engine.v c, s := s.engine.s + 1 }).complete (s.engine.s + 1) (s.engine.s + 1) 0) := by
  cases h : c.getLsbD 5 with
  | true => exact .inl ⟨rfl, by rw [vrdAccept, if_pos h]⟩
  | false => exact .inr ⟨rfl, by rw [vrdAccept, if_neg (Bool.eq_false_iff.mp h)]⟩

end Sys2Proof.Machine
end

