-- ==== Sys2Proof/Tests/Slice0.lean ====
section
/-! SUPPORT. Tests: the checks of WellFormed on ill-formed terms, command words written out from rule R53, one step
of each command against the vectors of spec/95_test_vectors.md, and, for every statement that has hypotheses, a
state that meets them at the boundary of each of its clauses. -/

namespace Sys2Proof.Tests

open Sys2Proof.Machine

/-! ## WellFormed, decode, encode -/

theorem smoke_reserved_bit_refused : CmdFields.wf { op := 1, f := false, rsv := 1 } = false := by decide

theorem smoke_reserved_opcode_refused : CmdFields.wf { op := 5, f := false, rsv := 0 } = false := by decide

theorem smoke_opcode_zero_refused : CmdFields.wf { op := 0, f := false, rsv := 0 } = false := by decide

theorem smoke_final_vwr_refused : CmdFields.wf { op := 3, f := true, rsv := 0 } = false := by decide

theorem smoke_final_vrd_refused : CmdFields.wf { op := 4, f := true, rsv := 0 } = false := by decide

theorem smoke_enc_final_accepted : Instr.wf (.enc true) = true := by decide

/-- R53: `enc.f` is OP = 0001, F = 1. -/
theorem decode_enc_final_word : decode 0b00000000000000000000000000010001 = .instr (.enc true) := by decide

theorem decode_enc_word : decode 0b00000000000000000000000000000001 = .instr (.enc false) := by decide

/-- R53: `dec.f` is OP = 0010, F = 1. -/
theorem decode_dec_final_word : decode 0b00000000000000000000000000010010 = .instr (.dec true) := by decide

theorem decode_dec_word : decode 0b00000000000000000000000000000010 = .instr (.dec false) := by decide

theorem decode_vwr_word : decode 0b00000000000000000000000000000011 = .instr .vwr := by decide

theorem decode_vrd_word : decode 0b00000000000000000000000000000100 = .instr .vrd := by decide

/-- TV-C1, C8 to C13: illegal words, each with its reason. -/
theorem decode_illegal_words :
    decode 0x00000000 = .illegal .reservedOpcode ∧ decode 0x0000000F = .illegal .reservedOpcode ∧
    decode 0x00000013 = .illegal .finalNotAllowed ∧ decode 0x00000014 = .illegal .finalNotAllowed ∧
    decode 0x00000021 = .illegal .reservedBits ∧ decode 0x80000001 = .illegal .reservedBits := by decide

theorem encode_words : encode (.enc true) = 0x11 ∧ encode (.dec false) = 0x02 ∧ encode .vwr = 0x03 ∧ encode .vrd = 0x04 := by
  decide

theorem table_word_read : decodeTableWord 32 0x12 = some (.dec true) ∧ decodeTableWord 32 0x13 = none := by decide

/-! ## Small machines -/

def isNext : Result → Bool
  | .next _ => true
  | .fault _ => false
  | .refused _ => false

def isVarintFault : Result → Bool
  | .next _ => false
  | .fault f => f == .varintOverflow
  | .refused _ => false

/-- The state a result leaves. -/
def after : Result → State
  | .next t => t
  | .fault _ => State.reset
  | .refused _ => State.reset

theorem next_after {r : Result} (h : isNext r = true) : r = .next (after r) := by
  cases r <;> simp_all [isNext, after]

/-- A reset machine with source bytes at 0x1000 and a destination of `m` bytes at 0x2000. -/
def machine (src : List Byte) (m : Word) : State :=
  { State.reset with
    srcPtr := 0x1000, srcLen := BitVec.ofNat 32 src.length, dstPtr := 0x2000, dstLen := m,
    mem := Memory.writeBytes [] 0x1000 src }

/-- The same with text, one character a byte. -/
def textMachine (text : List Char) (m : Word) : State := machine (text.map fun c => BitVec.ofNat 8 c.toNat) m

/-- The machine with a command running whose turns are still to come. -/
def running (w : Word) (s : State) : State := after (takeTurn (.startHeld w) s)

/-- A machine with every register at a value is ready when these checks pass. -/
theorem ready_of {s : State} (h1 : s.cfg.wf = true) (h2 : s.srcPtr.toNat < s.cfg.space) (h3 : s.dstPtr.toNat < s.cfg.space)
    (h4 : s.mem.wf = true) (h5 : s.mem.below s.cfg.space = true) (h6 : s.busy = false) (h7 : SrcFits s) (h8 : DstFits s)
    (h9 : SpansDisjoint s) : Ready s :=
  ⟨⟨h1, h2, h3, h4, h5, fun h => by simp [h6] at h⟩, h6, h7, h8, h9⟩

theorem wf_of {s : State} (h1 : s.cfg.wf = true) (h2 : s.srcPtr.toNat < s.cfg.space) (h3 : s.dstPtr.toNat < s.cfg.space)
    (h4 : s.mem.wf = true) (h5 : s.mem.below s.cfg.space = true) (h6 : s.busy = false) : s.Wf :=
  ⟨h1, h2, h3, h4, h5, fun h => by simp [h6] at h⟩

/-! ## One step of each command (spec/95_test_vectors.md) -/

/-- TV-E4: `wYGL2l`. -/
theorem enc_group_and_partial :
    readSpan (after (exec (.enc true) (machine [0xf2, 0x34, 0x56, 0xf1] 8))).mem 0x2000 6 =
      [0x77, 0x59, 0x47, 0x4c, 0x32, 0x6c] := by decide

/-- TV-E5: the last byte is rolled back. -/
theorem enc_rolls_back :
    let t := after (exec (.enc false) (machine [0xf2, 0x34, 0x56, 0xf1] 8))
    t.result = 4 ∧ t.srcPtr = 0x1003 ∧ t.srcLen = 1 ∧ t.dstPtr = 0x2004 := by decide

/-- TV-D16: whitespace inside a group. -/
theorem dec_skips_whitespace :
    readSpan (after (exec (.dec true) (textMachine ['w', ' ', 'Y', '\n', 'G', '\t', 'L', '\r'] 8))).mem 0x2000 3 =
      [0xf2, 0x34, 0x56] := by decide

/-- TV-D24: no room for the final partial group. -/
theorem dec_runs_out_of_room :
    let t := after (exec (.dec true) (textMachine ['z', 'r', '6', 'S', '2', 'e', 'H'] 3))
    t.result = BitVec.ofInt 32 (-1) ∧ t.srcPtr = 0x1004 ∧ t.dstPtr = 0x2003 ∧ t.dstLen = 0 := by decide

/-- TV-W14: 2^64 - 1 is `jzzzzzzzzzzzU`. -/
theorem vwr_largest_value :
    readSpan (after (exec .vwr { machine [] 13 with value := BitVec.allOnes 64 })).mem 0x2000 13 =
      0x6A :: List.replicate 11 0x7A ++ [0x55] := by decide

/-- TV-W15: nothing written, nothing moved. -/
theorem vwr_without_room :
    let t := after (exec .vwr { machine [] 2 with value := 1024 })
    t.result = BitVec.ofInt 32 (-1) ∧ t.dstPtr = 0x2000 ∧ t.dstLen = 2 ∧ t.mem = [] := by decide

/-- TV-V9: `jzzzzzzzzzzzU` is 2^64 - 1. -/
theorem vrd_largest_value :
    let t := after (exec .vrd (textMachine ('j' :: List.replicate 11 'z' ++ ['U']) 0))
    t.value = BitVec.allOnes 64 ∧ t.result = 13 ∧ t.srcLen = 0 := by decide

/-- TV-V16: whitespace is not skipped. -/
theorem vrd_stops_at_space :
    let t := after (exec .vrd (textMachine ['W', ' '] 0))
    t.result = BitVec.ofInt 32 (-2) ∧ t.srcPtr = 0x1001 ∧ t.value = 0 := by decide

/-! ## Hypotheses that can be met: commands -/

theorem witness_StepRunsTheDecodedCommand :
    (State.reset.withFetchWord 32 0x11).schedule = [.regWrite { width := 32, offset := 0x00 } 0x11] ∧
    (State.reset.withFetchWord 32 0x11).busy = false ∧ decode 0x11 = .instr (.enc true) := by decide

theorem witness_FetchedTableWordRuns : decodeTableWord 32 0x00000004 = some .vrd := by decide

theorem witness_IllegalWordsOnlySetResult : State.reset.busy = false ∧ decode 0x00000020 = .illegal .reservedBits := by decide

theorem ready_four_bytes (m : Word) (h : m = 6 ∨ m = 5 ∨ m = 4 ∨ m = 3) : Ready (machine [0xf2, 0x34, 0x56, 0xf1] m) := by
  rcases h with rfl | rfl | rfl | rfl <;>
    exact ready_of (by decide) (by decide) (by decide) (by decide) (by decide) (by decide) (by decide) (by decide) (by decide)

/-- Exact fit of the final form, one symbol too few for it, exact fit of the other form, one too few for it. -/
theorem witness_EncOutcomeByLengths :
    Ready (machine [0xf2, 0x34, 0x56, 0xf1] 6) ∧ Ready (machine [0xf2, 0x34, 0x56, 0xf1] 5) ∧
    Ready (machine [0xf2, 0x34, 0x56, 0xf1] 4) ∧ Ready (machine [0xf2, 0x34, 0x56, 0xf1] 3) :=
  ⟨ready_four_bytes 6 (by decide), ready_four_bytes 5 (by decide), ready_four_bytes 4 (by decide), ready_four_bytes 3 (by decide)⟩

theorem witness_EncSplitInvariance :
    Ready (machine [0xf2, 0x34, 0x56, 0xf1] 6) ∧ 2 ≤ (machine [0xf2, 0x34, 0x56, 0xf1] 6).srcLen.toInt.toNat ∧
    encodedLength (machine [0xf2, 0x34, 0x56, 0xf1] 6).srcLen.toInt false ≤ (machine [0xf2, 0x34, 0x56, 0xf1] 6).dstLen.toInt :=
  ⟨ready_four_bytes 6 (by decide), by decide, by decide⟩

/-- Seven codes with a space, destination 5 (fits) or 4 (one too few); five codes (a lone one) with exact room for the
first group. -/
def sevenCodes (m : Word) : State := textMachine ['z', 'r', '6', ' ', 'S', '2', 'e', 'H'] m

def fiveCodes (m : Word) : State := textMachine ['z', 'r', '6', 'S', '2'] m

theorem ready_sevenCodes (m : Word) (h : m = 5 ∨ m = 4 ∨ m = 3 ∨ m = 2) : Ready (sevenCodes m) := by
  rcases h with rfl | rfl | rfl | rfl <;>
    exact ready_of (by decide) (by decide) (by decide) (by decide) (by decide) (by decide) (by decide) (by decide) (by decide)

theorem witness_DecOutcomeOnText :
    (Ready (sevenCodes 5) ∧ Ready (sevenCodes 4) ∧ Ready (sevenCodes 3) ∧ Ready (sevenCodes 2) ∧
      (sevenCodes 5).srcBytes.all isText = true ∧ (sourceCodes (sevenCodes 5).srcBytes).length = 7) ∧
    Ready (fiveCodes 3) ∧ (fiveCodes 3).srcBytes.all isText = true ∧ (sourceCodes (fiveCodes 3).srcBytes).length = 5 :=
  ⟨⟨ready_sevenCodes 5 (by decide), ready_sevenCodes 4 (by decide), ready_sevenCodes 3 (by decide),
      ready_sevenCodes 2 (by decide), by decide, by decide⟩,
    ready_of (by decide) (by decide) (by decide) (by decide) (by decide) (by decide) (by decide) (by decide) (by decide),
    by decide, by decide⟩

/-- `zr6S.A`: the invalid byte after one group, with room for it (3) and without (2). -/
theorem witness_DecStopsAtInvalidByte :
    (∀ m : Word, m = 3 ∨ m = 2 → Ready (textMachine ['z', 'r', '6', 'S', '.', 'A'] m)) ∧
    (textMachine ['z', 'r', '6', 'S', '.', 'A'] 3).srcBytes = [0x7A, 0x72, 0x36, 0x53] ++ 0x2E :: [0x41] ∧
    [0x7A, 0x72, 0x36, 0x53].all isText = true ∧ isText 0x2E = false := by
  refine ⟨fun m h => ?_, by decide, by decide, by decide⟩
  rcases h with rfl | rfl <;>
    exact ready_of (by decide) (by decide) (by decide) (by decide) (by decide) (by decide) (by decide) (by decide) (by decide)

theorem witness_WhitespaceIsTransparent :
    Ready (sevenCodes 5) ∧ Ready (textMachine ['z', 'r', '6', 'S', '2', 'e', 'H'] 5) ∧
    ((sevenCodes 5).srcBytes.filter fun b => !isSpace b) =
      ((textMachine ['z', 'r', '6', 'S', '2', 'e', 'H'] 5).srcBytes.filter fun b => !isSpace b) :=
  ⟨ready_sevenCodes 5 (by decide),
    ready_of (by decide) (by decide) (by decide) (by decide) (by decide) (by decide) (by decide) (by decide) (by decide),
    by decide⟩

theorem witness_DecSplitInvariance :
    Ready (sevenCodes 5) ∧ 6 ≤ (sevenCodes 5).srcLen.toInt.toNat ∧ (sevenCodes 5).srcBytes.all isText = true ∧
    (sourceCodes (sevenCodes 5).srcBytes).length % 4 ≠ 1 ∧
    decodedLength (sourceCodes (sevenCodes 5).srcBytes).length ≤ (sevenCodes 5).dstLen.toInt :=
  ⟨ready_sevenCodes 5 (by decide), by decide, by decide, by decide, by decide⟩

theorem witness_DecodeOfEncode :
    let s := machine [0xf2, 0x34, 0x56, 0xf1] 6
    let t := after (exec (.enc true) s)
    Ready s ∧ exec (.enc true) s = .next t ∧ 0 ≤ t.result.toInt ∧
      Ready { t with srcPtr := s.dstPtr, srcLen := t.result, dstPtr := 0x3000, dstLen := 4 } ∧
      s.srcLen.toInt ≤ (4 : Word).toInt :=
  ⟨ready_four_bytes 6 (by decide), next_after (by decide), by decide,
    ready_of (by decide) (by decide) (by decide) (by decide) (by decide) (by decide) (by decide) (by decide) (by decide),
    by decide⟩

/-- `zz` has padding bits that are not 0. -/
theorem witness_EncodeOfDecode :
    let s := textMachine ['z', 'z'] 1
    let t := after (exec (.dec true) s)
    Ready s ∧ (s.srcBytes.all fun b => (codeOf b).isSome) = true ∧ exec (.dec true) s = .next t ∧ 0 ≤ t.result.toInt ∧
      Ready { t with srcPtr := s.dstPtr, srcLen := t.result, dstPtr := 0x3000, dstLen := 2 } ∧
      s.srcLen.toInt ≤ (2 : Word).toInt :=
  ⟨ready_of (by decide) (by decide) (by decide) (by decide) (by decide) (by decide) (by decide) (by decide) (by decide),
    by decide, next_after (by decide), by decide,
    ready_of (by decide) (by decide) (by decide) (by decide) (by decide) (by decide) (by decide) (by decide) (by decide),
    by decide⟩

/-- 1024 takes 3 chunks: exact room, and one too few. -/
theorem witness_VwrWritesLengthField :
    (∀ m : Word, m = 3 ∨ m = 2 → ({ machine [] m with value := 1024 } : State).Wf ∧
      DstFits { machine [] m with value := 1024 } ∧ ({ machine [] m with value := 1024 } : State).busy = false) ∧
    chunks 1024 = 3 := by
  refine ⟨fun m h => ?_, by decide⟩
  rcases h with rfl | rfl <;>
    exact ⟨wf_of (by decide) (by decide) (by decide) (by decide) (by decide) (by decide), by decide, by decide⟩

theorem wf_textMachine_small :
    (textMachine ['V', '-', 'w'] 0).Wf ∧ (textMachine ['W', 'V'] 0).Wf ∧ (textMachine ['W', ' ', '-'] 0).Wf :=
  ⟨wf_of (by decide) (by decide) (by decide) (by decide) (by decide) (by decide),
    wf_of (by decide) (by decide) (by decide) (by decide) (by decide) (by decide),
    wf_of (by decide) (by decide) (by decide) (by decide) (by decide) (by decide)⟩

/-- `V-` then `w`: a field that is not minimal, with a unit after it. -/
theorem witness_VrdReadsLengthField :
    (textMachine ['V', '-', 'w'] 0).Wf ∧ (textMachine ['V', '-', 'w'] 0).busy = false ∧
    SrcFits (textMachine ['V', '-', 'w'] 0) ∧
    (textMachine ['V', '-', 'w'] 0).srcBytes = [32, 0].map fwd ++ [0x77] ∧ isVarint [32, 0] = true ∧
    varintValue [32, 0] < 2 ^ 64 :=
  ⟨wf_textMachine_small.1, by decide, by decide, by decide, by decide, by decide⟩

/-- A field of 13 continuation chunks, of more than 64 bits, under WRAP, and what follows it. -/
def wrapping (after : List Char) : State :=
  { textMachine ('k' :: List.replicate 12 'z' ++ after) 0 with cfg := { addrW := 32, varintOverflow := .wrap } }

theorem witness_VrdUnterminatedField :
    ((textMachine ['W', 'V'] 0).Wf ∧ (textMachine ['W', 'V'] 0).busy = false ∧ SrcFits (textMachine ['W', 'V'] 0) ∧
      (textMachine ['W', 'V'] 0).srcBytes = [33, 32].map fwd ∧ allContinue [33, 32] = true ∧ varintValue [33, 32] < 2 ^ 64) ∧
    (wrapping []).Wf ∧ (wrapping []).busy = false ∧ SrcFits (wrapping []) ∧
      (wrapping []).srcBytes = (48 :: List.replicate 12 63).map fwd ∧ allContinue (48 :: List.replicate 12 63) = true ∧
      2 ^ 64 ≤ varintValue (48 :: List.replicate 12 63) ∧ (wrapping []).cfg.varintOverflow = .wrap :=
  ⟨⟨wf_textMachine_small.2.1, by decide, by decide, by decide, by decide, by decide⟩,
    wf_of (by decide) (by decide) (by decide) (by decide) (by decide) (by decide), by decide, by decide, by decide,
    by decide, by decide, by decide⟩

theorem witness_VrdStopsAtNonCode :
    ((textMachine ['W', ' ', '-'] 0).Wf ∧ (textMachine ['W', ' ', '-'] 0).busy = false ∧
      SrcFits (textMachine ['W', ' ', '-'] 0) ∧
      (textMachine ['W', ' ', '-'] 0).srcBytes = [33].map fwd ++ 0x20 :: [0x2D] ∧ allContinue [33] = true ∧
      codeOf 0x20 = none ∧ varintValue [33] < 2 ^ 64) ∧
    (wrapping ['.']).Wf ∧ (wrapping ['.']).busy = false ∧ SrcFits (wrapping ['.']) ∧
      (wrapping ['.']).srcBytes = (48 :: List.replicate 12 63).map fwd ++ 0x2E :: [] ∧
      allContinue (48 :: List.replicate 12 63) = true ∧ codeOf 0x2E = none ∧
      2 ^ 64 ≤ varintValue (48 :: List.replicate 12 63) ∧ (wrapping ['.']).cfg.varintOverflow = .wrap :=
  ⟨⟨wf_textMachine_small.2.2, by decide, by decide, by decide, by decide, by decide, by decide⟩,
    wf_of (by decide) (by decide) (by decide) (by decide) (by decide) (by decide), by decide, by decide, by decide,
    by decide, by decide, by decide, by decide⟩

/-- TV-V19, `k` and eleven `z` and `U`: the value before the 13th chunk is at least 2^59; one machine per value of the
parameter. -/
def overflowing (o : OverflowMode) : State :=
  { textMachine ('k' :: List.replicate 11 'z' ++ ['U']) 0 with cfg := { addrW := 32, varintOverflow := o } }

theorem witness_VrdOverflowFollowsParameter (o : OverflowMode) :
    (overflowing o).Wf ∧ (overflowing o).busy = false ∧ SrcFits (overflowing o) ∧
    ((overflowing o).srcBytes = (48 :: List.replicate 11 63).map fwd ++ fwd 31 :: [] ∧
      allContinue (48 :: List.replicate 11 63) = true ∧ varintValue (48 :: List.replicate 11 63) < 2 ^ 64 ∧
      2 ^ 59 ≤ varintValue (48 :: List.replicate 11 63)) ∧
    ((overflowing o).srcBytes = (48 :: List.replicate 11 63 ++ [31]).map fwd ++ [] ∧
      isVarint (48 :: List.replicate 11 63 ++ [31]) = true) ∧
    ((List.replicate 12 (63 : Code)).length + 1 = 13 ∧ (47 : Code).toNat % 32 ≤ 15) := by
  cases o <;>
    exact ⟨wf_of (by decide) (by decide) (by decide) (by decide) (by decide) (by decide), by decide, by decide,
      ⟨by decide, by decide, by decide, by decide⟩, ⟨by decide, by decide⟩, by decide⟩

/-- TV-V19: the model default faults. -/
theorem vrd_overflow_faults : isVarintFault (exec .vrd (overflowing .fault)) = true := by decide

theorem witness_VarintRoundTrip :
    let s : State := { machine [] 3 with value := 1024 }
    let t := after (exec .vwr s)
    s.Wf ∧ s.busy = false ∧ DstFits s ∧ exec .vwr s = .next t ∧ 0 ≤ t.result.toInt ∧ t.result.toInt ≤ (5 : Word).toInt ∧
      SrcFits { t with srcPtr := s.dstPtr, srcLen := 5, value := 0 } :=
  ⟨wf_of (by decide) (by decide) (by decide) (by decide) (by decide) (by decide), by decide, by decide,
    next_after (by decide), by decide, by decide, by decide⟩

/-- A length of -1 and a length of -2^31, the ends of the negative range. -/
theorem witness_NegativeLengthOnlySetsResult :
    (machine [] 0xFFFFFFFF).busy = false ∧ (machine [] 0xFFFFFFFF).dstLen.toInt = -1 ∧
    ({ State.reset with srcLen := 0x80000000 } : State).srcLen.toInt < 0 ∧
    ({ State.reset with srcLen := 0x80000000 } : State).busy = false := by decide

/-- A destination of 8 bytes whose last one would lie at 2^32, and a source alike. -/
theorem witness_SpanPastTheTopIsRefused :
    let d : State := { machine [1] 8 with dstPtr := 0xFFFFFFF9 }
    let c : State := { machine [1, 2] 8 with srcPtr := 0xFFFFFFFF }
    d.busy = false ∧ 0 ≤ d.srcLen.toInt ∧ 0 ≤ d.dstLen.toInt ∧ 2 ^ d.cfg.addrW < d.dstPtr.toNat + d.dstLen.toInt.toNat ∧
    c.busy = false ∧ 0 ≤ c.srcLen.toInt ∧ 0 ≤ c.dstLen.toInt ∧ 2 ^ c.cfg.addrW < c.srcPtr.toNat + c.srcLen.toInt.toNat := by
  decide

/-- The spans share one address, the last of the source. -/
theorem witness_OverlappingSpansAreRefused :
    let s : State := { machine [1, 2] 8 with dstPtr := 0x1001 }
    s.busy = false ∧ SrcFits s ∧ DstFits s ∧ s.srcPtr.toNat ≤ 0x1001 ∧ 0x1001 < s.srcPtr.toNat + s.srcLen.toInt.toNat ∧
      s.dstPtr.toNat ≤ 0x1001 ∧ 0x1001 < s.dstPtr.toNat + s.dstLen.toInt.toNat := by decide

theorem witness_EncDecFrame :
    (machine [0xf2, 0x34, 0x56, 0xf1] 6).mem.wf = true ∧
    exec (.enc true) (machine [0xf2, 0x34, 0x56, 0xf1] 6) = .next (after (exec (.enc true) (machine [0xf2, 0x34, 0x56, 0xf1] 6))) ∧
    exec (.dec true) (fiveCodes 3) = .next (after (exec (.dec true) (fiveCodes 3))) :=
  ⟨by decide, next_after (by decide), next_after (by decide)⟩

theorem witness_VwrFrame :
    (machine [] 3).Wf ∧ exec .vwr (machine [] 3) = .next (after (exec .vwr (machine [] 3))) :=
  ⟨wf_of (by decide) (by decide) (by decide) (by decide) (by decide) (by decide), next_after (by decide)⟩

theorem witness_VrdFrame :
    (textMachine ['W', ' ', '-'] 0).Wf ∧
    exec .vrd (textMachine ['W', ' ', '-'] 0) = .next (after (exec .vrd (textMachine ['W', ' ', '-'] 0))) ∧
    (after (exec .vrd (textMachine ['W', ' ', '-'] 0))).result.toInt < 0 :=
  ⟨wf_textMachine_small.2.2, next_after (by decide), by decide⟩

theorem witness_StatusesOfEachCommand :
    exec (.enc true) (machine [1] 1) = .next (after (exec (.enc true) (machine [1] 1))) ∧
    exec (.dec true) (machine [1] 1) = .next (after (exec (.dec true) (machine [1] 1))) ∧
    exec .vwr (machine [1] 1) = .next (after (exec .vwr (machine [1] 1))) ∧
    exec .vrd (machine [1] 1) = .next (after (exec .vrd (machine [1] 1))) :=
  ⟨next_after (by decide), next_after (by decide), next_after (by decide), next_after (by decide)⟩

/-- Two machines that differ in `CMD`, in the transient state and in memory outside the source span. -/
theorem witness_OperandsDetermineOutcome :
    let s := machine [0xf2, 0x34] 6
    let t : State := { s with cmd := 7, engine := { Engine.start with fill := 2, v := 9 }, mem := s.mem.write 0x2001 5 }
    s.busy = false ∧ t.busy = false ∧ s.mem.wf = true ∧ t.mem.wf = true ∧ s.srcBytes = t.srcBytes ∧
      exec (.enc true) s = .next (after (exec (.enc true) s)) :=
  ⟨by decide, by decide, by decide, by decide, by decide, next_after (by decide)⟩

/-! ## Hypotheses that can be met: steps, reset, port, memory -/

/-- A running ENC, started and not yet moved, with one more turn to come. -/
def runningEnc : State := running 0x11 (machine [0xf2, 0x34, 0x56, 0xf1] 6)

theorem runningEnc_facts : runningEnc.busy = true ∧ decode runningEnc.cmd = .instr (.enc true) ∧ runningEnc.schedule = [] := by
  decide

theorem runningEnc_wf : runningEnc.Wf :=
  ⟨by decide, by decide, by decide, by decide, by decide, fun _ => ⟨.enc true, by decide, by decide, by decide, by decide,
    ⟨by decide, by decide, by decide, by decide, by decide, by decide⟩⟩⟩

theorem witness_StepKeepsWf : runningEnc.Wf ∧ step runningEnc = .next (after (step runningEnc)) :=
  ⟨runningEnc_wf, next_after (by decide)⟩

theorem witness_StepwiseEqualsAtomic : (machine [0xf2] 6).busy = false ∧ (machine [0xf2] 6).schedule = [] := by decide

/-- `BUSY` rises at a held start, and falls at the last of the engine's moves (an empty source takes one). -/
theorem witness_BusyChangesOnlyByCommandsAndReset :
    (let s : State := { machine [] 6 with schedule := [.startHeld 0x11] }
     step s = .next (after (step s)) ∧ s.busy = false ∧ (after (step s)).busy = true) ∧
    (let s := running 0x11 (machine [] 6)
     step s = .next (after (step s)) ∧ s.busy = true ∧ (after (step s)).busy = false) :=
  ⟨⟨next_after (by decide), by decide, by decide⟩, ⟨next_after (by decide), by decide, by decide⟩⟩

theorem runningDec_wf : (running 0x12 (sevenCodes 5)).Wf :=
  ⟨by decide, by decide, by decide, by decide, by decide, fun _ => ⟨.dec true, by decide, by decide, by decide, by decide,
    ⟨by decide, by decide, by decide, by decide, by decide, by decide, by decide⟩⟩⟩

theorem witness_AccumulatorDropsNoBit :
    (runningEnc.Wf ∧ runningEnc.busy = true ∧ decode runningEnc.cmd = .instr (.enc true)) ∧
    (running 0x12 (sevenCodes 5)).Wf ∧ (running 0x12 (sevenCodes 5)).busy = true ∧
      decode (running 0x12 (sevenCodes 5)).cmd = .instr (.dec true) :=
  ⟨⟨runningEnc_wf, runningEnc_facts.1, runningEnc_facts.2.1⟩, runningDec_wf, by decide, by decide⟩

theorem witness_ResetClearsEveryRegister : runningEnc.mem.wf = true ∧ (machine [1] 1).mem.wf = true ∧ (machine [1] 1).busy = false := by
  decide

theorem runningVrd_wf : (running 0x04 (textMachine ['W', 'V'] 0)).Wf :=
  ⟨by decide, by decide, by decide, by decide, by decide, fun _ => ⟨.vrd, by decide, by decide, by decide, by decide,
    ⟨by decide, by decide⟩⟩⟩

/-- A VRD that overflows under FAULT, running. -/
theorem runningOverflow_wf : (running 0x04 (overflowing .fault)).Wf :=
  ⟨by decide, by decide, by decide, by decide, by decide, fun _ => ⟨.vrd, by decide, by decide, by decide, by decide,
    ⟨by decide, by decide⟩⟩⟩

/-- An ENC, a VRD under FAULT whose value fits, and one whose value does not. -/
theorem witness_RunningCommandCompletes :
    (runningEnc.Wf ∧ runningEnc.busy = true ∧ runningEnc.schedule = []) ∧
    ((running 0x04 (textMachine ['W', 'V'] 0)).Wf ∧ (running 0x04 (textMachine ['W', 'V'] 0)).busy = true ∧
      (running 0x04 (textMachine ['W', 'V'] 0)).schedule = []) ∧
    (running 0x04 (overflowing .fault)).Wf ∧ (running 0x04 (overflowing .fault)).busy = true ∧
      (running 0x04 (overflowing .fault)).schedule = [] :=
  ⟨⟨runningEnc_wf, runningEnc_facts.1, runningEnc_facts.2.2⟩, ⟨runningVrd_wf, by decide, by decide⟩,
    runningOverflow_wf, by decide, by decide⟩

theorem witness_ResetDuringCommand :
    (runningEnc.Wf ∧ runningEnc.busy = true ∧ decode runningEnc.cmd = .instr (.enc true) ∧ 5 < runningEnc.dstLen.toInt.toNat) ∧
    (running 0x04 (textMachine ['W', 'V'] 0)).Wf ∧ (running 0x04 (textMachine ['W', 'V'] 0)).busy = true ∧
      decode (running 0x04 (textMachine ['W', 'V'] 0)).cmd = .instr .vrd :=
  ⟨⟨runningEnc_wf, runningEnc_facts.1, runningEnc_facts.2.1, by decide⟩, runningVrd_wf, by decide, by decide⟩

theorem witness_IdleReadReturnsRegister : State.reset.busy = false := by decide

theorem witness_RegisterWriteReadsBack :
    State.reset.busy = false ∧ Reg.srcPtr ≠ .cmd ∧ Reg.srcPtr ≠ .status ∧ Reg.srcPtr ≠ .result ∧ Reg.valueHi ≠ .cmd ∧
    Reg.valueHi ≠ .status ∧ Reg.valueHi ≠ .result := by decide

theorem witness_StatusAndResultIgnoreWrites : State.reset.busy = false := by decide

/-- The first and the last reserved offset of the window. -/
theorem witness_ReservedOffsetsReadZero :
    0x24 ≤ (0x24 : BitVec 8).toNat ∧ (0x24 : BitVec 8).toNat % 4 = 0 ∧ 0x24 ≤ (0xFC : BitVec 8).toNat ∧
    (0xFC : BitVec 8).toNat % 4 = 0 := by decide

theorem witness_UnalignedAccessIsRefused :
    ({ width := 16, offset := 0x04 } : PortAccess).width ≠ 32 ∧ ({ width := 32, offset := 0x06 } : PortAccess).offset.toNat % 4 ≠ 0 := by
  decide

theorem witness_RegisterWriteWhileBusyIsRefused : runningEnc.busy = true := runningEnc_facts.1

theorem witness_ExecWhileBusyIsRefused : runningEnc.busy = true := runningEnc_facts.1

theorem witness_ReadsWhileBusy : runningEnc.busy = true ∧ Reg.result ≠ .status := ⟨runningEnc_facts.1, by decide⟩

/-- The top address of the space, and another. -/
theorem witness_HostMemoryReadsBack :
    (machine [1] 1).mem.wf = true ∧ (machine [1] 1).busy = false ∧ 0xFFFFFFFF < 2 ^ (machine [1] 1).cfg.addrW ∧
    0x1000 < 2 ^ (machine [1] 1).cfg.addrW := by decide

/-- The last byte of the source span, of the destination span, and the byte after each. -/
theorem witness_SpanAccessWhileBusyIsRefused :
    runningEnc.busy = true ∧ decode runningEnc.cmd = .instr (.enc true) ∧
    (∀ a ∈ [0x1003, 0x1004, 0x2005, 0x2006], a < 2 ^ runningEnc.cfg.addrW) ∧
    0x1003 < runningEnc.srcPtr.toNat + runningEnc.srcLen.toInt.toNat ∧
    ¬ 0x1004 < runningEnc.srcPtr.toNat + runningEnc.srcLen.toInt.toNat ∧
    0x2005 < runningEnc.dstPtr.toNat + runningEnc.dstLen.toInt.toNat ∧
    ¬ 0x2006 < runningEnc.dstPtr.toNat + runningEnc.dstLen.toInt.toNat :=
  ⟨runningEnc_facts.1, runningEnc_facts.2.1, by decide, by decide, by decide, by decide, by decide⟩

theorem witness_AddressOutsideSpaceFaults : 2 ^ State.reset.cfg.addrW ≤ 0x100000000 := by decide

/-- The five clauses of the decode that name a command, and the first reserved opcodes after and before them. -/
theorem witness_DecodeByFields :
    ([0x11#32, 0x12#32, 0x03#32, 0x13#32, 0x04#32, 0x14#32, 0x05#32, 0x00#32].all fun w => w.toNat / 32 == 0) = true ∧
    (0x20 : Word).toNat / 32 ≠ 0 ∧ (0x05 : Word).toNat % 16 = 5 ∧ (0x13 : Word).toNat / 16 % 2 = 1 := by decide

theorem witness_ForwardTableClosedForm : (37 : Code).toNat < (38 : Code).toNat := by decide

/-- The largest 64-bit value, and 2^60, the least of 13 chunks. -/
theorem witness_ChunkCountIsLeast : (2 ^ 64 - 1 : Nat) < 2 ^ 64 ∧ (2 ^ 60 : Nat) < 2 ^ 64 := by norm_num

/-- Lengths 5 and 7: partial groups of two bytes and of three codes. The encoding of four bytes and the text of seven
codes each fit exactly, or miss by one unit. -/
theorem witness_LengthHelpersAgree :
    ((0 : Int) ≤ 5 ∧ (7 : Int) % 4 ≠ 1 ∧ (-1 : Int) < 0) ∧
    (Ready (machine [0xf2, 0x34, 0x56, 0xf1] 6) ∧ encodedLength (machine [0xf2, 0x34, 0x56, 0xf1] 6).srcLen.toInt false = 6) ∧
    (Ready (machine [0xf2, 0x34, 0x56, 0xf1] 5)) ∧
    (Ready (sevenCodes 5) ∧ (sevenCodes 5).srcBytes.all isText = true ∧ (sourceCodes (sevenCodes 5).srcBytes).length % 4 ≠ 1 ∧
      decodedLength (sourceCodes (sevenCodes 5).srcBytes).length = 5) ∧
    (Ready (sevenCodes 4) ∧ (sevenCodes 4).srcBytes.all isText = true ∧ (sourceCodes (sevenCodes 4).srcBytes).length % 4 ≠ 1) :=
  ⟨by decide,
    ⟨ready_of (by decide) (by decide) (by decide) (by decide) (by decide) (by decide) (by decide) (by decide) (by decide), by decide⟩,
    ready_of (by decide) (by decide) (by decide) (by decide) (by decide) (by decide) (by decide) (by decide) (by decide),
    ⟨ready_sevenCodes 5 (by simp), by decide, by decide, by decide⟩, ready_sevenCodes 4 (by simp), by decide, by decide⟩

/-- Program P2 and P5: four bytes at 0x1000, encoded into 8 at 0x2000, decoded to 0x6000. -/
theorem witness_LengthPrefixedRoundTrip :
    (machine [0xf2, 0x34, 0x56, 0xf1] 0).Wf ∧ (machine [0xf2, 0x34, 0x56, 0xf1] 0).busy = false ∧
    (0x1000 : Word).toNat + 4 ≤ 2 ^ (machine [0xf2, 0x34, 0x56, 0xf1] 0).cfg.addrW ∧
    (0x2000 : Word).toNat + 8 ≤ 2 ^ (machine [0xf2, 0x34, 0x56, 0xf1] 0).cfg.addrW ∧
    (0x6000 : Word).toNat + 4 ≤ 2 ^ (machine [0xf2, 0x34, 0x56, 0xf1] 0).cfg.addrW ∧
    (0x1000 : Word).toNat + 4 ≤ (0x2000 : Word).toNat ∧ (0x2000 : Word).toNat + 8 ≤ (0x6000 : Word).toNat ∧
    encodedLength 4 true ≤ 8 :=
  ⟨wf_of (by decide) (by decide) (by decide) (by decide) (by decide) (by decide), by decide, by decide, by decide, by decide,
    by decide, by decide, by decide⟩

/-- The output of P2 (a body of exactly the declared length, 4), with room one short; the same cut by one symbol; and
the empty message with a negative room. -/
theorem witness_DecodeLengthChecks :
    ((textMachine ['3', 'w', 'Y', 'G', 'L', '2', 'l'] 0).Wf ∧
      readSpan (textMachine ['3', 'w', 'Y', 'G', 'L', '2', 'l'] 0).mem 0x1000 7 = [4].map fwd ++ [0x77, 0x59, 0x47, 0x4C, 0x32, 0x6C] ∧
      isVarint [4] = true ∧ varintValue [4] = 4 ∧ encodedLength 4 false = 6 ∧ (3 : Int) < 4) ∧
    ((textMachine ['3', 'w', 'Y', 'G', 'L', '2'] 0).Wf ∧
      readSpan (textMachine ['3', 'w', 'Y', 'G', 'L', '2'] 0).mem 0x1000 6 = [4].map fwd ++ [0x77, 0x59, 0x47, 0x4C, 0x32]) ∧
    (textMachine ['-'] 0).Wf ∧ readSpan (textMachine ['-'] 0).mem 0x1000 1 = [0].map fwd ++ [] ∧
      isVarint [0] = true ∧ varintValue [0] = 0 ∧ encodedLength 0 false = 0 ∧ (-1 : Int) < 0 :=
  ⟨⟨wf_of (by decide) (by decide) (by decide) (by decide) (by decide) (by decide), by decide, by decide, by decide, by decide,
      by decide⟩,
    ⟨wf_of (by decide) (by decide) (by decide) (by decide) (by decide) (by decide), by decide⟩,
    wf_of (by decide) (by decide) (by decide) (by decide) (by decide) (by decide), by decide, by decide, by decide, by decide,
    by decide⟩

/-! ## The host's length-prefixed decode -/

/-- The value a host sequence returns, and the port reads it made, oldest first. -/
def returned : HostResult → Option (Int × List Observation)
  | .next (t, v) => some (v, t.observed.reverse)
  | .fault _ => none
  | .refused _ => none

/-- P5: the reads of the program's table, with `VALUE_HI` reading 0, and the value 4 returned. -/
theorem decode_l_program_p5 :
    returned (decodeL 0x1000 7 0x6000 4 (textMachine ['3', 'w', 'Y', 'G', 'L', '2', 'l'] 0)) =
      some (4, [.reg 0x04 0, .reg 0x08 1, .reg 0x1C 4, .reg 0x20 0, .reg 0x04 0, .reg 0x08 4]) := by
  decide

/-- R132: a negative room is less than every declared length, 0 among them. -/
theorem decode_l_negative_room :
    returned (decodeL 0x1000 1 0x6000 (-1) (textMachine ['-'] 0)) =
      some (-1, [.reg 0x04 0, .reg 0x08 1, .reg 0x1C 0, .reg 0x20 0]) := by
  decide

end Sys2Proof.Tests
end

section
/-! PROOFS. The register port: writes to the read-only registers (R17) and accesses that are not aligned words (R16). -/

namespace Sys2Proof.Machine

/-- R17: `STATUS` and `RESULT` do not take what is written to them. -/
@[simp] theorem State.writeReg_status (s : State) (w : Word) : s.writeReg .status w = s := rfl
@[simp] theorem State.writeReg_result_register (s : State) (w : Word) : s.writeReg .result w = s := rfl

/-- A host write to `r` on an idle machine starts no command and leaves the state as it was, where `r` keeps none of
the word. -/
theorem takeTurn_regWrite_of_writeReg_eq {s : State} {r : Reg} {w : Word} (hidle : s.busy = false) (hr : r ≠ .cmd)
    (hkeeps : s.writeReg r w = s) : takeTurn (.regWrite r.access w) s = .next s := by
  have hwrite : takeTurn (.regWrite r.access w) s = .next (s.writeReg r w) := takeTurn_wr w hidle hr
  rw [hwrite, hkeeps]

/-- An access is not an aligned word when its width or its offset is wrong (R16). -/
theorem PortAccess.aligned_eq_false_iff (a : PortAccess) :
    a.aligned = false ↔ a.width ≠ 32 ∨ a.offset.toNat % 4 ≠ 0 := by
  rw [PortAccess.aligned, Bool.and_eq_false_iff, decide_eq_false_iff_not, decide_eq_false_iff_not]

/-- The alignment check comes before every other check of a register access, also while `BUSY` = 1 (log 17). -/
theorem hostWrite_unaligned {a : PortAccess} (h : a.aligned = false) (w : Word) (s : State) :
    hostWrite a w s = .refused .portAccess := by simp [hostWrite, h]

theorem hostRead_unaligned {a : PortAccess} (h : a.aligned = false) (s : State) :
    hostRead a s = .refused .portAccess := by simp [hostRead, h]

/-- Settles O46: an idle machine's write turn is `writeReg`, which keeps the state at `STATUS` and at `RESULT`. -/
theorem statusAndResultIgnoreWrites : Obligations.StatusAndResultIgnoreWrites := by
  intro s w hidle
  constructor
  · exact takeTurn_regWrite_of_writeReg_eq (r := .status) hidle (by decide) (s.writeReg_status w)
  · exact takeTurn_regWrite_of_writeReg_eq (r := .result) hidle (by decide) (s.writeReg_result_register w)

/-- Settles O48: both kinds of bad access fail the alignment check, which the port makes first. -/
theorem unalignedAccessIsRefused : Obligations.UnalignedAccessIsRefused := by
  intro s a w hbad
  have hunaligned : a.aligned = false := a.aligned_eq_false_iff.mpr hbad
  exact ⟨hostWrite_unaligned hunaligned w s, hostRead_unaligned hunaligned s⟩

end Sys2Proof.Machine
end

section
/-! PROOFS. The spans of a command: the refusal of overlapping spans (R42), and the host's accesses to the spans of a
running command (R47). -/

namespace Sys2Proof.Machine

/-! ## Spans -/

theorem Span.has_iff (p : Span) (a : Nat) : p.has a = true ↔ p.base ≤ a ∧ a < p.base + p.len := by
  rw [Span.has, Bool.and_eq_true, decide_eq_true_eq, decide_eq_true_eq]

/-- R42: spans with an address in common are not apart. -/
theorem Span.apart_eq_false_of_has {p q : Span} {a : Nat} (hp : p.has a = true) (hq : q.has a = true) :
    p.apart q = false := by
  rw [Span.has_iff] at hp hq
  simp only [Span.apart, Bool.or_eq_false_iff, decide_eq_false_iff_not]
  omega

/-- R57: VWR is the only command without a source span. -/
theorem hasSource_iff (i : Instr) : hasSource i = true ↔ i ≠ .vwr := by cases i <;> simp [hasSource]

/-- R57: VRD is the only command without a destination span. -/
theorem hasDest_iff (i : Instr) : hasDest i = true ↔ i ≠ .vrd := by cases i <;> simp [hasDest]

theorem State.srcSpan_has_iff (s : State) (i : Instr) (a : Nat) :
    (s.srcSpan i).has a = true ↔
      i ≠ .vwr ∧ s.srcPtr.toNat ≤ a ∧ a < s.srcPtr.toNat + s.srcLen.toInt.toNat := by
  rw [Span.has_iff, ← hasSource_iff]
  cases h : hasSource i with
  | true => simp [State.srcSpan, State.srcCount, h]
  | false => simp [State.srcSpan, h]

theorem State.dstSpan_has_iff (s : State) (i : Instr) (a : Nat) :
    (s.dstSpan i).has a = true ↔
      i ≠ .vrd ∧ s.dstPtr.toNat ≤ a ∧ a < s.dstPtr.toNat + s.dstLen.toInt.toNat := by
  rw [Span.has_iff, ← hasDest_iff]
  cases h : hasDest i with
  | true => simp [State.dstSpan, State.dstCount, h]
  | false => simp [State.dstSpan, h]

/-- A command with one span has nothing that could overlap it: the other span is empty. -/
@[simp] theorem State.spansApart_vwr (s : State) : s.spansApart .vwr = true := by
  simp [State.spansApart, State.srcSpan, hasSource, Span.apart]

@[simp] theorem State.spansApart_vrd (s : State) : s.spansApart .vrd = true := by
  simp [State.spansApart, State.dstSpan, hasDest, Span.apart]

theorem State.lengthsOk_of_fits {s : State} (hsrc : SrcFits s) (hdst : DstFits s) (i : Instr) :
    s.lengthsOk i = true := by simp [State.lengthsOk, hsrc.1, hdst.1]

theorem State.spansInside_of_fits {s : State} (hsrc : SrcFits s) (hdst : DstFits s) (i : Instr) :
    s.spansInside i = true := by
  obtain ⟨-, hsrcTop⟩ := hsrc
  obtain ⟨-, hdstTop⟩ := hdst
  cases i <;>
    simp [State.spansInside, Span.inside, State.srcSpan, State.dstSpan, State.srcCount, State.dstCount, hasSource,
      hasDest, Config.space, hsrcTop, hdstTop]

/-! ## The refusals of a command -/

/-- Every command is its units run from its start (R56). -/
theorem exec_eq_runCommand (i : Instr) (s : State) : exec i s = runCommand i (commandUnit i) s := by cases i <;> rfl

/-- A unit of a running command goes on, or faults (R117). -/
theorem commandUnit_ne_refused (i : Instr) (s : State) (r : Refusal) : commandUnit i s ≠ .refused r := by
  cases i with
  | enc final => exact nofun
  | dec final => exact nofun
  | vwr => rcases vwrUnit_cases s with ⟨-, h⟩ | ⟨-, h⟩ <;> simp [commandUnit, h]
  | vrd =>
    rcases vrdUnit_cases s with ⟨c, -, -, hunit⟩ | ⟨-, -, hunit⟩ | ⟨-, hunit⟩
    · rcases vrdChunk_cases s c with ⟨h, -⟩ | ⟨h, -⟩ | ⟨h, -⟩ <;> simp [commandUnit, hunit, h]
    · simp [commandUnit, hunit]
    · simp [commandUnit, hunit]

/-- Units that refuse nothing run without a refusal. -/
theorem drive_ne_refused {unit : State → Result} (hunit : ∀ s r, unit s ≠ .refused r) (r : Refusal) :
    ∀ k s, drive unit k s ≠ .refused r := by
  intro k
  induction k with
  | zero => exact nofun
  | succ k ih =>
    intro s
    cases hb : s.busy with
    | false => simp [drive_idle unit _ hb]
    | true =>
      cases hu : unit s with
      | next t => rw [drive_step unit k hb hu]; exact ih t
      | fault f => simp [drive, hb, hu]
      | refused r' => exact absurd hu (hunit s r')

/-- A command is refused where it begins, or not at all. -/
theorem exec_eq_refused_iff (i : Instr) (s : State) (r : Refusal) :
    exec i s = .refused r ↔ beginCommand i s = .refused r := by
  rw [exec_eq_runCommand, runCommand]
  cases beginCommand i s with
  | next t => simp [drive_ne_refused (commandUnit_ne_refused i)]
  | fault f => simp
  | refused r' => simp

/-- R42, R139: when a command begins with the refusal of an overlap. -/
theorem beginCommand_eq_spansOverlap_iff (i : Instr) (s : State) :
    beginCommand i s = .refused .spansOverlap ↔
      s.busy = false ∧ s.lengthsOk i = true ∧ s.spansInside i = true ∧ s.spansApart i = false := by
  cases hb : s.busy with
  | true => simp [beginCommand, hb]
  | false =>
    have hbegin : beginCommand i s = s.start.accept i := by simp [beginCommand, hb]
    rw [hbegin]
    rcases s.start.accept_cases i with ⟨hlen, h⟩ | ⟨-, hin, h⟩ | ⟨hlen, hin, hapart, h⟩ | ⟨-, -, hapart, h⟩ <;>
      simp_all

theorem exec_eq_spansOverlap_iff (i : Instr) (s : State) :
    exec i s = .refused .spansOverlap ↔
      s.busy = false ∧ s.lengthsOk i = true ∧ s.spansInside i = true ∧ s.spansApart i = false :=
  (exec_eq_refused_iff i s _).trans (beginCommand_eq_spansOverlap_iff i s)

/-- Settles O29: a common address means the spans are not apart, where all checks before that one pass; VWR and VRD
have an empty span, which is apart from every other. -/
theorem overlappingSpansAreRefused : Obligations.OverlappingSpansAreRefused := by
  constructor
  · intro s final a hidle hsrc hdst hsrcLo hsrcHi hdstLo hdstHi
    have refuses (i : Instr) (hvwr : i ≠ .vwr) (hvrd : i ≠ .vrd) : exec i s = .refused .spansOverlap := by
      have hinSrc : (s.srcSpan i).has a = true := (s.srcSpan_has_iff i a).mpr ⟨hvwr, hsrcLo, hsrcHi⟩
      have hinDst : (s.dstSpan i).has a = true := (s.dstSpan_has_iff i a).mpr ⟨hvrd, hdstLo, hdstHi⟩
      exact (exec_eq_spansOverlap_iff i s).mpr ⟨hidle, State.lengthsOk_of_fits hsrc hdst i,
        State.spansInside_of_fits hsrc hdst i, Span.apart_eq_false_of_has hinSrc hinDst⟩
    exact ⟨refuses (.enc final) nofun nofun, refuses (.dec final) nofun nofun⟩
  · intro s
    constructor <;> simp [exec_eq_spansOverlap_iff]

/-! ## The host's accesses to memory while a command runs -/

section
variable {s : State} {a : Nat}

theorem State.guardedSrc_running {i : Instr} (hbusy : s.busy = true) (hcmd : decode s.cmd = .instr i) :
    s.guardedSrc = s.srcSpan i := by simp [State.guardedSrc, hbusy, hcmd]

theorem State.guardedDst_running {i : Instr} (hbusy : s.busy = true) (hcmd : decode s.cmd = .instr i) :
    s.guardedDst = s.dstSpan i := by simp [State.guardedDst, hbusy, hcmd]

theorem hostMemWrite_guarded (b : Byte) (hspace : a < s.cfg.space)
    (h : s.guardedSrc.has a = true ∨ s.guardedDst.has a = true) :
    hostMemWrite a b s = .refused .spanAccessWhileBusy := by
  rw [hostMemWrite, if_neg (Nat.not_le.mpr hspace), if_pos (Bool.or_eq_true_iff.mpr h)]

theorem hostMemWrite_unguarded (b : Byte) (hspace : a < s.cfg.space)
    (hsrc : ¬ s.guardedSrc.has a = true) (hdst : ¬ s.guardedDst.has a = true) :
    hostMemWrite a b s = .next { s with mem := s.mem.write a b } := by
  rw [hostMemWrite, if_neg (Nat.not_le.mpr hspace),
    if_neg (fun h => (Bool.or_eq_true_iff.mp h).elim hsrc hdst)]

theorem hostMemRead_guarded (hspace : a < s.cfg.space) (h : s.guardedDst.has a = true) :
    hostMemRead a s = .refused .spanAccessWhileBusy := by
  rw [hostMemRead, if_neg (Nat.not_le.mpr hspace), if_pos h]

theorem hostMemRead_unguarded (hspace : a < s.cfg.space) (h : ¬ s.guardedDst.has a = true) :
    hostMemRead a s = .next { s with observed := .mem a (s.mem.read a) :: s.observed } := by
  rw [hostMemRead, if_neg (Nat.not_le.mpr hspace), if_neg h]

end

/-- Settles O53: the guarded spans of a running command are its own, and each access asks only whether its address is
in them. -/
theorem spanAccessWhileBusyIsRefused : Obligations.SpanAccessWhileBusyIsRefused := by
  intro s i a b hbusy hcmd hspace
  rw [← s.srcSpan_has_iff i a, ← s.dstSpan_has_iff i a, ← State.guardedSrc_running hbusy hcmd,
    ← State.guardedDst_running hbusy hcmd]
  exact ⟨hostMemWrite_guarded b hspace, hostMemWrite_unguarded b hspace, hostMemRead_guarded hspace,
    hostMemRead_unguarded hspace⟩

end Sys2Proof.Machine
end

section
/-! PROOFS. Command words: the fields of a word as numbers (R52), decode and encode as inverses (R53, R54), and what an
illegal word does on an idle block (R55, R56). -/

namespace Sys2Proof

/-! ## The fields of a word -/

section
variable (w : Word) (c : CmdFields)

theorem wordFields_rsv_toNat : (wordFields w).rsv.toNat = w.toNat / 32 := by
  have hw := w.isLt
  simp only [wordFields, BitVec.extractLsb'_toNat, Nat.shiftRight_eq_div_pow]
  omega

theorem wordFields_op_toNat : (wordFields w).op.toNat = w.toNat % 16 := by
  simp [wordFields]

theorem wordFields_f : (wordFields w).f = (w.toNat / 16 % 2 == 1) := by
  simp [wordFields, BitVec.getLsbD, Nat.testBit_eq_decide_div_mod_eq, Bool.beq_eq_decide_eq]

/-- R52: the three fields of a word are given by three numbers of it. -/
theorem wordFields_eq_iff : wordFields w = c ↔
    w.toNat / 32 = c.rsv.toNat ∧ (w.toNat / 16 % 2 == 1) = c.f ∧ w.toNat % 16 = c.op.toNat := by
  rw [← wordFields_rsv_toNat, ← wordFields_f, ← wordFields_op_toNat, ← BitVec.toNat_eq, ← BitVec.toNat_eq]
  cases c
  cases wordFields w
  rw [CmdFields.mk.injEq]
  tauto

theorem fieldsWord_toNat : (fieldsWord c).toNat = c.rsv.toNat * 32 + c.f.toNat * 16 + c.op.toNat := by
  have hrsv := c.rsv.isLt
  have hop := c.op.isLt
  have hf := c.f.toNat_le
  rw [fieldsWord, BitVec.toNat_ofNat]
  omega

/-- The three fields do not overlap, so each is read back from the word they make. -/
theorem wordFields_fieldsWord : wordFields (fieldsWord c) = c := by
  have hop := c.op.isLt
  rw [wordFields_eq_iff, fieldsWord_toNat]
  cases c.f <;> simp <;> omega

/-- The three fields cover the whole word. -/
theorem fieldsWord_wordFields : fieldsWord (wordFields w) = w := by
  apply BitVec.eq_of_toNat_eq
  rw [fieldsWord_toNat, wordFields_rsv_toNat, wordFields_op_toNat, wordFields_f]
  rcases Nat.mod_two_eq_zero_or_one (w.toNat / 16) with hf | hf <;> simp [hf] <;> omega

theorem wordFields_eq_iff_eq_fieldsWord : wordFields w = c ↔ w = fieldsWord c := by
  constructor
  · rintro rfl
    exact (fieldsWord_wordFields w).symm
  · rintro rfl
    exact wordFields_fieldsWord c

end

/-! ## Decode and encode -/

theorem decodeFields_fields (i : Instr) : decodeFields i.fields = .instr i := by cases i <;> rfl

/-- Each branch of the decode that answers a command has fixed all three fields. -/
theorem fields_of_decodeFields_eq_instr {c : CmdFields} {i : Instr} (h : decodeFields c = .instr i) :
    c = i.fields := by
  obtain ⟨op, f, rsv⟩ := c
  unfold decodeFields at h
  split_ifs at h <;> cases h
  -- the branches of ENC, DEC, VWR and VRD are left
  all_goals simp_all [Instr.fields]

theorem decode_eq_instr_iff_fields (w : Word) (i : Instr) : decode w = .instr i ↔ wordFields w = i.fields := by
  constructor
  · exact fields_of_decodeFields_eq_instr
  · intro h
    rw [decode, h, decodeFields_fields]

theorem decode_eq_instr_iff (w : Word) (i : Instr) : decode w = .instr i ↔ w = encode i :=
  (decode_eq_instr_iff_fields w i).trans (wordFields_eq_iff_eq_fieldsWord w i.fields)

theorem decode_illegal_iff (w : Word) : (∃ why, decode w = .illegal why) ↔ ∀ i, decode w ≠ .instr i := by
  cases decode w <;> simp

/-- Settles O2: `wordFields` and `fieldsWord` are inverses, and the fields that decode to a command are the command's
own. -/
theorem decodeIffEncode : Obligations.DecodeIffEncode :=
  ⟨decode_eq_instr_iff, rfl, rfl, rfl, rfl, rfl, rfl⟩

/-! ## The decode by numbers -/

/-- `RSV` of a command is 0. -/
theorem Instr.fields_rsv (i : Instr) : i.fields.rsv = 0 := by cases i <;> rfl

theorem decode_eq_instr_iff_toNat (w : Word) (i : Instr) : decode w = .instr i ↔
    w.toNat / 32 = 0 ∧ (w.toNat / 16 % 2 == 1) = i.fields.f ∧ w.toNat % 16 = i.fields.op.toNat := by
  rw [decode_eq_instr_iff_fields, wordFields_eq_iff, i.fields_rsv]
  rfl

/-- A word is illegal when its numbers are no command's. -/
theorem decode_illegal_of_toNat {w : Word} (h : ∀ i : Instr, w.toNat / 32 = 0 →
    (w.toNat / 16 % 2 == 1) = i.fields.f → w.toNat % 16 ≠ i.fields.op.toNat) : ∃ why, decode w = .illegal why := by
  rw [decode_illegal_iff]
  intro i hi
  obtain ⟨hrsv, hf, hop⟩ := (decode_eq_instr_iff_toNat w i).mp hi
  exact h i hrsv hf hop

/-- R55: a word with `OP` = 0x0 or 0x5..0xF is illegal. -/
theorem decode_illegal_of_reserved {w : Word} (hop : w.toNat % 16 = 0 ∨ 5 ≤ w.toNat % 16) :
    ∃ why, decode w = .illegal why := by
  apply decode_illegal_of_toNat
  intro i _ _
  cases i <;> simp [Instr.fields] <;> omega

/-- R55: a word with `F` = 1 and the `OP` of VWR or VRD is illegal: the `OP` is not that of ENC or DEC, and the two
others have `F` = 0. -/
theorem decode_illegal_of_final {w : Word} (hf : w.toNat / 16 % 2 = 1) (hop : w.toNat % 16 = 3 ∨ w.toNat % 16 = 4) :
    ∃ why, decode w = .illegal why := by
  apply decode_illegal_of_toNat
  intro i _ hfi hopi
  rw [hf] at hfi
  cases i with
  | enc final => change w.toNat % 16 = 1 at hopi; omega
  | dec final => change w.toNat % 16 = 2 at hopi; omega
  | vwr => cases hfi
  | vrd => cases hfi

/-- Settles O1: a legal clause names the numbers of its command's fields; in an illegal clause they differ from every
command's. -/
theorem decodeByFields : Obligations.DecodeByFields := by
  intro w
  constructor
  · exact fun hrsv => decode_illegal_of_toNat fun i h => absurd h hrsv
  · intro hrsv
    have legal (i : Instr) (hf : (w.toNat / 16 % 2 == 1) = i.fields.f) (hop : w.toNat % 16 = i.fields.op.toNat) :
        decode w = .instr i := (decode_eq_instr_iff_toNat w i).mpr ⟨hrsv, hf, hop⟩
    refine ⟨?enc, ?dec, ?vwr, ?vwrFinal, ?vrd, ?vrdFinal, ?reserved⟩
    case enc => exact legal (.enc _) rfl
    case dec => exact legal (.dec _) rfl
    case vwr => exact fun hop hf => legal .vwr (by rw [hf]; rfl) hop
    case vrd => exact fun hop hf => legal .vrd (by rw [hf]; rfl) hop
    case vwrFinal => exact fun hop hf => decode_illegal_of_final hf (.inl hop)
    case vrdFinal => exact fun hop hf => decode_illegal_of_final hf (.inr hop)
    case reserved => exact decode_illegal_of_reserved

end Sys2Proof

namespace Sys2Proof.Machine

/-! ## Illegal words -/

/-- The six words of R53's table. -/
def legalWords : List Word := [0x00000001, 0x00000011, 0x00000002, 0x00000012, 0x00000003, 0x00000004]

theorem encode_mem_legalWords (i : Instr) : encode i ∈ legalWords := by
  have hlegal : Laws.LegalWord.Statement i := by
    cases i with
    | enc final => exact Laws.LegalWord.enc final
    | dec final => exact Laws.LegalWord.dec final
    | vwr => exact Laws.LegalWord.vwr
    | vrd => exact Laws.LegalWord.vrd
  obtain ⟨-, -, hmem⟩ := hlegal
  exact hmem

/-- The table leaves out no command and holds no other word. -/
theorem mem_legalWords_iff (w : Word) : w ∈ legalWords ↔ ∃ i, w = encode i := by
  constructor
  · intro h
    simp only [legalWords, List.mem_cons, List.not_mem_nil, or_false] at h
    rcases h with rfl | rfl | rfl | rfl | rfl | rfl
    exacts [⟨.enc false, rfl⟩, ⟨.enc true, rfl⟩, ⟨.dec false, rfl⟩, ⟨.dec true, rfl⟩, ⟨.vwr, rfl⟩, ⟨.vrd, rfl⟩]
  · rintro ⟨i, rfl⟩
    exact encode_mem_legalWords i

theorem decode_illegal_iff_not_mem (w : Word) : (∃ why, decode w = .illegal why) ↔ w ∉ legalWords := by
  simp only [decode_illegal_iff, mem_legalWords_iff, not_exists, ne_eq, decode_eq_instr_iff]

/-- R56 (1): on an idle block a host write of `CMD` stores the word and runs it. -/
theorem takeTurn_regWrite_cmd {s : State} (hidle : s.busy = false) (w : Word) :
    takeTurn (.regWrite Reg.cmd.access w) s = runWord w (s.writeReg .cmd w) := by
  simp [takeTurn, hostWrite, hidle]

theorem runWord_illegal {w : Word} {why : Illegal} (h : decode w = .illegal why) (s : State) :
    runWord w s = .next (runIllegal s) := by
  rw [runWord, h]

/-- `BUSY` rises and falls within an illegal word's run, so an idle block sees `RESULT` and the transient state only. -/
theorem runIllegal_of_idle {s : State} (hidle : s.busy = false) :
    runIllegal s = { s with result := BitVec.ofInt 32 (-6), engine := Engine.start } := by
  cases s
  cases hidle
  rfl

/-- Settles O4: a word is illegal when it is no command's, and an idle block's `CMD` write runs it as `runIllegal`. -/
theorem illegalWordsOnlySetResult : Obligations.IllegalWordsOnlySetResult := by
  refine ⟨decode_illegal_iff_not_mem, fun s w why hidle hw => ?_⟩
  have hidle' : (s.writeReg .cmd w).busy = false := (s.writeReg_busy w .cmd).trans hidle
  rw [takeTurn_regWrite_cmd hidle, runWord_illegal hw, runIllegal_of_idle hidle']
  rfl

end Sys2Proof.Machine
end

section
/-! PROOFS. The alphabet tables: the forward table in closed form (R70), and the reverse table as its inverse, with the
four whitespace bytes (R72). -/

namespace Sys2Proof.Machine

/-- R70: the five runs of symbols in the table of R69, each at a fixed distance from its codes. -/
theorem fwd_toNat (c : Code) : (fwd c).toNat =
    if c.toNat = 0 then 0x2D
    else if c.toNat ≤ 10 then 0x2F + c.toNat
    else if c.toNat ≤ 36 then 0x36 + c.toNat
    else if c.toNat = 37 then 0x5F
    else 0x3B + c.toNat := by
  revert c
  decide

/-- R73, second half: each range of symbols in `rev` gives the code at its own distance from the byte, so the forward
table leads back to the byte. -/
theorem fwd_of_rev_eq_code {b : Byte} {c : Code} (h : rev b = .code c) : fwd c = b := by
  rw [BitVec.toNat_eq, fwd_toNat]
  simp only [rev] at h
  split_ifs at h
  -- the five branches of symbols are left
  all_goals
    simp only [SymbolClass.code.injEq, BitVec.toNat_eq, BitVec.ofNat_eq_ofNat, BitVec.toNat_ofNat] at h
    split_ifs <;> omega

/-- R73, first half, entry by entry of the table. -/
theorem rev_fwd (c : Code) : rev (fwd c) = .code c := by
  revert c
  decide

theorem rev_eq_code_iff (b : Byte) (c : Code) : rev b = .code c ↔ fwd c = b := by
  constructor
  · exact fwd_of_rev_eq_code
  · rintro rfl
    exact rev_fwd c

/-- The branch of `rev` that answers whitespace names the four bytes, and none of them is in a range of symbols. -/
theorem rev_eq_whitespace_iff (b : Byte) :
    rev b = .whitespace ↔ b = 0x09 ∨ b = 0x0A ∨ b = 0x0D ∨ b = 0x20 := by
  constructor
  · intro h
    simp only [rev] at h
    split_ifs at h with _ _ _ _ _ hspace
    simpa [BitVec.toNat_eq] using hspace
  · rintro (rfl | rfl | rfl | rfl) <;> rfl

/-- R72: a byte is invalid when it is in neither of the two other classes. -/
theorem rev_eq_invalid_iff (b : Byte) :
    rev b = .invalid ↔ (∀ c, rev b ≠ .code c) ∧ ¬ rev b = .whitespace := by
  cases rev b <;> simp

/-- Settles O9: `rev` inverts `fwd`, has the four whitespace bytes, and its third class is the complement of these. -/
theorem reverseTableByForward : Obligations.ReverseTableByForward := by
  intro b
  refine ⟨rev_eq_code_iff b, rev_eq_whitespace_iff b, ?_⟩
  rw [rev_eq_invalid_iff, rev_eq_whitespace_iff]
  simp only [ne_eq, rev_eq_code_iff]

end Sys2Proof.Machine
end

section
/-! PROOFS. The negative lengths of a command (R40, R80, R92, R108, R113): they end it at its entry checks. -/

namespace Sys2Proof.Machine

/-- R40: a command's lengths are wrong when a span it has is of negative length. -/
theorem State.lengthsOk_eq_false_iff (s : State) (i : Instr) :
    s.lengthsOk i = false ↔ i ≠ .vwr ∧ s.srcLen.toInt < 0 ∨ i ≠ .vrd ∧ s.dstLen.toInt < 0 := by
  rw [← hasSource_iff, ← hasDest_iff, State.lengthsOk, Bool.and_eq_false_iff]
  simp

/-- R139: the lengths are checked before the spans, so a wrong length alone decides how the command begins. -/
theorem beginCommand_rejects {s : State} {i : Instr} (hidle : s.busy = false) (hlen : s.lengthsOk i = false) :
    beginCommand i s = .next (s.start.reject .invalidLength) := by
  have hbegin : beginCommand i s = s.start.accept i := by simp [beginCommand, hidle]
  rw [hbegin]
  rcases s.start.accept_cases i with ⟨-, h⟩ | ⟨hok, -⟩ | ⟨hok, -⟩ | ⟨hok, -⟩
  · exact h
  all_goals simp [hlen] at hok

/-- A rejected command is no longer busy, so none of its units runs. -/
theorem exec_rejects {s : State} {i : Instr} (hidle : s.busy = false) (hlen : s.lengthsOk i = false) :
    exec i s = .next (s.start.reject .invalidLength) := by
  rw [exec_eq_runCommand, runCommand, beginCommand_rejects hidle hlen]
  exact drive_idle (commandUnit i) _ (State.reject_busy _ _)

/-- `BUSY` rises and falls within a rejected command, so an idle block sees `RESULT` and the transient state only. -/
theorem reject_start_of_idle {s : State} (hidle : s.busy = false) (st : Status) :
    s.start.reject st = { s with result := st.code, engine := Engine.start } := by
  cases s
  cases hidle
  rfl

/-- Settles O27: each command's own negative length fails its length check, which rejects it with -5. -/
theorem negativeLengthOnlySetsResult : Obligations.NegativeLengthOnlySetsResult := by
  intro s hidle
  have rejects (i : Instr) (hneg : i ≠ .vwr ∧ s.srcLen.toInt < 0 ∨ i ≠ .vrd ∧ s.dstLen.toInt < 0) :
      exec i s = .next { s with result := BitVec.ofInt 32 (-5), engine := Engine.start } := by
    rw [exec_rejects hidle ((s.lengthsOk_eq_false_iff i).mpr hneg), reject_start_of_idle hidle]
    rfl
  refine ⟨fun hneg final => ⟨rejects (.enc final) ?_, rejects (.dec final) ?_⟩,
    fun hdst => rejects .vwr (.inr ⟨nofun, hdst⟩), fun hsrc => rejects .vrd (.inl ⟨nofun, hsrc⟩)⟩
  -- ENC and DEC have both spans
  all_goals exact hneg.imp (⟨nofun, ·⟩) (⟨nofun, ·⟩)

end Sys2Proof.Machine
end

section
/-! PROOFS. What a completion with the write-back leaves (R58), and the entry of a command on a ready machine
(R41, R42). -/

namespace Sys2Proof.Machine

/-! ## The write-back -/

theorem truncAddr_toNat (c : Config) (w : Word) : (truncAddr c w).toNat = w.toNat % 2 ^ c.addrW := by
  rw [truncAddr, BitVec.toNat_ofNat]
  exact Nat.mod_eq_of_lt (lt_of_le_of_lt (Nat.mod_le _ _) w.isLt)

/-- A cursor moves within the memory space, which is no larger than the 32 bits the sum is taken in (R8, R18). -/
theorem truncAddr_add_toNat {c : Config} (hc : c.wf = true) (p : Word) (n : Nat) :
    (truncAddr c (p + BitVec.ofNat 32 n)).toNat = (p.toNat + n) % 2 ^ c.addrW := by
  obtain ⟨-, haddr⟩ : 1 ≤ c.addrW ∧ c.addrW ≤ 32 := by simpa [Config.wf] using hc
  rw [truncAddr_toNat, BitVec.toNat_add, BitVec.toNat_ofNat, Nat.add_mod_mod]
  exact Nat.mod_mod_of_dvd _ (Nat.pow_dvd_pow 2 haddr)

/-- A length shrinks by an offset inside its span without wrapping (R58). -/
theorem sub_ofNat_toInt {l : Word} {n : Nat} (hl : 0 ≤ l.toInt) (hn : n ≤ l.toInt.toNat) :
    (l - BitVec.ofNat 32 n).toInt = l.toInt - n := by
  have hlt := BitVec.toInt_lt (x := l)
  rw [BitVec.toInt_sub, BitVec.toInt_ofNat', Int.sub_bmod_bmod]
  simp only [Int.bmod_def]
  omega

theorem readSpan_writeBytes {m : Memory} (hm : m.wf = true) (x : Nat) (bs : List Byte) :
    readSpan (m.writeBytes x bs) x bs.length = bs := by
  refine List.ext_getElem (by simp [readSpan]) fun k hk hk' => ?_
  simp [readSpan, Memory.read_writeBytes bs x (x + k) hm, hk']

theorem Status.code_toInt (st : Status) : st.code.toInt = st.toInt := by cases st <;> rfl

/-- Bytes written right after others are written with them. -/
theorem State.emit_emit (s : State) (out more : List Byte) :
    (s.emit 0 out).emit out.length more = s.emit 0 (out ++ more) :=
  congrArg (fun m => { s with mem := m }) (Memory.writeBytes_append out more s.mem s.dstPtr.toNat)

theorem Span.apart_iff (p q : Span) :
    p.apart q = true ↔ p.len = 0 ∨ q.len = 0 ∨ p.base + p.len ≤ q.base ∨ q.base + q.len ≤ p.base := by
  simp [Span.apart, or_assoc]

section
variable {s : State} (hready : Ready s) {out : List Byte} (e : Engine) {srcOut : Nat}
include hready

/-- The write-back of a command that has written `out`, and whose cursors stay in their spans. -/
theorem Ready.completes_writeBack (o : Word) (hsrcOut : srcOut ≤ s.srcCount) (hout : out.length ≤ s.dstCount) :
    Completes s (((s.start.emit 0 out).withEngine e).writeBack o srcOut out.length).clearBusy o.toInt srcOut
      out.length out where
  busy := rfl
  result := rfl
  srcPtr := truncAddr_add_toNat hready.wf.cfgOk _ _
  srcLen := sub_ofNat_toInt hready.src.1 hsrcOut
  dstPtr := truncAddr_add_toNat hready.wf.cfgOk _ _
  dstLen := sub_ofNat_toInt hready.dst.1 hout
  written := ⟨rfl, readSpan_writeBytes hready.wf.memOk _ _⟩
  others a ha := (Memory.read_writeBytes out _ a hready.wf.memOk).trans (if_neg (by simp; omega))
  rest := ⟨rfl, rfl, rfl, rfl, rfl⟩

theorem Ready.completes_raise (st : Status) (hsrcOut : srcOut ≤ s.srcCount) (hout : out.length ≤ s.dstCount) :
    Completes s (((s.start.emit 0 out).withEngine e).raise st srcOut out.length) st.toInt srcOut out.length out :=
  st.code_toInt ▸ hready.completes_writeBack e st.code hsrcOut hout

/-! ## A ready machine -/

/-- R42: what a command has written leaves its source bytes as they were. -/
theorem Ready.srcByte_emit {k : Nat} (hk : k < s.srcCount) (hout : out.length ≤ s.dstCount) :
    (s.start.emit 0 out).srcByte k = s.srcByte k := by
  have hapart := hready.apart
  simp only [State.srcCount, State.dstCount] at hk hout
  exact (Memory.read_writeBytes out _ _ hready.wf.memOk).trans (if_neg (by simp; omega))

/-- R42: the spans of a command are empty or those of the registers. -/
theorem Ready.spansApart (i : Instr) : s.spansApart i = true := by
  have hapart := hready.apart
  rw [State.spansApart, Span.apart_iff]
  simp only [State.srcSpan, State.dstSpan, State.srcCount, State.dstCount]
  split_ifs <;> omega

/-- R56: a command on a ready machine is its units from the start. -/
theorem Ready.exec_eq_drive (i : Instr) : exec i s = drive (commandUnit i) (s.srcCount + 1) s.start := by
  rw [exec_eq_runCommand]
  exact runCommand_starts hready.idle (State.lengthsOk_of_fits hready.src hready.dst i)
    (State.spansInside_of_fits hready.src hready.dst i) (hready.spansApart i)

end

/-- The source bytes, one at a time: the byte after `before` stands at the read offset `before.length` (R37). -/
theorem State.srcBytes_eq_append_cons {s : State} {before after : List Byte} {b : Byte}
    (h : s.srcBytes = before ++ b :: after) : before.length < s.srcCount ∧ s.srcByte before.length = b := by
  have hlen : before.length < s.srcBytes.length := by simp [h]
  have hbyte : s.srcBytes[before.length] = b := by simp [h]
  simp only [State.srcBytes, readSpan, List.length_map, List.length_range, List.getElem_map,
    List.getElem_range] at hlen hbyte
  exact ⟨hlen, hbyte⟩

end Sys2Proof.Machine
end

section
/-! PROOFS. The groups of an encoded text (R60, R65, R93): the codes of a text read byte by byte, the offsets after
them, the complete groups among them, and the group that is still open. -/

namespace Sys2Proof.Machine

/-! ## The codes of a text -/

theorem isText_iff (b : Byte) : isText b = true ↔ rev b = .whitespace ∨ ∃ c, rev b = .code c := by
  cases h : rev b <;> simp [isText, h]

theorem codeOf_eq_some_iff (b : Byte) (c : Code) : codeOf b = some c ↔ rev b = .code c := by
  cases h : rev b <;> simp [codeOf, h]

theorem codeOf_whitespace {b : Byte} (h : rev b = .whitespace) : codeOf b = none := by simp [codeOf, h]

theorem sourceCodes_append (text more : List Byte) : sourceCodes (text ++ more) = sourceCodes text ++ sourceCodes more :=
  List.filterMap_append

theorem sourceCodes_concat_whitespace (text : List Byte) {b : Byte} (h : rev b = .whitespace) :
    sourceCodes (text ++ [b]) = sourceCodes text := by simp [sourceCodes, codeOf_whitespace h]

theorem sourceCodes_concat_code (text : List Byte) {b : Byte} {c : Code} (h : rev b = .code c) :
    sourceCodes (text ++ [b]) = sourceCodes text ++ [c] := by simp [sourceCodes, (codeOf_eq_some_iff b c).mpr h]

theorem sourceCodes_length_cons (b : Byte) (bs : List Byte) :
    (sourceCodes (b :: bs)).length = (sourceCodes bs).length + if (codeOf b).isSome then 1 else 0 := by
  cases h : codeOf b <;> simp [sourceCodes, h]

/-! ## Offsets after the codes of a text -/

theorem afterCodes_le_length (k : Nat) (text : List Byte) : afterCodes k text ≤ text.length := by
  induction text generalizing k with
  | nil => cases k <;> simp [afterCodes]
  | cons b bs ih =>
    cases k with
    | zero => simp [afterCodes]
    | succ k =>
      have hrest := ih (if (codeOf b).isSome then k else k + 1)
      simp only [afterCodes, List.length_cons]
      omega

/-- What follows a text does not move the offsets of the codes inside it. -/
theorem afterCodes_append {k : Nat} {text : List Byte} (hk : k ≤ (sourceCodes text).length) (more : List Byte) :
    afterCodes k (text ++ more) = afterCodes k text := by
  induction text generalizing k with
  | nil => simp_all [sourceCodes, afterCodes]
  | cons b bs ih =>
    cases k with
    | zero => rfl
    | succ k =>
      rw [sourceCodes_length_cons] at hk
      simp only [List.cons_append, afterCodes]
      rw [ih (by split <;> simp_all)]

/-- The last byte of a text that ends in a code is that code's. -/
theorem afterCodes_concat_code (text : List Byte) {b : Byte} {c : Code} (h : rev b = .code c) :
    afterCodes ((sourceCodes text).length + 1) (text ++ [b]) = text.length + 1 := by
  induction text with
  | nil => simp [sourceCodes, afterCodes, codeOf, h]
  | cons a as ih =>
    cases ha : codeOf a <;> simp [sourceCodes, afterCodes, ha] at ih ⊢ <;> omega

/-! ## Complete groups and the open one -/

/-- The codes of the complete groups (R60). -/
def wholeGroups (cs : List Code) : List Code := cs.take (4 * (cs.length / 4))

/-- The codes after the last complete group: at most three (R61, R62). -/
def openGroup (cs : List Code) : List Code := cs.drop (4 * (cs.length / 4))

theorem wholeGroups_append_openGroup (cs : List Code) : wholeGroups cs ++ openGroup cs = cs := List.take_append_drop _ cs

theorem wholeGroups_length (cs : List Code) : (wholeGroups cs).length = 4 * (cs.length / 4) := by
  simp only [wholeGroups, List.length_take]
  omega

theorem openGroup_length (cs : List Code) : (openGroup cs).length = cs.length % 4 := by
  simp only [openGroup, List.length_drop]
  omega

section
variable {cs : List Code} (c : Code)

theorem wholeGroups_concat_open (h : cs.length % 4 + 1 ≠ 4) : wholeGroups (cs ++ [c]) = wholeGroups cs := by
  have hgroups : (cs.length + 1) / 4 = cs.length / 4 := by omega
  simp only [wholeGroups, List.length_append, List.length_singleton, hgroups]
  exact List.take_append_of_le_length (by omega)

theorem openGroup_concat_open (h : cs.length % 4 + 1 ≠ 4) : openGroup (cs ++ [c]) = openGroup cs ++ [c] := by
  have hgroups : (cs.length + 1) / 4 = cs.length / 4 := by omega
  simp only [openGroup, List.length_append, List.length_singleton, hgroups]
  exact List.drop_append_of_le_length (by omega)

theorem openGroup_concat_closed (h : cs.length % 4 + 1 = 4) : openGroup (cs ++ [c]) = [] :=
  List.drop_eq_nil_of_le (by simp only [List.length_append, List.length_singleton]; omega)

theorem wholeGroups_concat_closed (h : cs.length % 4 + 1 = 4) :
    wholeGroups (cs ++ [c]) = wholeGroups cs ++ (openGroup cs ++ [c]) := by
  have hall := wholeGroups_append_openGroup (cs ++ [c])
  rw [openGroup_concat_closed c h, List.append_nil] at hall
  rw [hall, ← List.append_assoc, wholeGroups_append_openGroup]

end

/-! ## The bytes of complete groups -/

/-- R60: groups decode one after the other. -/
theorem decodeCodes_append {cs : List Code} (h : cs.length % 4 = 0) (ds : List Code) :
    decodeCodes (cs ++ ds) = decodeCodes cs ++ decodeCodes ds := by
  induction cs using decodeCodes.induct with
  | case1 => rfl
  | case2 | case3 | case4 => simp at h
  | case5 c0 c1 c2 c3 rest ih => simp [decodeCodes, ih (by simp at h; omega)]

theorem decodeCodes_length {cs : List Code} (h : cs.length % 4 = 0) : (decodeCodes cs).length = 3 * (cs.length / 4) := by
  induction cs using decodeCodes.induct with
  | case1 => rfl
  | case2 | case3 | case4 => simp at h
  | case5 c0 c1 c2 c3 rest ih =>
    have hrest := ih (by simp at h; omega)
    simp only [decodeCodes, List.length_cons, hrest]
    omega

theorem decodeCodes_wholeGroups_length (cs : List Code) :
    (decodeCodes (wholeGroups cs)).length = 3 * (cs.length / 4) := by
  have hlen := wholeGroups_length cs
  rw [decodeCodes_length (by omega)]
  omega

/-- R95: a code takes the six low bits, and what was gathered moves up by six. -/
theorem shiftCode_getElem (acc : Acc) (c : Code) {i : Nat} (hi : i < 24) :
    (shiftCode acc c)[i] = if i < 6 then c.getLsbD i else acc.getLsbD (i - 6) := by
  by_cases h : i < 6
  · simp [shiftCode, h]
  · have hc : c.getLsbD i = false := BitVec.getLsbD_of_ge _ _ (by omega)
    simp [shiftCode, h, hc, hi, ← BitVec.getLsbD_eq_getElem]

/-- R60, R96: the accumulator of a complete group is the group's three bytes, bit for bit. -/
theorem accBytes_group (c0 c1 c2 c3 : Code) :
    accBytes (shiftCode (shiftCode (shiftCode (shiftCode 0 c0) c1) c2) c3) 3 = decodeCodes [c0, c1, c2, c3] := by
  have hhigh (i : Nat) := BitVec.getLsbD_append (x := c0) (y := c1.extractLsb' 4 2) (i := i)
  have hmid (i : Nat) := BitVec.getLsbD_append (x := c1.extractLsb' 0 4) (y := c2.extractLsb' 2 4) (i := i)
  have hlow (i : Nat) := BitVec.getLsbD_append (x := c2.extractLsb' 0 2) (y := c3) (i := i)
  simp only [accBytes, decodeCodes, List.range, List.range.loop, List.map_cons, List.map_nil, List.cons.injEq, and_true]
  refine ⟨?_, ?_, ?_⟩ <;> refine BitVec.eq_of_getLsbD_eq fun i hi => ?_
  · rw [hhigh]
    interval_cases i <;> simp [shiftCode_getElem]
  · rw [hmid]
    interval_cases i <;> simp [shiftCode_getElem]
  · rw [hlow]
    interval_cases i <;> simp [shiftCode_getElem]

/-- The same of a complete group as a list, as the codes are gathered one by one. -/
theorem accBytes_foldl_shiftCode {cs : List Code} (h : cs.length = 4) :
    accBytes (cs.foldl shiftCode 0) 3 = decodeCodes cs := by
  obtain ⟨c0, c1, c2, c3, rfl⟩ := List.length_eq_four.mp h
  exact accBytes_group c0 c1 c2 c3

end Sys2Proof.Machine
end

section
/-! PROOFS. DEC on a source that begins with a text (R91 to R96): the running command after any number of the
text's bytes, and the two ends it can come to there, an invalid byte (R94) and a group without room (R96, R139). -/

namespace Sys2Proof.Machine

/-! ## One unit of DEC, by the byte it reads

`decUnit_cases` does not name the class of the byte at a group without room; here each class has its equation. -/

/-- The transient state after a code, before its group is looked at (R95). -/
def Engine.gather (e : Engine) (c : Code) : Engine :=
  { e with acc := shiftCode e.acc c, fill := e.fill + 1, s := e.s + 1, gstart := if e.fill = 0 then e.s else e.gstart }

section
variable (final : Bool) {s : State} (hs : s.engine.s < s.srcCount)
include hs

theorem decUnit_whitespace (hb : rev (s.srcByte s.engine.s) = .whitespace) :
    decUnit final s = .next (s.withEngine { s.engine with s := s.engine.s + 1 }) := by
  simp [decUnit, hs, decByte, hb]

theorem decUnit_invalid (hb : rev (s.srcByte s.engine.s) = .invalid) :
    decUnit final s = .next (s.raise .invalidSourceData s.engine.s s.engine.d) := by
  simp [decUnit, hs, decByte, hb]

variable {c : Code} (hb : rev (s.srcByte s.engine.s) = .code c)
include hb

theorem decUnit_code_open (hfill : s.engine.fill + 1 ≠ 4) :
    decUnit final s = .next (s.withEngine (s.engine.gather c)) := by
  simp [decUnit, hs, decByte, hb, decCode, hfill, Engine.gather]

theorem decUnit_code_closed (hfill : s.engine.fill + 1 = 4) :
    decUnit final s = .next (decGroup s (s.engine.gather c)) := by
  simp [decUnit, hs, decByte, hb, decCode, hfill, Engine.gather]

end

theorem decGroup_emits {s : State} {e : Engine} (hroom : e.d + 3 ≤ s.dstCount) :
    decGroup s e = (s.emit e.d (accBytes e.acc 3)).withEngine { e with d := e.d + 3, acc := 0, fill := 0, commit := e.s } := by
  rw [decGroup, if_neg (by omega)]

theorem decGroup_noRoom {s : State} {e : Engine} (hroom : s.dstCount < e.d + 3) :
    decGroup s e = (s.withEngine e).raise .notEnoughRoom e.commit e.d := by
  rw [decGroup, if_pos hroom]

/-! ## The running command after the first bytes of the text -/

/-- The number of complete groups of a text. -/
def groupCount (text : List Byte) : Nat := (sourceCodes text).length / 4

/-- The bytes of a text's complete groups. -/
def groupBytes (text : List Byte) : List Byte := decodeCodes (wholeGroups (sourceCodes text))

/-- A DEC started on `s`, after the units of a text whose complete groups all fit. -/
def decState (s : State) (text : List Byte) (e : Engine) : State := (s.start.emit 0 (groupBytes text)).withEngine e

/-- The transient state of DEC there (R93, R95, R96). -/
structure DecGathered (text : List Byte) (e : Engine) : Prop where
  acc : e.acc = (openGroup (sourceCodes text)).foldl shiftCode 0
  fill : e.fill = (sourceCodes text).length % 4
  read : e.s = text.length
  wrote : e.d = 3 * groupCount text
  commit : e.commit = afterCodes (4 * groupCount text) text

theorem decGathered_nil : DecGathered [] Engine.start := ⟨rfl, rfl, rfl, rfl, rfl⟩

theorem decState_nil (s : State) : decState s [] Engine.start = s.start := rfl

@[simp] theorem decState_engine (s : State) (text : List Byte) (e : Engine) : (decState s text e).engine = e := rfl
@[simp] theorem decState_srcCount (s : State) (text : List Byte) (e : Engine) :
    (decState s text e).srcCount = s.srcCount := rfl
@[simp] theorem decState_dstCount (s : State) (text : List Byte) (e : Engine) :
    (decState s text e).dstCount = s.dstCount := rfl

theorem groupCount_le_append (text more : List Byte) : groupCount text ≤ groupCount (text ++ more) := by
  simp only [groupCount, sourceCodes, List.filterMap_append, List.length_append]
  omega

theorem groupCount_concat_le (text : List Byte) (b : Byte) : groupCount (text ++ [b]) ≤ groupCount text + 1 := by
  have hone : ([b].filterMap codeOf).length ≤ 1 := List.length_filterMap_le codeOf [b]
  simp only [groupCount, sourceCodes, List.filterMap_append, List.length_append]
  omega

/-- Where the groups of a text do not all fit, there is a byte that completes the first one without room. -/
theorem exists_first_without_room {m : Nat} {text : List Byte} (h : m < 3 * groupCount text) :
    ∃ before b after, text = before ++ b :: after ∧ 3 * groupCount before ≤ m ∧ m < 3 * groupCount (before ++ [b]) := by
  induction text using List.reverseRecOn with
  | nil => exact absurd h (Nat.not_lt_zero m)
  | append_singleton text b ih =>
    by_cases hfits : 3 * groupCount text ≤ m
    · exact ⟨text, b, [], rfl, hfits, h⟩
    · obtain ⟨before, a, after, rfl, hbefore⟩ := ih (not_le.mp hfits)
      exact ⟨before, a, after ++ [b], by simp, hbefore⟩

theorem groupBytes_length (text : List Byte) : (groupBytes text).length = 3 * groupCount text :=
  decodeCodes_wholeGroups_length _

section
variable {text : List Byte} {e : Engine} {b : Byte}

theorem groupCount_concat_whitespace (hb : rev b = .whitespace) : groupCount (text ++ [b]) = groupCount text := by
  rw [groupCount, sourceCodes_concat_whitespace text hb, groupCount]

/-- R93: whitespace moves the read offset only. -/
theorem DecGathered.whitespace (he : DecGathered text e) (hb : rev b = .whitespace) :
    DecGathered (text ++ [b]) { e with s := e.s + 1 } where
  acc := by simp [sourceCodes_concat_whitespace text hb, he.acc]
  fill := by simp [sourceCodes_concat_whitespace text hb, he.fill]
  read := by simp [he.read]
  wrote := by simp [groupCount_concat_whitespace hb, he.wrote]
  commit := by
    simp only [groupCount_concat_whitespace hb, he.commit]
    exact (afterCodes_append (by simp only [groupCount]; omega) [b]).symm

theorem groupBytes_concat_whitespace (hb : rev b = .whitespace) : groupBytes (text ++ [b]) = groupBytes text := by
  rw [groupBytes, sourceCodes_concat_whitespace text hb, groupBytes]

variable {c : Code} (hb : rev b = .code c)
include hb

theorem groupCount_concat_open (h : (sourceCodes text).length % 4 + 1 ≠ 4) :
    groupCount (text ++ [b]) = groupCount text := by
  simp only [groupCount, sourceCodes_concat_code text hb, List.length_append, List.length_singleton]
  omega

theorem groupCount_concat_closed (h : (sourceCodes text).length % 4 + 1 = 4) :
    groupCount (text ++ [b]) = groupCount text + 1 := by
  simp only [groupCount, sourceCodes_concat_code text hb, List.length_append, List.length_singleton]
  omega

theorem groupBytes_concat_open (h : (sourceCodes text).length % 4 + 1 ≠ 4) :
    groupBytes (text ++ [b]) = groupBytes text := by
  rw [groupBytes, sourceCodes_concat_code text hb, wholeGroups_concat_open c h, groupBytes]

/-- R60, R96: the group that a code completes is written as its accumulator gives it. -/
theorem groupBytes_concat_closed (h : (sourceCodes text).length % 4 + 1 = 4) :
    groupBytes (text ++ [b]) =
      groupBytes text ++ accBytes (shiftCode ((openGroup (sourceCodes text)).foldl shiftCode 0) c) 3 := by
  have hwhole := wholeGroups_length (sourceCodes text)
  have hgroup : (openGroup (sourceCodes text) ++ [c]).length = 4 := by simp [openGroup_length, h]
  rw [groupBytes, sourceCodes_concat_code text hb, wholeGroups_concat_closed c h, decodeCodes_append (by omega),
    ← accBytes_foldl_shiftCode hgroup, List.foldl_append, groupBytes]
  rfl

/-- R95: a code that leaves its group open is gathered, and the commit point stays. -/
theorem DecGathered.gather_open (he : DecGathered text e) (h : (sourceCodes text).length % 4 + 1 ≠ 4) :
    DecGathered (text ++ [b]) (e.gather c) := by
  have hcount := groupCount_concat_open hb h
  exact {
    acc := by simp [Engine.gather, sourceCodes_concat_code text hb, openGroup_concat_open c h, he.acc]
    fill := by
      simp only [Engine.gather, sourceCodes_concat_code text hb, List.length_append, List.length_singleton, he.fill]
      omega
    read := by simp [Engine.gather, he.read]
    wrote := by simp [Engine.gather, hcount, he.wrote]
    commit := by
      simp only [Engine.gather, hcount, he.commit]
      exact (afterCodes_append (by simp only [groupCount]; omega) [b]).symm }

/-- R96: a code that completes its group empties the accumulator, and the commit point is just after it. -/
theorem DecGathered.gather_closed (he : DecGathered text e) (h : (sourceCodes text).length % 4 + 1 = 4) :
    DecGathered (text ++ [b])
      { e.gather c with d := e.d + 3, acc := 0, fill := 0, commit := (e.gather c).s } := by
  have hcount := groupCount_concat_closed hb h
  exact {
    acc := by simp [sourceCodes_concat_code text hb, openGroup_concat_closed c h]
    fill := by
      simp only [sourceCodes_concat_code text hb, List.length_append, List.length_singleton]
      omega
    read := by simp [Engine.gather, he.read]
    wrote := by simp [hcount, he.wrote, Nat.mul_add]
    commit := by
      have hlast : 4 * groupCount (text ++ [b]) = (sourceCodes text).length + 1 := by
        rw [hcount, groupCount]
        omega
      simp [hlast, afterCodes_concat_code text hb, Engine.gather, he.read] }

/-- A completed group goes right behind the groups before it. -/
theorem DecGathered.emit_group (he : DecGathered text e) (h : (sourceCodes text).length % 4 + 1 = 4) (s : State) :
    (s.emit 0 (groupBytes text)).emit e.d (accBytes (shiftCode e.acc c) 3) = s.emit 0 (groupBytes (text ++ [b])) := by
  rw [he.wrote, ← groupBytes_length, State.emit_emit, he.acc, groupBytes_concat_closed hb h]

end

/-! ## The units over the text -/

section
variable {s : State} (hready : Ready s) (final : Bool) {text rest : List Byte} {b : Byte} {e : Engine}
include hready

/-- The running command reads the source as it was at the start, whatever it has written (R42). -/
theorem decState_reads (hsrc : s.srcBytes = text ++ b :: rest) (he : DecGathered text e)
    (hroom : 3 * groupCount text ≤ s.dstCount) :
    (decState s text e).engine.s < (decState s text e).srcCount ∧
      (decState s text e).srcByte (decState s text e).engine.s = b := by
  obtain ⟨hlt, hbyte⟩ := State.srcBytes_eq_append_cons hsrc
  rw [decState_engine, decState_srcCount, he.read]
  exact ⟨hlt, (hready.srcByte_emit hlt (by rw [groupBytes_length]; exact hroom)).trans hbyte⟩

/-- One unit over a byte of the text: the group it completes, if it completes one, fits. -/
theorem decUnit_text (hsrc : s.srcBytes = text ++ b :: rest) (he : DecGathered text e) (hb : isText b = true)
    (hroom : 3 * groupCount (text ++ [b]) ≤ s.dstCount) :
    ∃ e', DecGathered (text ++ [b]) e' ∧
      decUnit final (decState s text e) = .next (decState s (text ++ [b]) e') := by
  have hroomBefore : 3 * groupCount text ≤ s.dstCount := by
    have hle := groupCount_le_append text [b]
    omega
  obtain ⟨hlt, hbyte⟩ := decState_reads hready hsrc he hroomBefore
  rcases (isText_iff b).mp hb with hspace | ⟨c, hcode⟩
  · refine ⟨_, he.whitespace hspace, ?_⟩
    rw [decUnit_whitespace final hlt (hbyte ▸ hspace), decState, decState, groupBytes_concat_whitespace hspace]
    rfl
  · by_cases hclosed : (sourceCodes text).length % 4 + 1 = 4
    · refine ⟨_, he.gather_closed hcode hclosed, ?_⟩
      have hfits : (e.gather c).d + 3 ≤ (decState s text e).dstCount := by
        rw [groupCount_concat_closed hcode hclosed] at hroom
        simp only [decState_dstCount, Engine.gather, he.wrote]
        omega
      rw [decUnit_code_closed final hlt (hbyte ▸ hcode) (he.fill ▸ hclosed), decState_engine,
        decGroup_emits hfits, decState, decState, ← he.emit_group hcode hclosed]
      rfl
    · refine ⟨_, he.gather_open hcode hclosed, ?_⟩
      rw [decUnit_code_open final hlt (hbyte ▸ hcode) (he.fill ▸ hclosed), decState, decState,
        groupBytes_concat_open hcode hclosed]
      rfl

/-- The units over a text whose groups all fit leave the command running after it. -/
theorem drive_decUnit_text (hsrc : s.srcBytes = text ++ rest) (htext : text.all isText = true)
    (hroom : 3 * groupCount text ≤ s.dstCount) :
    ∃ e, DecGathered text e ∧ ∀ k, drive (decUnit final) (text.length + k) s.start =
      drive (decUnit final) k (decState s text e) := by
  induction text using List.reverseRecOn generalizing rest with
  | nil => exact ⟨_, decGathered_nil, fun k => by rw [decState_nil, List.length_nil, Nat.zero_add]⟩
  | append_singleton text b ih =>
    rw [List.append_assoc] at hsrc
    simp only [List.all_append, List.all_cons, List.all_nil, Bool.and_true, Bool.and_eq_true] at htext
    obtain ⟨htext, hb⟩ := htext
    have hle := groupCount_le_append text [b]
    obtain ⟨e, he, hdrive⟩ := ih hsrc htext (by omega)
    obtain ⟨e', he', hunit⟩ := decUnit_text hready final hsrc he hb hroom
    refine ⟨e', he', fun k => ?_⟩
    rw [List.length_append, List.length_singleton, Nat.add_assoc, Nat.add_comm 1 k, hdrive]
    exact drive_step _ k rfl hunit

/-- R96: one unit over the code that completes a group without room. -/
theorem decUnit_noRoom (hsrc : s.srcBytes = text ++ b :: rest) (he : DecGathered text e) (hb : isText b = true)
    (hfits : 3 * groupCount text ≤ s.dstCount) (hroom : s.dstCount < 3 * groupCount (text ++ [b])) :
    ∃ e', decUnit final (decState s text e) = .next ((decState s text e').raise .notEnoughRoom
      (afterCodes (4 * groupCount text) text) (3 * groupCount text)) := by
  obtain ⟨hlt, hbyte⟩ := decState_reads hready hsrc he hfits
  rcases (isText_iff b).mp hb with hspace | ⟨c, hcode⟩
  · rw [groupCount_concat_whitespace hspace] at hroom
    omega
  · by_cases hclosed : (sourceCodes text).length % 4 + 1 = 4
    · have hnoRoom : (decState s text e).dstCount < (e.gather c).d + 3 := by
        rw [groupCount_concat_closed hcode hclosed] at hroom
        simp only [decState_dstCount, Engine.gather, he.wrote]
        omega
      refine ⟨e.gather c, ?_⟩
      rw [decUnit_code_closed final hlt (hbyte ▸ hcode) (he.fill ▸ hclosed), ← he.commit, ← he.wrote]
      exact congrArg Host.Outcome.next (decGroup_noRoom hnoRoom)
    · rw [groupCount_concat_open hcode hclosed] at hroom
      omega

/-- The write-back of an error that ends the command after the text. -/
theorem decState_raise_completes (e : Engine) (st : Status) {srcOut : Nat} (hsrcOut : srcOut ≤ s.srcCount)
    (hroom : 3 * groupCount text ≤ s.dstCount) :
    Completes s ((decState s text e).raise st srcOut (3 * groupCount text)) st.toInt srcOut (3 * groupCount text)
      (groupBytes text) := by
  rw [← groupBytes_length] at hroom ⊢
  exact hready.completes_raise e st hsrcOut hroom

/-! ## The two ends -/

/-- R94: an invalid byte after a text whose groups all fit ends the command there. -/
theorem drive_decUnit_invalid (hsrc : s.srcBytes = text ++ b :: rest) (htext : text.all isText = true)
    (hb : isText b = false) (hroom : 3 * groupCount text ≤ s.dstCount) :
    ∃ t, t.value = s.value ∧
      Completes s t (-2) text.length (3 * groupCount text) (groupBytes text) ∧
      ∀ k, drive (decUnit final) (text.length + 1 + k) s.start = .next t := by
  obtain ⟨e, he, hdrive⟩ := drive_decUnit_text hready final hsrc htext hroom
  obtain ⟨hlt, hbyte⟩ := decState_reads hready hsrc he hroom
  have hinvalid : rev b = .invalid := by simpa [isText] using hb
  have hunit : decUnit final (decState s text e) =
      .next ((decState s text e).raise .invalidSourceData text.length (3 * groupCount text)) := by
    rw [← he.read, ← he.wrote]
    exact decUnit_invalid final hlt (hbyte ▸ hinvalid)
  have hcursor : text.length ≤ s.srcCount := (State.srcBytes_eq_append_cons hsrc).1.le
  refine ⟨(decState s text e).raise .invalidSourceData text.length (3 * groupCount text), rfl,
    decState_raise_completes hready e _ hcursor hroom, fun k => ?_⟩
  rw [Nat.add_assoc, Nat.add_comm 1 k, hdrive, drive_step _ k rfl hunit]
  exact drive_idle _ k rfl

/-- R96, R139: the first group of a text without room ends the command there, whatever follows it. -/
theorem drive_decUnit_noRoom (hsrc : s.srcBytes = text ++ rest) (htext : text.all isText = true)
    (hroom : s.dstCount < 3 * groupCount text) :
    ∃ t, t.value = s.value ∧
      Completes s t (-1) (afterCodes (4 * (s.dstCount / 3)) text) (3 * (s.dstCount / 3))
        (decodeCodes ((sourceCodes text).take (4 * (s.dstCount / 3)))) ∧
      ∀ k, drive (decUnit final) (text.length + k) s.start = .next t := by
  obtain ⟨before, b, after, rfl, hfits, hover⟩ := exists_first_without_room hroom
  simp only [List.all_append, List.all_cons, Bool.and_eq_true] at htext
  obtain ⟨htext, hb, -⟩ := htext
  rw [List.append_assoc] at hsrc
  obtain ⟨e, he, hdrive⟩ := drive_decUnit_text hready final hsrc htext hfits
  obtain ⟨e', hunit⟩ := decUnit_noRoom hready final hsrc he hb hfits hover
  have hcount : s.dstCount / 3 = groupCount before := by
    have hle := groupCount_concat_le before b
    omega
  have hcodes : 4 * groupCount before ≤ (sourceCodes before).length := by
    rw [groupCount]
    omega
  have hbytes : decodeCodes ((sourceCodes (before ++ b :: after)).take (4 * groupCount before)) = groupBytes before := by
    rw [sourceCodes_append, List.take_append_of_le_length hcodes]
    rfl
  have hcursor : afterCodes (4 * groupCount before) before ≤ s.srcCount :=
    (afterCodes_le_length _ _).trans (State.srcBytes_eq_append_cons hsrc).1.le
  rw [hcount, hbytes, afterCodes_append hcodes]
  refine ⟨(decState s before e').raise .notEnoughRoom (afterCodes (4 * groupCount before) before) (3 * groupCount before),
    rfl, decState_raise_completes hready e' _ hcursor hfits, fun k => ?_⟩
  rw [List.length_append, Nat.add_assoc, hdrive, List.length_cons, Nat.add_right_comm, drive_step _ _ rfl hunit]
  exact drive_idle _ _ rfl

end

/-- Settles O16: the groups before the invalid byte either all fit, and the command reaches that byte (R94), or the
first one without room ends it (R139). -/
theorem decStopsAtInvalidByte : Obligations.DecStopsAtInvalidByte := by
  intro s final before after b hready hsrc htext hb
  have hexec : exec (.dec final) s = drive (decUnit final) (s.srcCount + 1) s.start := hready.exec_eq_drive _
  have hlt := (State.srcBytes_eq_append_cons hsrc).1
  by_cases hroom : 3 * groupCount before ≤ s.dstCount
  · obtain ⟨t, hvalue, hcompletes, hdrive⟩ := drive_decUnit_invalid hready final hsrc htext hb hroom
    refine ⟨t, ?_, hvalue, fun _ => hcompletes, fun hover => absurd hroom (not_le.mpr hover)⟩
    have hfuel : s.srcCount + 1 = before.length + 1 + (s.srcCount - before.length) := by omega
    rw [hexec, hfuel, hdrive]
  · obtain ⟨t, hvalue, hcompletes, hdrive⟩ := drive_decUnit_noRoom hready final hsrc htext (not_le.mp hroom)
    refine ⟨t, ?_, hvalue, fun hfits => absurd hfits hroom, fun _ => hcompletes⟩
    have hfuel : s.srcCount + 1 = before.length + (s.srcCount + 1 - before.length) := by omega
    rw [hexec, hfuel, hdrive]

end Sys2Proof.Machine
end

section
/-! PROOFS. The chunk count of a varint (R106): the bit length and the chunk count, each as the least exponent of its
power. -/

namespace Sys2Proof.Machine

/-- R106: the bit length is the least exponent whose power of two exceeds the value. -/
theorem bitLength_le_iff (v n : Nat) : bitLength v ≤ n ↔ v < 2 ^ n := by
  by_cases hv : v = 0
  · simp [bitLength, hv]
  · rw [bitLength, if_neg hv, Nat.add_one_le_iff, Nat.log2_lt hv]

theorem lt_two_pow_bitLength (v : Nat) : v < 2 ^ bitLength v := (bitLength_le_iff v _).mp le_rfl

theorem bitLength_eq_zero_iff (v : Nat) : bitLength v = 0 ↔ v = 0 := by
  rw [← Nat.le_zero, bitLength_le_iff, pow_zero, Nat.lt_one_iff]

theorem two_pow_bitLength_sub_one_le {v : Nat} (hv : v ≠ 0) : 2 ^ (bitLength v - 1) ≤ v := by
  have hpos : bitLength v ≠ 0 := (bitLength_eq_zero_iff v).not.mpr hv
  rw [← not_lt, ← bitLength_le_iff]
  omega

/-- R106: the chunk count is the least positive number of 5-bit pieces that hold the bits of the value. -/
theorem chunks_le_iff_bitLength (v n : Nat) : chunks v ≤ n ↔ 1 ≤ n ∧ bitLength v ≤ n * 5 := by
  rw [chunks]
  omega

/-- R106, the equivalent form: the least n >= 1 with v < 32^n. -/
theorem chunks_le_iff (v n : Nat) : chunks v ≤ n ↔ 1 ≤ n ∧ v < 32 ^ n := by
  rw [chunks_le_iff_bitLength, bitLength_le_iff, Nat.mul_comm n 5, pow_mul]
  rfl

theorem one_le_chunks (v : Nat) : 1 ≤ chunks v := ((chunks_le_iff v _).mp le_rfl).1

theorem lt_pow_chunks (v : Nat) : v < 32 ^ chunks v := ((chunks_le_iff v _).mp le_rfl).2

/-- R110: a field of more than one chunk has a value that one chunk less would not hold. -/
theorem chunks_minimal (v : Nat) : chunks v = 1 ∨ 32 ^ (chunks v - 1) ≤ v := by
  have hpos := one_le_chunks v
  have hless : ¬ chunks v ≤ chunks v - 1 := by omega
  rw [chunks_le_iff, not_and, not_lt] at hless
  by_cases hone : chunks v = 1
  · exact .inl hone
  · exact .inr (hless (by omega))

/-- Settles O12: the bit length and the chunk count are the least exponents of their powers, so every bound on them is
a bound on the value. -/
theorem chunkCountIsLeast : Obligations.ChunkCountIsLeast := by
  refine ⟨fun v hv => ?_, by decide⟩
  have hmost : chunks v ≤ 13 := (chunks_le_iff v 13).mpr ⟨by decide, lt_trans hv (by norm_num)⟩
  have htwelve : chunks v ≤ 12 ↔ v < 2 ^ 60 := by
    rw [chunks_le_iff, show (32 : Nat) ^ 12 = 2 ^ 60 by norm_num]
    exact and_iff_right (by decide)
  refine ⟨bitLength_eq_zero_iff v, fun hne => ⟨two_pow_bitLength_sub_one_le hne, lt_two_pow_bitLength v⟩,
    one_le_chunks v, ((chunks_le_iff_bitLength v _).mp le_rfl).2,
    fun n hn hbits => (chunks_le_iff_bitLength v n).mpr ⟨hn, hbits⟩, lt_pow_chunks v,
    fun n hn hpow => (chunks_le_iff v n).mpr ⟨hn, hpow⟩, hmost, ?_⟩
  omega

end Sys2Proof.Machine
end

section
/-! PROOFS. The length field (R64, R110): its value chunk by chunk, the bound a first chunk gives, and the field that
VWR writes. -/

namespace Sys2Proof.Machine

/-! ## A chunk sequence -/

@[simp] theorem varintValue_nil : varintValue [] = 0 := rfl

/-- R64: a chunk moves the value up by five bits and adds its piece. -/
@[simp] theorem varintValue_concat (cs : List Code) (c : Code) :
    varintValue (cs ++ [c]) = 32 * varintValue cs + c.toNat % 32 := by simp [varintValue]

@[simp] theorem allContinue_concat (cs : List Code) (c : Code) :
    allContinue (cs ++ [c]) = (allContinue cs && c.getLsbD 5) := by simp [allContinue]

theorem isVarint_concat (cs : List Code) (c : Code) :
    isVarint (cs ++ [c]) = (allContinue cs && !c.getLsbD 5) := by simp [isVarint]

/-- R64: a whole field is continuation chunks and a last chunk without the flag. -/
theorem exists_concat_of_isVarint {cs : List Code} (h : isVarint cs = true) :
    ∃ init last, cs = init ++ [last] ∧ allContinue init = true ∧ last.getLsbD 5 = false := by
  rcases List.eq_nil_or_concat cs with rfl | ⟨init, last, rfl⟩
  · simp [isVarint] at h
  · rw [List.concat_eq_append] at h ⊢
    obtain ⟨hinit, hlast⟩ : allContinue init = true ∧ last.getLsbD 5 = false := by simpa [isVarint_concat] using h
    exact ⟨init, last, rfl, hinit, hlast⟩

/-- Each chunk after the first multiplies the first chunk's bound by 32. -/
theorem varintValue_cons_lt (c : Code) (cs : List Code) :
    varintValue (c :: cs) < (c.toNat % 32 + 1) * 32 ^ cs.length := by
  induction cs using List.reverseRecOn with
  | nil => simp [varintValue]
  | append_singleton cs d ih =>
    rw [← List.cons_append, varintValue_concat, List.length_append, List.length_singleton, pow_succ, ← mul_assoc]
    omega

/-- R117: twelve chunks hold 60 bits, and a thirteenth before them whose piece has four bits makes 64. -/
theorem varintValue_cons_lt_two_pow_64 {c : Code} {cs : List Code}
    (h : cs.length + 1 ≤ 12 ∨ cs.length + 1 = 13 ∧ c.toNat % 32 ≤ 15) : varintValue (c :: cs) < 2 ^ 64 := by
  refine (varintValue_cons_lt c cs).trans_le ?_
  rcases h with hshort | ⟨hlong, hfirst⟩
  · calc (c.toNat % 32 + 1) * 32 ^ cs.length
        ≤ 32 * 32 ^ 11 := Nat.mul_le_mul (by omega) (Nat.pow_le_pow_right (by decide) (by omega))
      _ ≤ 2 ^ 64 := by norm_num
  · calc (c.toNat % 32 + 1) * 32 ^ cs.length
        ≤ 16 * 32 ^ 12 := Nat.mul_le_mul (by omega) (Nat.pow_le_pow_right (by decide) (by omega))
      _ = 2 ^ 64 := by norm_num

/-! ## The field of VWR -/

/-- The low five bits of a chunk are its piece, with the continuation flag or without. -/
theorem piece_toNat_mod (p : BitVec 5) :
    (0x20 ||| p.setWidth 6 : Code).toNat % 32 = p.toNat ∧ (p.setWidth 6 : Code).toNat % 32 = p.toNat := by
  revert p
  decide

/-- R110: chunk `k` of `n` holds the five bits of the value that the chunks after it leave. -/
theorem chunkCode_toNat_mod (v : Value) (n k : Nat) :
    (chunkCode v n k).toNat % 32 = v.toNat / 32 ^ (n - 1 - k) % 32 := by
  have hpiece : (v.extractLsb' (5 * (n - 1 - k)) 5).toNat = v.toNat / 32 ^ (n - 1 - k) % 32 := by
    rw [BitVec.extractLsb'_toNat, Nat.shiftRight_eq_div_pow, pow_mul]
    rfl
  rw [chunkCode, ← hpiece]
  split
  · exact (piece_toNat_mod _).1
  · exact (piece_toNat_mod _).2

/-- R110: every chunk but the last has the continuation flag. -/
theorem chunkCode_flag (v : Value) (n k : Nat) : (chunkCode v n k).getLsbD 5 = decide (k < n - 1) := by
  rw [chunkCode]
  split
  case isTrue h => simp [h]
  case isFalse h => simp [h]

/-- The first `k` of the `n` chunks that hold a value (R107). -/
def firstChunks (v : Value) (n k : Nat) : List Code := (List.range k).map (chunkCode v n)

@[simp] theorem firstChunks_length (v : Value) (n k : Nat) : (firstChunks v n k).length = k := by simp [firstChunks]

theorem firstChunks_succ (v : Value) (n k : Nat) : firstChunks v n (k + 1) = firstChunks v n k ++ [chunkCode v n k] := by
  simp [firstChunks, List.range_succ]

/-- R107: the first chunks hold the value without the bits of the chunks still to come. -/
theorem varintValue_firstChunks {v : Value} {n k : Nat} (hv : v.toNat < 32 ^ n) (hk : k ≤ n) :
    varintValue (firstChunks v n k) = v.toNat / 32 ^ (n - k) := by
  induction k with
  | zero => simp [firstChunks, Nat.div_eq_of_lt hv]
  | succ k ih =>
    have hsplit : n - k = n - 1 - k + 1 := by omega
    have hleft : n - (k + 1) = n - 1 - k := by omega
    rw [firstChunks_succ, varintValue_concat, chunkCode_toNat_mod, ih (by omega), hsplit, hleft, pow_succ,
      ← Nat.div_div_eq_div_mul]
    exact Nat.div_add_mod _ _

theorem allContinue_firstChunks (v : Value) (n : Nat) : allContinue (firstChunks v n (n - 1)) = true := by
  simp only [allContinue, firstChunks, List.all_eq_true, List.mem_map, List.mem_range]
  rintro _ ⟨k, hk, rfl⟩
  rw [chunkCode_flag]
  exact decide_eq_true hk

/-- The codes of the field VWR writes for a value. -/
def lengthField (v : Value) : List Code := firstChunks v (chunks v.toNat) (chunks v.toNat)

theorem varintSymbols_eq (v : Value) : varintSymbols v = (lengthField v).map fwd := by
  simp [varintSymbols, lengthField, firstChunks]

@[simp] theorem lengthField_length (v : Value) : (lengthField v).length = chunks v.toNat := firstChunks_length _ _ _

theorem varintValue_lengthField (v : Value) : varintValue (lengthField v) = v.toNat := by
  simp [lengthField, varintValue_firstChunks (lt_pow_chunks v.toNat) le_rfl]

theorem isVarint_lengthField (v : Value) : isVarint (lengthField v) = true := by
  have hlast : lengthField v = firstChunks v (chunks v.toNat) (chunks v.toNat - 1) ++
      [chunkCode v (chunks v.toNat) (chunks v.toNat - 1)] := by
    rw [← firstChunks_succ, Nat.sub_add_cancel (one_le_chunks v.toNat), lengthField]
  rw [hlast, isVarint_concat, allContinue_firstChunks, chunkCode_flag]
  simp

end Sys2Proof.Machine
end

section
/-! PROOFS. VWR (R107, R109): the write-back of a command with one span, and the field it writes whole or not at all. -/

namespace Sys2Proof.Machine

/-! ## The write-back of a command with one span -/

/-- R58: a length that shrinks by nothing stays, whatever its sign. -/
theorem sub_ofNat_zero_toInt (l : Word) : (l - BitVec.ofNat 32 0).toInt = l.toInt - (0 : Nat) := by simp

/-- A count inside a span is not negative as a word (R19). -/
theorem ofNat_toInt_of_le {l : Word} {n : Nat} (hn : n ≤ l.toInt.toNat) : (BitVec.ofNat 32 n).toInt = n := by
  have hlt := BitVec.toInt_lt (x := l)
  rw [BitVec.toInt_ofNat', Int.bmod_def]
  omega

section
variable {s : State} (hwf : s.Wf) {out : List Byte} {srcOut : Nat} (v : Value) (e : Engine)
include hwf

/-- The write-back of a command that has written `out` and left `v` in `VALUE`. Of each length it is enough that it
shrinks without wrapping: a command has only one span, or two (log 2). -/
theorem State.Wf.completes_writeBack (o : Word)
    (hsrcLen : (s.srcLen - BitVec.ofNat 32 srcOut).toInt = s.srcLen.toInt - srcOut)
    (hdstLen : (s.dstLen - BitVec.ofNat 32 out.length).toInt = s.dstLen.toInt - out.length) :
    Completes s ((({ s.start with value := v }.emit 0 out).withEngine e).writeBack o srcOut out.length).clearBusy
      o.toInt srcOut out.length out where
  busy := rfl
  result := rfl
  srcPtr := truncAddr_add_toNat hwf.cfgOk _ _
  srcLen := hsrcLen
  dstPtr := truncAddr_add_toNat hwf.cfgOk _ _
  dstLen := hdstLen
  written := ⟨rfl, readSpan_writeBytes hwf.memOk _ _⟩
  others a ha := (Memory.read_writeBytes out _ a hwf.memOk).trans (if_neg (by simp; omega))
  rest := ⟨rfl, rfl, rfl, rfl, rfl⟩

/-- An error that moves the source cursor only. -/
theorem State.Wf.completes_raise (st : Status)
    (hsrcLen : (s.srcLen - BitVec.ofNat 32 srcOut).toInt = s.srcLen.toInt - srcOut) :
    Completes s ((s.start.withEngine e).raise st srcOut 0) st.toInt srcOut 0 [] :=
  st.code_toInt ▸ hwf.completes_writeBack (out := []) s.value e st.code hsrcLen (sub_ofNat_zero_toInt _)

end

/-! ## VWR -/

/-- A unit that ends the command is the last one, whether it completes or faults. -/
theorem drive_last {unit : State → Result} (k : Nat) {s : State} (hbusy : s.busy = true)
    (hends : ∀ t, unit s = .next t → t.busy = false) : drive unit (k + 1) s = unit s := by
  cases hu : unit s with
  | next t => rw [drive_step unit k hbusy hu, drive_idle unit k (hends t hu)]
  | fault f => simp [drive, hbusy, hu]
  | refused r => simp [drive, hbusy, hu]

/-- R107: VWR needs the destination span only, and is one unit. -/
theorem exec_vwr_eq_unit {s : State} (hidle : s.busy = false) (hdst : DstFits s) : exec .vwr s = vwrUnit s.start := by
  have hlen : s.lengthsOk .vwr = true := by simp [State.lengthsOk, hasSource, hdst.1]
  have hin : s.spansInside .vwr = true := by
    simp [State.spansInside, Span.inside, State.dstSpan, State.dstCount, hasSource, hasDest, Config.space, hdst.2]
  have hrun : exec .vwr s = drive vwrUnit (s.srcCount + 1) s.start :=
    runCommand_starts hidle hlen hin s.spansApart_vwr
  rw [hrun]
  refine drive_last _ rfl fun t ht => ?_
  rcases vwrUnit_cases s.start with ⟨-, hunit⟩ | ⟨-, hunit⟩ <;> cases hunit.symm.trans ht <;> rfl

/-- R107, R109: the field is written whole where it fits, and not at all where it does not. -/
theorem exec_vwr_field {s : State} (hwf : s.Wf) (hidle : s.busy = false) (hdst : DstFits s) :
    ∃ t, exec .vwr s = .next t ∧ t.value = s.value ∧
      (chunks s.value.toNat ≤ s.dstCount →
        Completes s t (chunks s.value.toNat) 0 (chunks s.value.toNat) ((lengthField s.value).map fwd)) ∧
      (s.dstCount < chunks s.value.toNat → Completes s t (-1) 0 0 []) := by
  rw [exec_vwr_eq_unit hidle hdst]
  rcases vwrUnit_cases s.start with ⟨hover, hunit⟩ | ⟨hfits, hunit⟩
  · exact ⟨_, hunit, rfl, fun hfits => absurd hover (Nat.not_lt.mpr hfits),
      fun _ => hwf.completes_raise Engine.start .notEnoughRoom (sub_ofNat_zero_toInt _)⟩
  · refine ⟨_, hunit, rfl, fun hroom => ?_, fun hover => absurd hover (Nat.not_lt.mpr hfits)⟩
    have hlen : (varintSymbols s.value).length = chunks s.value.toNat := by simp [varintSymbols_eq]
    have hdone := hwf.completes_writeBack (srcOut := 0) s.value { Engine.start with d := chunks s.value.toNat }
      (BitVec.ofNat 32 (chunks s.value.toNat)) (sub_ofNat_zero_toInt _) (sub_ofNat_toInt hdst.1 (hlen.trans_le hroom))
    rw [hlen, ofNat_toInt_of_le hroom] at hdone
    rw [← varintSymbols_eq]
    exact hdone

/-- Settles O21: VWR writes `lengthField`, whose length is the chunk count, or nothing of it. -/
theorem vwrWritesLengthField : Obligations.VwrWritesLengthField := by
  intro s hwf hidle hdst
  obtain ⟨t, hexec, hvalue, hwrites, hnoRoom⟩ := exec_vwr_field hwf hidle hdst
  refine ⟨t, lengthField s.value, hexec, hvalue, isVarint_lengthField _, varintValue_lengthField _, ?_⟩
  rw [lengthField_length]
  exact ⟨chunks_minimal _, fun hfits => hwrites (Int.le_toNat hdst.1 |>.mpr hfits),
    fun hover => hnoRoom (Int.toNat_lt hdst.1 |>.mpr hover)⟩

end Sys2Proof.Machine
end

section
/-! PROOFS. VRD (R112 to R117): the running command after continuation chunks, and the five ends it can come to there:
the last chunk of the field, the end of the span, a byte that is no code, and a value of more than 64 bits under FAULT
and under ERROR. -/

namespace Sys2Proof.Machine

/-! ## One chunk -/

/-- R112: a chunk moves `V` up by five bits and adds its piece; what passes 64 bits is dropped. -/
theorem shiftChunk_toNat (v : Value) (c : Code) :
    (shiftChunk v c).toNat = (32 * v.toNat + c.toNat % 32) % 2 ^ 64 := by
  have hpiece : ((c.extractLsb' 0 5).setWidth 64 : Value).toNat = c.toNat % 32 := by
    simp
    omega
  have hshift : (v <<< 5).toNat = 2 ^ 5 * (v.toNat % 2 ^ 59) := by
    rw [BitVec.toNat_shiftLeft, Nat.shiftLeft_eq]
    omega
  rw [shiftChunk, BitVec.toNat_or, hpiece, hshift, ← Nat.two_pow_add_eq_or_of_lt (Nat.mod_lt _ (by decide))]
  omega

/-- `V` after a chunk sequence is its value modulo 2^64. -/
theorem shiftChunk_ofNat_varintValue (cs : List Code) (c : Code) :
    shiftChunk (BitVec.ofNat 64 (varintValue cs)) c = BitVec.ofNat 64 (varintValue (cs ++ [c])) := by
  rw [BitVec.toNat_eq, shiftChunk_toNat, BitVec.toNat_ofNat, BitVec.toNat_ofNat, varintValue_concat]
  omega

/-- R117: the test of the five top bits of `V`. -/
theorem shiftRight_59_eq_zero_iff (v : Value) : v >>> 59 = 0 ↔ v.toNat < 2 ^ 59 := by
  rw [BitVec.toNat_eq, BitVec.toNat_ushiftRight, Nat.shiftRight_eq_div_pow]
  simp [Nat.div_eq_zero_iff]

/-! ## One unit of VRD, by the byte it reads -/

section
variable {s : State} (hlt : s.engine.s < s.srcCount)
include hlt

theorem vrdUnit_code {c : Code} (hb : rev (s.srcByte s.engine.s) = .code c) : vrdUnit s = vrdChunk s c := by
  simp [vrdUnit, hlt, hb]

theorem vrdUnit_nonCode (hb : codeOf (s.srcByte s.engine.s) = none) :
    vrdUnit s = .next (s.raise .invalidSourceData s.engine.s 0) := by
  rcases vrdUnit_cases s with ⟨c, -, hcode, -⟩ | ⟨-, -, hunit⟩ | ⟨hend, -⟩
  · rw [(codeOf_eq_some_iff _ c).mpr hcode] at hb
    cases hb
  · exact hunit
  · exact absurd hlt (Nat.not_lt.mpr hend)

end

theorem vrdUnit_end {s : State} (hend : s.srcCount ≤ s.engine.s) :
    vrdUnit s = .next (s.raise .unterminatedLengthField 0 0) := by
  simp [vrdUnit, Nat.not_lt.mpr hend]

/-- A chunk is accepted where its value fits, and under WRAP. -/
theorem vrdChunk_accepts {s : State} (c : Code) (h : s.engine.v >>> 59 = 0 ∨ s.cfg.varintOverflow = .wrap) :
    vrdChunk s c = .next (vrdAccept s c) := by
  rcases vrdChunk_cases s c with ⟨hchunk, -⟩ | ⟨-, hover, hmode⟩ | ⟨-, hover, hmode⟩
  · exact hchunk
  all_goals exact absurd (h.resolve_right (by simp [hmode])) hover

/-! ## The running command after continuation chunks -/

/-- A VRD started on `s`, after the units of the chunks `cs`. -/
def vrdState (s : State) (cs : List Code) : State :=
  s.start.withEngine { Engine.start with v := BitVec.ofNat 64 (varintValue cs), s := cs.length }

theorem vrdState_nil (s : State) : vrdState s [] = s.start := rfl

/-- The chunks' value fits 64 bits, or the read goes on where it does not (R117). -/
def VrdGoesOn (s : State) (cs : List Code) : Prop := varintValue cs < 2 ^ 64 ∨ s.cfg.varintOverflow = .wrap

/-- R112: VRD needs the source span only. -/
theorem exec_vrd_eq_drive {s : State} (hidle : s.busy = false) (hsrc : SrcFits s) :
    exec .vrd s = drive vrdUnit (s.srcCount + 1) s.start := by
  have hlen : s.lengthsOk .vrd = true := by simp [State.lengthsOk, hasDest, hsrc.1]
  have hin : s.spansInside .vrd = true := by
    simp [State.spansInside, Span.inside, State.srcSpan, State.srcCount, hasSource, hasDest, Config.space, hsrc.2]
  exact runCommand_starts hidle hlen hin s.spansApart_vrd

section
variable {s : State} {cs : List Code} {c : Code} {rest : List Byte}

/-- A sequence goes on only where the sequence before its last chunk does. -/
theorem VrdGoesOn.of_concat (h : VrdGoesOn s (cs ++ [c])) : VrdGoesOn s cs := by
  rw [VrdGoesOn, varintValue_concat] at h
  exact h.imp_left fun hfits => by omega

/-- Each byte after the chunks stands at the read offset. -/
theorem vrdState_reads {b : Byte} (hbytes : s.srcBytes = cs.map fwd ++ b :: rest) :
    (vrdState s cs).engine.s < (vrdState s cs).srcCount ∧
      (vrdState s cs).srcByte (vrdState s cs).engine.s = b := by
  have hreads := State.srcBytes_eq_append_cons hbytes
  rw [List.length_map] at hreads
  exact hreads

/-- One unit over a chunk. -/
theorem vrdUnit_vrdState (hbytes : s.srcBytes = cs.map fwd ++ fwd c :: rest) :
    vrdUnit (vrdState s cs) = vrdChunk (vrdState s cs) c := by
  obtain ⟨hlt, hbyte⟩ := vrdState_reads hbytes
  exact vrdUnit_code hlt (hbyte ▸ rev_fwd c)

/-- R117: a chunk is accepted where the sequence with it goes on. -/
theorem vrdUnit_accepts (hbytes : s.srcBytes = cs.map fwd ++ fwd c :: rest) (hgoes : VrdGoesOn s (cs ++ [c])) :
    vrdUnit (vrdState s cs) = .next (vrdAccept (vrdState s cs) c) := by
  rw [vrdUnit_vrdState hbytes]
  refine vrdChunk_accepts c (hgoes.imp_left fun hfits => ?_)
  rw [varintValue_concat] at hfits
  have hsmall : varintValue cs < 2 ^ 59 := by omega
  exact (shiftRight_59_eq_zero_iff _).mpr (((BitVec.toNat_ofNat _ _).trans_le (Nat.mod_le _ _)).trans_lt hsmall)

theorem vrdAccept_continue (hflag : c.getLsbD 5 = true) : vrdAccept (vrdState s cs) c = vrdState s (cs ++ [c]) := by
  rcases vrdAccept_cases (vrdState s cs) c with ⟨-, haccept⟩ | ⟨hlast, -⟩
  · rw [haccept, vrdState, vrdState, ← shiftChunk_ofNat_varintValue, List.length_append, List.length_singleton]
    rfl
  · rw [hflag] at hlast
    cases hlast

/-- The units over continuation chunks leave the command running after them. -/
theorem drive_vrdUnit_chunks (hbytes : s.srcBytes = cs.map fwd ++ rest) (hflags : allContinue cs = true)
    (hgoes : VrdGoesOn s cs) (k : Nat) :
    drive vrdUnit (cs.length + k) s.start = drive vrdUnit k (vrdState s cs) := by
  induction cs using List.reverseRecOn generalizing rest k with
  | nil => rw [vrdState_nil, List.length_nil, Nat.zero_add]
  | append_singleton cs c ih =>
    rw [List.map_append, List.append_assoc] at hbytes
    obtain ⟨hflags, hflag⟩ : allContinue cs = true ∧ c.getLsbD 5 = true := by simpa using hflags
    rw [List.length_append, List.length_singleton, Nat.add_assoc, Nat.add_comm 1 k,
      ih hbytes hflags hgoes.of_concat, drive_step _ k rfl (vrdUnit_accepts hbytes hgoes), vrdAccept_continue hflag]

end

/-! ## The ends of the command -/

/-- An idle machine whose source begins with the continuation chunks `cs`, which VRD reads all. -/
structure VrdReads (s : State) (cs : List Code) (rest : List Byte) : Prop where
  wf : s.Wf
  idle : s.busy = false
  src : SrcFits s
  bytes : s.srcBytes = cs.map fwd ++ rest
  continues : allContinue cs = true
  goesOn : VrdGoesOn s cs

section
variable {s : State} {cs : List Code} {rest : List Byte}

theorem VrdReads.srcCount (h : VrdReads s cs rest) : s.srcCount = cs.length + rest.length := by
  have hlen := congrArg List.length h.bytes
  simpa [State.srcBytes, readSpan, State.srcCount] using hlen

/-- VRD is the unit after the continuation chunks, where that unit ends it. -/
theorem VrdReads.exec_eq_unit (h : VrdReads s cs rest)
    (hends : ∀ t, vrdUnit (vrdState s cs) = .next t → t.busy = false) : exec .vrd s = vrdUnit (vrdState s cs) := by
  have hfuel : s.srcCount + 1 = cs.length + (rest.length + 1) := by rw [h.srcCount, Nat.add_assoc]
  rw [exec_vrd_eq_drive h.idle h.src, hfuel, drive_vrdUnit_chunks h.bytes h.continues h.goesOn]
  exact drive_last _ rfl hends

theorem VrdReads.exec_eq_next (h : VrdReads s cs rest) {t : State} (hunit : vrdUnit (vrdState s cs) = .next t)
    (ht : t.busy = false) : exec .vrd s = .next t := by
  refine (h.exec_eq_unit fun t' ht' => ?_).trans hunit
  cases hunit.symm.trans ht'
  exact ht

/-- An error after the chunks leaves `VALUE` as it was. -/
theorem VrdReads.raises (h : VrdReads s cs rest) {st : Status} {srcOut : Nat} (hsrcOut : srcOut ≤ cs.length)
    (hunit : vrdUnit (vrdState s cs) = .next ((vrdState s cs).raise st srcOut 0)) :
    ∃ t, exec .vrd s = .next t ∧ t.value = s.value ∧ Completes s t st.toInt srcOut 0 [] := by
  have hinside : srcOut ≤ s.srcCount := by
    have hcount := h.srcCount
    omega
  exact ⟨_, h.exec_eq_next hunit rfl, rfl, h.wf.completes_raise _ st (sub_ofNat_toInt h.src.1 hinside)⟩

/-- R116: the end of the span after the chunks. -/
theorem VrdReads.unterminated (h : VrdReads s cs []) :
    ∃ t, exec .vrd s = .next t ∧ t.value = s.value ∧ Completes s t (-3) 0 0 [] :=
  h.raises (Nat.zero_le _) (vrdUnit_end h.srcCount.le)

/-- R115: a byte that is no code after the chunks. -/
theorem VrdReads.nonCode {b : Byte} (h : VrdReads s cs (b :: rest)) (hb : codeOf b = none) :
    ∃ t, exec .vrd s = .next t ∧ t.value = s.value ∧ Completes s t (-2) cs.length 0 [] := by
  obtain ⟨hlt, hbyte⟩ := vrdState_reads h.bytes
  exact h.raises le_rfl (vrdUnit_nonCode hlt (hbyte ▸ hb))

variable {c : Code} (h : VrdReads s cs (fwd c :: rest))
include h

/-- R114: the last chunk of a field stores the value and completes. -/
theorem VrdReads.lastChunk (hflag : c.getLsbD 5 = false) (hgoes : VrdGoesOn s (cs ++ [c])) :
    ∃ t, exec .vrd s = .next t ∧ t.value = BitVec.ofNat 64 (varintValue (cs ++ [c])) ∧
      Completes s t (cs ++ [c]).length (cs ++ [c]).length 0 [] := by
  have hunit := vrdUnit_accepts h.bytes hgoes
  rcases vrdAccept_cases (vrdState s cs) c with ⟨hmore, -⟩ | ⟨-, haccept⟩
  · rw [hflag] at hmore
    cases hmore
  rw [haccept] at hunit
  have hinside : cs.length + 1 ≤ s.srcCount := by
    rw [h.srcCount, List.length_cons]
    omega
  refine ⟨_, h.exec_eq_next hunit rfl, shiftChunk_ofNat_varintValue cs c, ?_⟩
  rw [List.length_append, List.length_singleton]
  have hdone := h.wf.completes_writeBack (out := []) (shiftChunk (vrdState s cs).engine.v c)
    { (vrdState s cs).engine with v := shiftChunk (vrdState s cs).engine.v c, s := cs.length + 1 }
    (BitVec.ofNat 32 (cs.length + 1)) (sub_ofNat_toInt h.src.1 hinside) (sub_ofNat_zero_toInt _)
  rw [ofNat_toInt_of_le hinside] at hdone
  exact hdone

/-- R117: a chunk that arrives when the value has a 1 in its five top bits, by the parameter. -/
theorem VrdReads.overflow (hfits : varintValue cs < 2 ^ 64) (hover : 2 ^ 59 ≤ varintValue cs) :
    (s.cfg.varintOverflow = .fault → exec .vrd s = .fault .varintOverflow) ∧
    (s.cfg.varintOverflow = .error →
      ∃ t, exec .vrd s = .next t ∧ t.value = s.value ∧ Completes s t (-2) cs.length 0 []) := by
  have htop : (vrdState s cs).engine.v >>> 59 ≠ 0 := by
    have hv : (vrdState s cs).engine.v.toNat = varintValue cs := Nat.mod_eq_of_lt hfits
    rw [Ne, shiftRight_59_eq_zero_iff, hv]
    exact Nat.not_lt.mpr hover
  have hunit := vrdUnit_vrdState h.bytes
  rcases vrdChunk_cases (vrdState s cs) c with ⟨-, hsmall | hmode⟩ | ⟨hchunk, -, hmode⟩ | ⟨hchunk, -, hmode⟩
  · exact absurd hsmall htop
  · have hwrap : s.cfg.varintOverflow = .wrap := hmode
    simp [hwrap]
  · have hfault : s.cfg.varintOverflow = .fault := hmode
    rw [hchunk] at hunit
    refine ⟨fun _ => (h.exec_eq_unit fun t ht => ?_).trans hunit, fun herror => ?_⟩
    · cases hunit.symm.trans ht
    · cases hfault.symm.trans herror
  · have herror : s.cfg.varintOverflow = .error := hmode
    refine ⟨fun hfault => ?_, fun _ => h.raises le_rfl (hunit.trans hchunk)⟩
    cases herror.symm.trans hfault

end

/-! ## The statements -/

/-- A whole field is read to its end, where VRD goes on over all of it. -/
theorem exec_vrd_field {s : State} {cs : List Code} {rest : List Byte} (hwf : s.Wf) (hidle : s.busy = false)
    (hsrc : SrcFits s) (hbytes : s.srcBytes = cs.map fwd ++ rest) (hfield : isVarint cs = true)
    (hgoes : VrdGoesOn s cs) :
    ∃ t, exec .vrd s = .next t ∧ t.value.toNat = varintValue cs % 2 ^ 64 ∧ Completes s t cs.length cs.length 0 [] := by
  obtain ⟨init, last, rfl, hflags, hlast⟩ := exists_concat_of_isVarint hfield
  rw [List.map_append, List.append_assoc] at hbytes
  have hreads : VrdReads s init (fwd last :: rest) := ⟨hwf, hidle, hsrc, hbytes, hflags, hgoes.of_concat⟩
  obtain ⟨t, hexec, hvalue, hdone⟩ := hreads.lastChunk hlast hgoes
  exact ⟨t, hexec, by rw [hvalue, BitVec.toNat_ofNat], hdone⟩

/-- Settles O22: a value that fits is its own remainder modulo 2^64. -/
theorem vrdReadsLengthField : Obligations.VrdReadsLengthField := by
  intro s cs rest hwf hidle hsrc hbytes hfield hfits
  obtain ⟨t, hexec, hvalue, hdone⟩ := exec_vrd_field hwf hidle hsrc hbytes hfield (.inl hfits)
  exact ⟨t, hexec, hvalue.trans (Nat.mod_eq_of_lt hfits), hdone⟩

/-- Settles O23: the source ends after the continuation chunks. -/
theorem vrdUnterminatedField : Obligations.VrdUnterminatedField := by
  intro s cs hwf hidle hsrc hbytes hflags hgoes
  have hreads : VrdReads s cs [] := ⟨hwf, hidle, hsrc, by rw [hbytes, List.append_nil], hflags, hgoes⟩
  exact hreads.unterminated

/-- Settles O24: the byte after the continuation chunks is no code. -/
theorem vrdStopsAtNonCode : Obligations.VrdStopsAtNonCode := by
  intro s cs b rest hwf hidle hsrc hbytes hflags hb hgoes
  have hreads : VrdReads s cs (b :: rest) := ⟨hwf, hidle, hsrc, hbytes, hflags, hgoes⟩
  exact hreads.nonCode hb

/-- Settles O25: the chunk after the continuation chunks meets the parameter (FAULT, ERROR), or the read goes on to the
end of the field (WRAP); a short field stays below 2^64. -/
theorem vrdOverflowFollowsParameter : Obligations.VrdOverflowFollowsParameter := by
  refine ⟨fun s hwf hidle hsrc => ⟨fun cs c rest hbytes hflags hfits hover => ?_, fun cs rest hbytes hfield hwrap => ?_⟩,
    fun c cs hshort => varintValue_cons_lt_two_pow_64 hshort⟩
  · have hreads : VrdReads s cs (fwd c :: rest) := ⟨hwf, hidle, hsrc, hbytes, hflags, .inl hfits⟩
    exact hreads.overflow hfits hover
  · exact exec_vrd_field hwf hidle hsrc hbytes hfield (.inr hwrap)

end Sys2Proof.Machine
end

section
/-! PROOFS. What the host does while a command runs: reset at any time (R147), and the refusal of register writes
(R151). -/

namespace Sys2Proof.Machine

/-! ## Register writes while `BUSY` = 1 -/

section
variable {s : State}

/-- The access of a register is aligned and selects it, so the port asks next whether the block is busy. -/
theorem hostWrite_busy (hbusy : s.busy = true) (r : Reg) (w : Word) :
    hostWrite r.access w s = .refused .registerWriteWhileBusy := by simp [hostWrite, hbusy]

theorem hostStart_busy (hbusy : s.busy = true) (w : Word) :
    hostStart w s = .refused .registerWriteWhileBusy := by simp [hostStart, hbusy]

end

/-- Settles O49: both forms of a register write ask for `BUSY` before they store anything. -/
theorem registerWriteWhileBusyIsRefused : Obligations.RegisterWriteWhileBusyIsRefused := by
  intro s r w hbusy
  exact ⟨hostWrite_busy hbusy r w, hostStart_busy hbusy w⟩

/-! ## The destination span that a reset abandons -/

@[simp] theorem drawnBytes_length (draws n : Nat) : (drawnBytes draws n).length = n := by simp [drawnBytes]

/-- An idle machine has no running command, so it guards nothing (R47). -/
theorem State.guardedDst_idle {s : State} (hidle : s.busy = false) : s.guardedDst = { base := 0, len := 0 } := by
  simp [State.guardedDst, hidle]

/-- Whatever the machine does, the guarded destination is empty or the running command's destination span, which the
destination registers bound (R22). -/
theorem State.guardedDst_has {s : State} {a : Nat} (h : s.guardedDst.has a = true) :
    s.dstPtr.toNat ≤ a ∧ a < s.dstPtr.toNat + s.dstLen.toInt.toNat := by
  cases hbusy : s.busy with
  | false => simp [State.guardedDst_idle hbusy, Span.has] at h
  | true =>
    cases hcmd : decode s.cmd with
    | illegal why => simp [State.guardedDst, hbusy, hcmd, Span.has] at h
    | instr i =>
      rw [State.guardedDst_running hbusy hcmd] at h
      exact ((s.dstSpan_has_iff i a).mp h).2

/-! ## Reset -/

section
variable (s : State)

@[simp] theorem resetTurn_cfg : (resetTurn s).cfg = s.cfg := rfl
@[simp] theorem resetTurn_busy : (resetTurn s).busy = false := rfl
@[simp] theorem resetTurn_engine : (resetTurn s).engine = Engine.start := rfl
@[simp] theorem resetTurn_schedule : (resetTurn s).schedule = s.schedule := rfl
theorem resetTurn_mem :
    (resetTurn s).mem = s.mem.writeBytes s.guardedDst.base (drawnBytes s.draws s.guardedDst.len) := rfl

/-- R14, R147: a reset gives every register the value it has in the reset state, which is 0. -/
@[simp] theorem resetTurn_readReg (r : Reg) : (resetTurn s).readReg r = 0 := by
  have hreset : (resetTurn s).readReg r = State.reset.readReg r := by cases r <;> rfl
  exact hreset.trans (reset_readReg r)

end

section
variable {s : State}

/-- R147: with no command to abandon, a reset changes no memory byte. -/
theorem resetTurn_mem_idle (hidle : s.busy = false) : (resetTurn s).mem = s.mem := by
  rw [resetTurn_mem, State.guardedDst_idle hidle]
  rfl

/-- R148: only the destination span of the abandoned command is written. -/
theorem resetTurn_read_unguarded (hmem : s.mem.wf = true) {a : Nat} (h : ¬ s.guardedDst.has a = true) :
    (resetTurn s).mem.read a = s.mem.read a := by
  rw [Span.has_iff] at h
  rw [resetTurn_mem, Memory.read_writeBytes _ _ _ hmem, drawnBytes_length, if_neg h]

/-- R147: after a reset the block waits, where nothing is scheduled. -/
theorem step_resetTurn (hschedule : (resetTurn s).schedule = []) : step (resetTurn s) = .next (resetTurn s) :=
  (step_nil hschedule).trans (engineTurn_idle (resetTurn_busy s))

end

/-- Settles O41: an address outside the span that the destination registers bound is not guarded, so a reset leaves its
byte, also when it abandons a command. -/
theorem resetClearsEveryRegister : Obligations.ResetClearsEveryRegister := by
  intro s hmem
  refine ⟨resetTurn s, rfl, resetTurn_readReg s, resetTurn_busy s, resetTurn_engine s, resetTurn_cfg s,
    resetTurn_mem_idle, step_resetTurn, fun a hout => ?_⟩
  have hunguarded : ¬ s.guardedDst.has a = true := fun hin => by
    obtain ⟨hlo, hhi⟩ := State.guardedDst_has hin
    omega
  exact resetTurn_read_unguarded hmem hunguarded

end Sys2Proof.Machine
end

section
/-! PROOFS. The register port: which register an offset selects (R14, R15), what a read returns (R14, R18, R20, R152), and
what a write keeps. -/

namespace Sys2Proof.Machine

/-! ## The window -/

/-- Settles O43: the offsets are the table's, and each lies in the window at its register. -/
theorem registerOffsets : Obligations.RegisterOffsets :=
  ⟨⟨rfl, rfl, rfl, rfl, rfl, rfl, rfl, rfl, rfl⟩, Reg.regAt_access⟩

/-- R15: the nine registers fill the window up to 0x20. -/
theorem regAt_reserved {offset : BitVec 8} (h : 0x24 ≤ offset.toNat) : regAt offset = none :=
  List.getElem?_eq_none (by simp; omega)

section
variable {s : State} {offset : BitVec 8} (haligned : offset.toNat % 4 = 0) (hreserved : 0x24 ≤ offset.toNat)
include haligned hreserved

theorem hostWrite_reserved (w : Word) : hostWrite { width := 32, offset := offset } w s = .next s := by
  simp [hostWrite, PortAccess.aligned, haligned, regAt_reserved hreserved]

theorem hostRead_reserved :
    hostRead { width := 32, offset := offset } s = .next (s.observeReg offset 0) := by
  simp [hostRead, PortAccess.aligned, haligned, regAt_reserved hreserved]

end

/-- Settles O47: the port finds no register at a reserved offset, before it asks for `BUSY`. -/
theorem reservedOffsetsReadZero : Obligations.ReservedOffsetsReadZero := by
  intro s offset w hreserved haligned
  exact ⟨hostWrite_reserved haligned hreserved w, hostRead_reserved haligned hreserved⟩

/-! ## Reads -/

/-- R20: the two halves of `VALUE` as numbers. -/
theorem valueLo_eq (v : Value) : v.extractLsb' 0 32 = BitVec.ofNat 32 v.toNat := by
  apply BitVec.eq_of_toNat_eq
  simp

theorem valueHi_eq (v : Value) : v.extractLsb' 32 32 = BitVec.ofNat 32 (v.toNat / 2 ^ 32) := by
  apply BitVec.eq_of_toNat_eq
  simp [Nat.shiftRight_eq_div_pow]

/-- Settles O44: an idle read observes the register. -/
theorem idleReadReturnsRegister : Obligations.IdleReadReturnsRegister := by
  intro s r hidle
  have hread : takeTurn (.regRead r.access) s = .next (s.observeReg r.offset (s.readReg r)) := takeTurn_rd r hidle
  rw [hread, State.observeReg]
  cases r with
  | status => simp [State.readReg, hidle, statusWord]
  | valueLo => simp only [State.readReg, valueLo_eq]
  | valueHi => simp only [State.readReg, valueHi_eq]
  | _ => rfl

theorem hostRead_status_busy {s : State} (hbusy : s.busy = true) :
    hostRead Reg.status.access s = .next (s.observeReg Reg.status.offset 1) := by
  simp [hostRead, State.readReg, statusWord, hbusy]
  rfl

/-- R152: every other register reads as a free value. -/
theorem hostRead_busy {s : State} {r : Reg} (hbusy : s.busy = true) (hr : r ≠ .status) :
    hostRead r.access s =
      .next { s.observeReg r.offset (Config.drawWord s.draws) with draws := s.draws + 1 } := by
  simp [hostRead, hbusy, hr]
  rfl

/-- Settles O51: the free value is the next draw. -/
theorem readsWhileBusy : Obligations.ReadsWhileBusy := by
  intro s r hbusy
  exact ⟨hostRead_status_busy hbusy, fun hr => ⟨_, hostRead_busy hbusy hr⟩⟩

/-! ## Writes -/

/-- The registers that take what the host writes to them, apart from `CMD` (R14, R17). -/
def Reg.isOperand (r : Reg) : Prop := r ≠ .cmd ∧ r ≠ .status ∧ r ≠ .result

/-- R18: what a register keeps of a word. -/
def Reg.keeps (c : Config) (r : Reg) (w : Word) : Word :=
  if r = .srcPtr ∨ r = .dstPtr then truncAddr c w else w

/-- R14, R20: a written operand register reads back; `VALUE` is its two halves. -/
theorem State.readReg_writeReg_same (s : State) {r : Reg} (hr : r.isOperand) (w : Word) :
    (s.writeReg r w).readReg r = r.keeps s.cfg w := by
  obtain ⟨hcmd, hstatus, hresult⟩ := hr
  cases r with
  | cmd | status | result => contradiction
  | srcPtr | srcLen | dstPtr | dstLen => rfl
  | valueLo => exact BitVec.extractLsb'_append_eq_right
  | valueHi => exact BitVec.extractLsb'_append_eq_left

/-- R20: a write of one half of `VALUE` keeps the other; all other registers are stored apart. -/
theorem State.readReg_writeReg_ne (s : State) {r r' : Reg} (hne : r' ≠ r) (w : Word) :
    (s.writeReg r w).readReg r' = s.readReg r' := by
  have hhi : (s.value.extractLsb' 32 32 ++ w).extractLsb' 32 32 = s.value.extractLsb' 32 32 :=
    BitVec.extractLsb'_append_eq_left
  have hlo : (w ++ s.value.extractLsb' 0 32).extractLsb' 0 32 = s.value.extractLsb' 0 32 :=
    BitVec.extractLsb'_append_eq_right
  cases r with
  | valueLo =>
    cases r' with
    | valueLo => contradiction
    | valueHi => exact hhi
    | _ => rfl
  | valueHi =>
    cases r' with
    | valueHi => contradiction
    | valueLo => exact hlo
    | _ => rfl
  | _ => cases r' <;> trivial

/-- Settles O45: an idle machine's write turn is `writeReg`. -/
theorem registerWriteReadsBack : Obligations.RegisterWriteReadsBack := by
  intro s r w hidle hcmd hstatus hresult
  exact ⟨s.writeReg r w, takeTurn_wr w hidle hcmd, s.readReg_writeReg_same ⟨hcmd, hstatus, hresult⟩ w,
    fun r' hne => s.readReg_writeReg_ne hne w, s.writeReg_mem w r, s.writeReg_engine w r, s.writeReg_cfg w r,
    s.writeReg_busy w r, s.writeReg_schedule w r, s.writeReg_observed w r, s.writeReg_draws w r⟩

end Sys2Proof.Machine
end

section
/-! PROOFS. The memory as the host sees it on an idle machine (R31, R43). -/

namespace Sys2Proof.Machine

theorem State.guardedSrc_idle {s : State} (hidle : s.busy = false) : s.guardedSrc = { base := 0, len := 0 } := by
  simp [State.guardedSrc, hidle]

@[simp] theorem Span.has_empty (b a : Nat) : ({ base := b, len := 0 } : Span).has a = false := by
  simp [Span.has]

section
variable {s : State} {a : Nat} (hidle : s.busy = false) (hspace : a < s.cfg.space)
include hidle hspace

theorem hostMemWrite_idle (b : Byte) : hostMemWrite a b s = .next { s with mem := s.mem.write a b } :=
  hostMemWrite_unguarded b hspace (by simp [State.guardedSrc_idle hidle]) (by simp [State.guardedDst_idle hidle])

theorem hostMemRead_idle :
    hostMemRead a s = .next { s with observed := .mem a (s.mem.read a) :: s.observed } :=
  hostMemRead_unguarded hspace (by simp [State.guardedDst_idle hidle])

end

/-- Settles O52: an idle machine guards nothing, and the memory keeps the law of a read after a write. -/
theorem hostMemoryReadsBack : Obligations.HostMemoryReadsBack := by
  intro s a c b hmem hidle ha hc
  refine ⟨_, hostMemWrite_idle hidle ha b, Memory.wf_write hmem a b, fun r => by cases r <;> rfl, ?_⟩
  rw [← Memory.read_write hmem a c b]
  exact hostMemRead_idle (s := { s with mem := s.mem.write a b }) hidle hc

/-- Settles O54: the space is asked for before any guarded span. -/
theorem addressOutsideSpaceFaults : Obligations.AddressOutsideSpaceFaults := by
  intro s a b htop
  have hspace : s.cfg.space ≤ a := htop
  constructor
  · simp [takeTurn, hostMemWrite, hspace]
  · simp [takeTurn, hostMemRead, hspace]

end Sys2Proof.Machine
end

section
/-! PROOFS. The word in `CMD` (R53, R56): the step that runs it, and the entry of its command (R41, R138, R150). -/

namespace Sys2Proof.Machine

theorem decode_encode (i : Instr) : decode (encode i) = .instr i := (decode_eq_instr_iff _ i).mpr rfl

/-- Settles O3: each word is its command's own. -/
theorem sixLegalWords : Obligations.SixLegalWords :=
  ⟨decode_encode (.enc false), decode_encode (.enc true), decode_encode (.dec false), decode_encode (.dec true),
    decode_encode .vwr, decode_encode .vrd⟩

theorem runWord_instr {w : Word} {i : Instr} (h : decode w = .instr i) (s : State) : runWord w s = exec i s := by
  rw [runWord, h]

/-- R56: on an idle block a command's word, written to `CMD`, runs that command. -/
theorem takeTurn_regWrite_command {s : State} {w : Word} {i : Instr} (hidle : s.busy = false)
    (hw : decode w = .instr i) : takeTurn (.regWrite Reg.cmd.access w) s = exec i { s with cmd := w } :=
  (takeTurn_regWrite_cmd hidle w).trans (runWord_instr hw _)

/-- Settles O5: the step takes the turn, and the turn is the command's. -/
theorem stepRunsTheDecodedCommand : Obligations.StepRunsTheDecodedCommand := by
  intro s w i rest hschedule hidle hw
  rw [step_cons hschedule]
  exact takeTurn_regWrite_command hidle hw

/-- A table word that is read as a command fits the 32 bits it is written with. -/
theorem decode_of_decodeTableWord {nbits w : Nat} {i : Instr} (h : decodeTableWord nbits w = some i) :
    decode (BitVec.ofNat 32 (w % 2 ^ nbits)) = .instr i := by
  rw [decodeTableWord] at h
  split_ifs at h
  cases hw : decode (BitVec.ofNat 32 (w % 2 ^ nbits)) with
  | instr j => simpa [hw, Decoded.instr?] using h
  | illegal why => simp [hw, Decoded.instr?] at h

/-- Settles O6: the fetched word is the next turn of an idle block. -/
theorem fetchedTableWordRuns : Obligations.FetchedTableWordRuns := by
  intro s nbits w i hw
  exact stepRunsTheDecodedCommand _ _ i s.schedule rfl rfl (decode_of_decodeTableWord hw)

/-- R138, R151: a command that begins on a busy block is refused. -/
theorem beginCommand_busy {s : State} (hbusy : s.busy = true) (i : Instr) :
    beginCommand i s = .refused .registerWriteWhileBusy := by simp [beginCommand, hbusy]

/-- Settles O50: a command is refused where it begins. -/
theorem execWhileBusyIsRefused : Obligations.ExecWhileBusyIsRefused := by
  intro s i hbusy
  exact (exec_eq_refused_iff i s _).mpr (beginCommand_busy hbusy i)

/-- R41, R139: the lengths are checked first, then the spans' place in memory. -/
theorem beginCommand_spanOutside {s : State} {i : Instr} (hidle : s.busy = false) (hlen : s.lengthsOk i = true)
    (hin : s.spansInside i = false) : beginCommand i s = .refused .spanOutsideMemory := by
  have hbegin : beginCommand i s = s.start.accept i := by simp [beginCommand, hidle]
  rw [hbegin]
  rcases s.start.accept_cases i with ⟨hneg, -⟩ | ⟨-, -, h⟩ | ⟨-, hok, -⟩ | ⟨-, hok, -⟩
  · simp [hlen] at hneg
  · exact h
  all_goals simp [hin] at hok

/-- R41: a span that the command has runs past the top address. -/
theorem State.spansInside_eq_false_iff (s : State) (i : Instr) :
    s.spansInside i = false ↔ i ≠ .vwr ∧ 2 ^ s.cfg.addrW < s.srcPtr.toNat + s.srcLen.toInt.toNat ∨
      i ≠ .vrd ∧ 2 ^ s.cfg.addrW < s.dstPtr.toNat + s.dstLen.toInt.toNat := by
  rw [← hasSource_iff, ← hasDest_iff, State.spansInside, Bool.and_eq_false_iff]
  cases hs : hasSource i <;> cases hd : hasDest i <;>
    simp [Span.inside, State.srcSpan, State.dstSpan, State.srcCount, State.dstCount, Config.space, hs, hd]

/-- Settles O28: the lengths pass, and the spans fail the check that follows. -/
theorem spanPastTheTopIsRefused : Obligations.SpanPastTheTopIsRefused := by
  intro s hidle
  have refuses (i : Instr) (hlen : s.lengthsOk i = true) (htop : s.spansInside i = false) :
      exec i s = .refused .spanOutsideMemory :=
    (exec_eq_refused_iff i s _).mpr (beginCommand_spanOutside hidle hlen htop)
  refine ⟨fun final hsrc hdst htop => ?_, fun hdst htop => ?_, fun hsrc htop => ?_⟩
  · constructor
    all_goals
      refine refuses _ (by simp [State.lengthsOk, hsrc, hdst]) ((s.spansInside_eq_false_iff _).mpr ?_)
      exact htop.imp (⟨nofun, ·⟩) (⟨nofun, ·⟩)
  · exact refuses .vwr (by simp [State.lengthsOk, hasSource, hdst])
      ((s.spansInside_eq_false_iff _).mpr (.inr ⟨nofun, htop⟩))
  · exact refuses .vrd (by simp [State.lengthsOk, hasDest, hsrc])
      ((s.spansInside_eq_false_iff _).mpr (.inl ⟨nofun, htop⟩))

/-- Settles O7: on the reset state every span is empty, so one unit ends each command. -/
theorem commandsStraightAfterReset : Obligations.CommandsStraightAfterReset := by
  refine ⟨fun final => ?enc, fun final => ?dec, ?vwr, ?vrd⟩
  case enc => cases final <;> exact ⟨_, rfl, rfl, rfl⟩
  case dec => cases final <;> exact ⟨_, rfl, rfl, rfl⟩
  case vwr => exact ⟨_, rfl, rfl, rfl⟩
  case vrd => exact ⟨_, rfl, rfl, rfl⟩

/-- Settles O36: the reset state is idle, its pointers are 0 and its memory lists nothing. -/
theorem resetIsWf : Obligations.ResetIsWf where
  cfgOk := by decide
  srcOk := by decide
  dstOk := by decide
  memOk := rfl
  memBelow := rfl
  runningOk := nofun

end Sys2Proof.Machine
end

section
/-! PROOFS. The tables in order (R71) and by count (R73). -/

namespace Sys2Proof.Machine

/-- R71: the five runs of symbols stand in rising order. -/
theorem fwd_strictMono {c d : Code} (h : c.toNat < d.toNat) : (fwd c).toNat < (fwd d).toNat := by
  have hd := d.isLt
  rw [fwd_toNat, fwd_toNat]
  split_ifs <;> omega

/-- Settles O8: the closed form is `fwd_toNat`. -/
theorem forwardTableClosedForm : Obligations.ForwardTableClosedForm :=
  ⟨fwd_toNat, fun _ _ => fwd_strictMono⟩

/-- Settles O10: the classes are counted over the 256 bytes. -/
theorem reverseTableCounts : Obligations.ReverseTableCounts :=
  ⟨rev_fwd, rfl, rfl, rfl⟩

end Sys2Proof.Machine
end

section
/-! PROOFS. The accumulator: what a shift adds to it (R27, R81, R95), and the bit layout of the groups it gives
(R60 to R63). -/

namespace Sys2Proof.Machine

/-! ## The shifts as numbers -/

/-- R27: sixteen bits move up by eight without loss. -/
theorem shiftByte_toNat {acc : Acc} (h : acc.toNat < 2 ^ 16) (b : Byte) :
    (shiftByte acc b).toNat = acc.toNat * 256 + b.toNat := by
  have hb := b.isLt
  have hshift : (acc <<< 8).toNat = 2 ^ 8 * acc.toNat := by
    rw [BitVec.toNat_shiftLeft, Nat.shiftLeft_eq]
    omega
  rw [shiftByte, BitVec.toNat_or, BitVec.toNat_setWidth, Nat.mod_eq_of_lt (by omega), hshift,
    ← Nat.two_pow_add_eq_or_of_lt hb]
  omega

/-- R27: eighteen bits move up by six without loss. -/
theorem shiftCode_toNat {acc : Acc} (h : acc.toNat < 2 ^ 18) (c : Code) :
    (shiftCode acc c).toNat = acc.toNat * 64 + c.toNat := by
  have hc := c.isLt
  have hshift : (acc <<< 6).toNat = 2 ^ 6 * acc.toNat := by
    rw [BitVec.toNat_shiftLeft, Nat.shiftLeft_eq]
    omega
  rw [shiftCode, BitVec.toNat_or, BitVec.toNat_setWidth, Nat.mod_eq_of_lt (by omega), hshift,
    ← Nat.two_pow_add_eq_or_of_lt hc]
  omega

section
variable {s : State}

/-- A running ENC has gathered at most two bytes. -/
theorem EncProgress.acc_lt (h : EncProgress s) : s.engine.acc.toNat < 2 ^ 16 :=
  h.accBits.trans_le (Nat.pow_le_pow_right (by decide) (by have hfill := h.fillSmall; omega))

/-- A running DEC has gathered at most three codes. -/
theorem DecProgress.acc_lt (h : DecProgress s) : s.engine.acc.toNat < 2 ^ 18 :=
  h.accBits.trans_le (Nat.pow_le_pow_right (by decide) (by have hfill := h.fillSmall; omega))

/-- The running command of a well-formed machine is the one `CMD` holds. -/
theorem State.Wf.progress (hwf : s.Wf) (hbusy : s.busy = true) {i : Instr} (hcmd : decode s.cmd = .instr i) :
    progressOk i s := by
  obtain ⟨j, hj, -, -, -, hprogress⟩ := hwf.runningOk hbusy
  cases hj.symm.trans hcmd
  exact hprogress

end

/-- Settles O40: the invariant bounds `ACC` by the units gathered. -/
theorem accumulatorDropsNoBit : Obligations.AccumulatorDropsNoBit := by
  intro s final hwf hbusy
  refine ⟨fun henc b => ?_, fun hdec c => ?_⟩
  · have hprogress : EncProgress s := hwf.progress hbusy henc
    exact shiftByte_toNat hprogress.acc_lt b
  · have hprogress : DecProgress s := hwf.progress hbusy hdec
    exact shiftCode_toNat hprogress.acc_lt c

/-! ## The bit layout of a group -/

/-- R81: a byte takes the eight low bits, and what was gathered moves up by eight. -/
theorem shiftByte_getElem (acc : Acc) (b : Byte) {i : Nat} (hi : i < 24) :
    (shiftByte acc b)[i] = if i < 8 then b.getLsbD i else acc.getLsbD (i - 8) := by
  by_cases h : i < 8
  · simp [shiftByte, h]
  · have hb : b.getLsbD i = false := BitVec.getLsbD_of_ge _ _ (by omega)
    simp [shiftByte, h, hb, hi, ← BitVec.getLsbD_eq_getElem]

/-- R60, R82: the symbols of a complete group. -/
theorem accSymbols_group (b0 b1 b2 : Byte) :
    accSymbols (shiftByte (shiftByte (shiftByte 0 b0) b1) b2) 4 = encodeBytes [b0, b1, b2] := by
  have h1 (i : Nat) := BitVec.getLsbD_append (x := b0.extractLsb' 0 2) (y := b1.extractLsb' 4 4) (i := i)
  have h2 (i : Nat) := BitVec.getLsbD_append (x := b1.extractLsb' 0 4) (y := b2.extractLsb' 6 2) (i := i)
  simp only [accSymbols, encodeBytes, List.range, List.range.loop, List.map_cons, List.map_nil, List.cons.injEq, and_true]
  refine ⟨?_, ?_, ?_, ?_⟩ <;> refine congrArg fwd (BitVec.eq_of_getLsbD_eq fun i hi => ?_)
  · interval_cases i <;> simp [shiftByte_getElem]
  · rw [h1]
    interval_cases i <;> simp [shiftByte_getElem]
  · rw [h2]
    interval_cases i <;> simp [shiftByte_getElem]
  · interval_cases i <;> simp [shiftByte_getElem]

/-- R62, R84: the symbols of a partial group of two bytes. The slices are taken from the low 18 bits, so the first
symbol has two bits of padding at its top. -/
theorem accSymbols_two (b0 b1 : Byte) : accSymbols (shiftByte (shiftByte 0 b0) b1) 3 = encodeBytes [b0, b1] := by
  have h0 (i : Nat) := BitVec.getLsbD_append (x := 0#2) (y := b0.extractLsb' 4 4) (i := i)
  have h1 (i : Nat) := BitVec.getLsbD_append (x := b0.extractLsb' 0 4) (y := b1.extractLsb' 6 2) (i := i)
  simp only [accSymbols, encodeBytes, List.range, List.range.loop, List.map_cons, List.map_nil, List.cons.injEq, and_true]
  refine ⟨?_, ?_, ?_⟩ <;> refine congrArg fwd (BitVec.eq_of_getLsbD_eq fun i hi => ?_)
  · rw [h0]
    interval_cases i <;> simp [shiftByte_getElem]
  · rw [h1]
    interval_cases i <;> simp [shiftByte_getElem]
  · interval_cases i <;> simp [shiftByte_getElem]

/-- R61, R84: the symbols of a partial group of one byte. -/
theorem accSymbols_one (b0 : Byte) : accSymbols (shiftByte 0 b0) 2 = encodeBytes [b0] := by
  have h0 (i : Nat) := BitVec.getLsbD_append (x := 0#4) (y := b0.extractLsb' 6 2) (i := i)
  simp only [accSymbols, encodeBytes, List.range, List.range.loop, List.map_cons, List.map_nil, List.cons.injEq, and_true]
  refine ⟨?_, ?_⟩ <;> refine congrArg fwd (BitVec.eq_of_getLsbD_eq fun i hi => ?_)
  · rw [h0]
    interval_cases i <;> simp [shiftByte_getElem]
  · interval_cases i <;> simp [shiftByte_getElem]

/-- R62, R97: the bytes of a partial group of three codes; the two top bits of the first code are not read. -/
theorem accBytes_three (c0 c1 c2 : Code) :
    accBytes (shiftCode (shiftCode (shiftCode 0 c0) c1) c2) 2 = decodeCodes [c0, c1, c2] := by
  have h0 (i : Nat) := BitVec.getLsbD_append (x := c0.extractLsb' 0 4) (y := c1.extractLsb' 2 4) (i := i)
  have h1 (i : Nat) := BitVec.getLsbD_append (x := c1.extractLsb' 0 2) (y := c2) (i := i)
  simp only [accBytes, decodeCodes, List.range, List.range.loop, List.map_cons, List.map_nil, List.cons.injEq, and_true]
  refine ⟨?_, ?_⟩ <;> refine BitVec.eq_of_getLsbD_eq fun i hi => ?_
  · rw [h0]
    interval_cases i <;> simp [shiftCode_getElem]
  · rw [h1]
    interval_cases i <;> simp [shiftCode_getElem]

/-- R61, R97: the byte of a partial group of two codes; the four top bits of the first code are not read. -/
theorem accBytes_two (c0 c1 : Code) : accBytes (shiftCode (shiftCode 0 c0) c1) 1 = decodeCodes [c0, c1] := by
  have h0 (i : Nat) := BitVec.getLsbD_append (x := c0.extractLsb' 0 2) (y := c1) (i := i)
  simp only [accBytes, decodeCodes, List.range, List.range.loop, List.map_cons, List.map_nil, List.cons.injEq, and_true]
  refine BitVec.eq_of_getLsbD_eq fun i hi => ?_
  rw [h0]
  interval_cases i <;> simp [shiftCode_getElem]

/-- Settles O11: each slice of the accumulator is compared with the bit table of its group. -/
theorem groupLayout : Obligations.GroupLayout :=
  ⟨accSymbols_group, accSymbols_two, accSymbols_one, accBytes_group, accBytes_three, accBytes_two⟩

end Sys2Proof.Machine
end

section
/-! PROOFS. The units of ENC and the ends of ENC and DEC, one equation per case (R79 to R85, R97, R98).

`encUnit_cases` and `decUnit_cases` leave the transient state of a completion open; here each case names it. -/

namespace Sys2Proof.Machine

/-- The transient state after a byte, before its group is looked at (R81). -/
def Engine.gatherByte (e : Engine) (b : Byte) : Engine :=
  { e with acc := shiftByte e.acc b, fill := e.fill + 1, s := e.s + 1 }

/-- The transient state after a complete group of `n` units was written (R82, R96). -/
def Engine.closeGroup (e : Engine) (n : Nat) : Engine := { e with d := e.d + n, acc := 0, fill := 0, commit := e.s }

/-- The transient state after a final partial group of `n` units was written (R84, R97). -/
def Engine.finish (e : Engine) (n : Nat) : Engine := { e with d := e.d + n, commit := e.s }

section
variable (final : Bool) {s : State}

theorem encUnit_open (hs : s.engine.s < s.srcCount) (hfill : s.engine.fill + 1 ≠ 3) :
    encUnit final s = .next (s.withEngine (s.engine.gatherByte (s.srcByte s.engine.s))) := by
  simp [encUnit, hs, encByte, hfill, Engine.gatherByte]

theorem encUnit_closed (hs : s.engine.s < s.srcCount) (hfill : s.engine.fill + 1 = 3) :
    encUnit final s = .next (encGroup s (s.engine.gatherByte (s.srcByte s.engine.s))) := by
  simp [encUnit, hs, encByte, hfill, Engine.gatherByte]

theorem encUnit_end (hs : ¬ s.engine.s < s.srcCount) : encUnit final s = .next (encEnd final s) := by
  rw [encUnit, if_neg hs]

theorem decUnit_end (hs : ¬ s.engine.s < s.srcCount) : decUnit final s = .next (decEnd final s) := by
  rw [decUnit, if_neg hs]

end

section
variable {s : State} {e : Engine}

theorem encGroup_emits (hroom : e.d + 4 ≤ s.dstCount) :
    encGroup s e = (s.emit e.d (accSymbols e.acc 4)).withEngine (e.closeGroup 4) := by
  rw [encGroup, if_neg (by omega), Engine.closeGroup]

theorem encGroup_noRoom (hroom : s.dstCount < e.d + 4) :
    encGroup s e = (s.withEngine e).raise .notEnoughRoom e.commit e.d := by
  rw [encGroup, if_pos hroom]

/-- R85: an incomplete group is rolled back, unless the command is final and there is one. -/
theorem encEnd_rollback {final : Bool} (h : ¬ (0 < s.engine.fill ∧ final = true)) :
    encEnd final s = s.complete s.engine.d s.engine.commit s.engine.d := by
  rw [encEnd, if_neg h]

/-- R84: the final partial group. -/
theorem encEnd_noRoom (hfill : 0 < s.engine.fill)
    (hroom : s.dstCount < s.engine.d + partialSymbols s.engine.fill) :
    encEnd true s = s.raise .notEnoughRoom s.engine.commit s.engine.d := by
  simp [encEnd, hfill, hroom]

theorem encEnd_partial (hfill : 0 < s.engine.fill)
    (hroom : s.engine.d + partialSymbols s.engine.fill ≤ s.dstCount) :
    encEnd true s = ((s.emit s.engine.d (accSymbols s.engine.acc (partialSymbols s.engine.fill))).withEngine
      (s.engine.finish (partialSymbols s.engine.fill))).complete
        (s.engine.d + partialSymbols s.engine.fill) s.engine.s (s.engine.d + partialSymbols s.engine.fill) := by
  simp [encEnd, hfill, Nat.not_lt.mpr hroom, Engine.finish]

theorem decEnd_noGroup (final : Bool) (hfill : s.engine.fill = 0) : decEnd final s =
    (s.withEngine { s.engine with commit := s.engine.s }).complete s.engine.d s.engine.s s.engine.d := by
  simp [decEnd, hfill]

/-- R98: an incomplete group is rolled back where the command is not final. -/
theorem decEnd_rollback (hfill : s.engine.fill ≠ 0) :
    decEnd false s = s.complete s.engine.d s.engine.commit s.engine.d := by
  simp [decEnd, hfill]

/-- R97: a lone symbol at the end. -/
theorem decEnd_lone (hfill : s.engine.fill ≠ 0) (hlone : partialBytes s.engine.fill = none) :
    decEnd true s = s.raise .invalidSourceData s.engine.gstart s.engine.d := by
  simp [decEnd, hfill, hlone]

theorem decEnd_noRoom {n : Nat} (hfill : s.engine.fill ≠ 0) (hn : partialBytes s.engine.fill = some n)
    (hroom : s.dstCount < s.engine.d + n) :
    decEnd true s = s.raise .notEnoughRoom s.engine.commit s.engine.d := by
  simp [decEnd, hfill, hn, hroom]

theorem decEnd_partial {n : Nat} (hfill : s.engine.fill ≠ 0) (hn : partialBytes s.engine.fill = some n)
    (hroom : s.engine.d + n ≤ s.dstCount) :
    decEnd true s = ((s.emit s.engine.d (accBytes s.engine.acc n)).withEngine (s.engine.finish n)).complete
        (s.engine.d + n) s.engine.s (s.engine.d + n) := by
  simp [decEnd, hfill, hn, Nat.not_lt.mpr hroom, Engine.finish]

end

@[simp] theorem accSymbols_length (acc : Acc) (e : Nat) : (accSymbols acc e).length = e := by simp [accSymbols]
@[simp] theorem accBytes_length (acc : Acc) (e : Nat) : (accBytes acc e).length = e := by simp [accBytes]

end Sys2Proof.Machine
end

section
/-! PROOFS. The effect of a unit of a command, and of a whole command (R56, R58): the bytes it writes, the transient
state it leaves, and how it ends. An effect is read from the operands and the source bytes alone, so two machines that
agree on those have the same one (R26, R37). -/

namespace Sys2Proof.Machine

/-! ## Effects -/

/-- What a part of a running command does: it writes `out` at the write offset, leaves `engine`, stores a `VALUE` or none,
and ends the command, with an outcome and a source offset for the write-back (R58), or leaves it running. -/
structure Effect where
  out : List Byte
  engine : Engine
  stores : Option Value
  ends : Option (Word × Nat)

/-- The machine after the effect. -/
def Effect.apply (f : Effect) (s : State) : State :=
  let t := ({ s with value := f.stores.getD s.value }.emit s.engine.d f.out).withEngine f.engine
  match f.ends with
  | none => t
  | some (outcome, srcOut) => (t.writeBack outcome srcOut (s.engine.d + f.out.length)).clearBusy

section
variable (f : Effect) (s : State)

@[simp] theorem Effect.apply_cfg : (f.apply s).cfg = s.cfg := by
  rcases f with ⟨out, e, v, _ | ⟨o, k⟩⟩ <;> rfl
@[simp] theorem Effect.apply_cmd : (f.apply s).cmd = s.cmd := by
  rcases f with ⟨out, e, v, _ | ⟨o, k⟩⟩ <;> rfl
@[simp] theorem Effect.apply_value : (f.apply s).value = f.stores.getD s.value := by
  rcases f with ⟨out, e, v, _ | ⟨o, k⟩⟩ <;> rfl
@[simp] theorem Effect.apply_engine : (f.apply s).engine = f.engine := by
  rcases f with ⟨out, e, v, _ | ⟨o, k⟩⟩ <;> rfl
@[simp] theorem Effect.apply_mem : (f.apply s).mem = s.mem.writeBytes (s.dstPtr.toNat + s.engine.d) f.out := by
  rcases f with ⟨out, e, v, _ | ⟨o, k⟩⟩ <;> rfl
@[simp] theorem Effect.apply_schedule : (f.apply s).schedule = s.schedule := by
  rcases f with ⟨out, e, v, _ | ⟨o, k⟩⟩ <;> rfl
@[simp] theorem Effect.apply_observed : (f.apply s).observed = s.observed := by
  rcases f with ⟨out, e, v, _ | ⟨o, k⟩⟩ <;> rfl
@[simp] theorem Effect.apply_draws : (f.apply s).draws = s.draws := by
  rcases f with ⟨out, e, v, _ | ⟨o, k⟩⟩ <;> rfl

end

section
variable {f : Effect} (s : State)

/-- An effect that leaves the command running moves no cursor. -/
theorem Effect.apply_running (h : f.ends = none) : f.apply s =
    ({ s with value := f.stores.getD s.value }.emit s.engine.d f.out).withEngine f.engine := by
  rw [Effect.apply, h]

variable {o : Word} {k : Nat} (h : f.ends = some (o, k))
include h

/-- The write-back of an effect that ends the command (R58). -/
theorem Effect.apply_ending : f.apply s =
    ((({ s with value := f.stores.getD s.value }.emit s.engine.d f.out).withEngine f.engine).writeBack o k
      (s.engine.d + f.out.length)).clearBusy := by
  rw [Effect.apply, h]

theorem Effect.apply_busy_of_ends : (f.apply s).busy = false := by rw [Effect.apply_ending s h]; rfl
theorem Effect.apply_result_of_ends : (f.apply s).result = o := by rw [Effect.apply_ending s h]; rfl
theorem Effect.apply_srcPtr_of_ends : (f.apply s).srcPtr = truncAddr s.cfg (s.srcPtr + BitVec.ofNat 32 k) := by
  rw [Effect.apply_ending s h]; rfl
theorem Effect.apply_srcLen_of_ends : (f.apply s).srcLen = s.srcLen - BitVec.ofNat 32 k := by
  rw [Effect.apply_ending s h]; rfl
theorem Effect.apply_dstPtr_of_ends :
    (f.apply s).dstPtr = truncAddr s.cfg (s.dstPtr + BitVec.ofNat 32 (s.engine.d + f.out.length)) := by
  rw [Effect.apply_ending s h]; rfl
theorem Effect.apply_dstLen_of_ends :
    (f.apply s).dstLen = s.dstLen - BitVec.ofNat 32 (s.engine.d + f.out.length) := by
  rw [Effect.apply_ending s h]; rfl

end

/-- The three forms of an effect that stores no `VALUE`, as the units write them. -/
theorem Effect.apply_unit (out : List Byte) (e : Engine) (t : State) :
    (⟨out, e, none, none⟩ : Effect).apply t = (t.emit t.engine.d out).withEngine e := rfl

theorem Effect.apply_error (st : Status) (k : Nat) (e : Engine) (t : State) :
    (⟨[], e, none, some (st.code, k)⟩ : Effect).apply t = (t.withEngine e).raise st k t.engine.d := rfl

theorem Effect.apply_count (out : List Byte) (n k : Nat) (e : Engine) (t : State) :
    (⟨out, e, none, some (BitVec.ofNat 32 n, k)⟩ : Effect).apply t =
      ((t.emit t.engine.d out).withEngine e).complete n k (t.engine.d + out.length) := rfl

/-- One effect after another. -/
def Effect.andThen (f g : Effect) : Effect := { g with out := f.out ++ g.out }

/-- Parts of a command write one behind the other. -/
theorem Effect.apply_andThen {f : Effect} (g : Effect) (s : State) (hends : f.ends = none) (hstores : f.stores = none)
    (hwrote : f.engine.d = s.engine.d + f.out.length) : (f.andThen g).apply s = g.apply (f.apply s) := by
  have hmem : (s.mem.writeBytes (s.dstPtr.toNat + s.engine.d) f.out).writeBytes (s.dstPtr.toNat + f.engine.d) g.out =
      s.mem.writeBytes (s.dstPtr.toNat + s.engine.d) (f.out ++ g.out) := by
    rw [hwrote, ← Nat.add_assoc, Memory.writeBytes_append]
  have hout : s.engine.d + (f.out ++ g.out).length = f.engine.d + g.out.length := by
    rw [hwrote, List.length_append, Nat.add_assoc]
  rw [f.apply_running s hends, hstores]
  simp only [Effect.apply, Effect.andThen, hout, State.emit, State.withEngine, State.writeBack, State.clearBusy,
    Option.getD_none, hmem]

/-! ## What an effect of a command can be -/

/-- R135: the errors a running command can report. -/
def reports : Instr → List Status
  | .enc _ => [.notEnoughRoom]
  | .dec _ => [.notEnoughRoom, .invalidSourceData]
  | .vwr => [.notEnoughRoom]
  | .vrd => [.invalidSourceData, .unterminatedLengthField]

/-- An outcome that a running command can report: a count, or one of its errors, and then no `VALUE` is stored. -/
def Effect.Reports (i : Instr) (f : Effect) (o : Word) : Prop :=
  0 ≤ o.toInt ∨ f.stores = none ∧ ∃ st ∈ reports i, o = st.code

/-- The effects that a command can have on a machine where it runs. -/
structure Effect.Of (i : Instr) (s : State) (f : Effect) : Prop where
  /-- R155: a unit that leaves the command running has read one source unit. -/
  reads : f.ends = none → i ≠ .vwr ∧ f.stores = none ∧ s.engine.s < s.srcCount ∧ f.engine.s = s.engine.s + 1
  wrote : f.engine.d = s.engine.d + f.out.length
  /-- R38: nothing is written past the command's destination span. -/
  room : s.engine.d + f.out.length ≤ (s.dstSpan i).len
  outcome : ∀ o k, f.ends = some (o, k) → f.Reports i o ∧ (i = .vwr → k = 0)
  /-- R112: only VRD stores a `VALUE`. -/
  stores : i ≠ .vrd → f.stores = none

/-- A running command between two units, as far as its writes go: it has stayed in its destination span. -/
def RunsInside (i : Instr) (s : State) : Prop := s.engine.d ≤ (s.dstSpan i).len ∧ (i = .vwr → s.engine.d = 0)

section
variable {i : Instr} {s : State} {e : Engine}

/-- The unit reads on, and writes `out`. -/
theorem Effect.Of.running {out : List Byte} (hi : i ≠ .vwr) (hs : s.engine.s < s.srcCount) (he : e.s = s.engine.s + 1)
    (hd : e.d = s.engine.d + out.length) (hroom : s.engine.d + out.length ≤ (s.dstSpan i).len) :
    Effect.Of i s ⟨out, e, none, none⟩ where
  reads _ := ⟨hi, rfl, hs, he⟩
  wrote := hd
  room := hroom
  outcome := nofun
  stores _ := rfl

/-- The unit ends the command with an error; nothing is written. -/
theorem Effect.Of.error {st : Status} {k : Nat} (hin : RunsInside i s) (hst : st ∈ reports i) (hd : e.d = s.engine.d)
    (hk : i = .vwr → k = 0) : Effect.Of i s ⟨[], e, none, some (st.code, k)⟩ where
  reads := nofun
  wrote := hd
  room := hin.1
  outcome := by
    rintro o k' ⟨⟩
    exact ⟨.inr ⟨rfl, st, hst, rfl⟩, hk⟩
  stores _ := rfl

/-- The unit completes the command with the count of the units written. -/
theorem Effect.Of.count {out : List Byte} {n k : Nat} (hdst : (s.dstSpan i).len ≤ s.dstCount)
    (hn : n = s.engine.d + out.length) (hroom : s.engine.d + out.length ≤ (s.dstSpan i).len)
    (hd : e.d = s.engine.d + out.length) (hk : i = .vwr → k = 0) :
    Effect.Of i s ⟨out, e, none, some (BitVec.ofNat 32 n, k)⟩ where
  reads := nofun
  wrote := hd
  room := hroom
  outcome := by
    rintro o k' ⟨⟩
    have hcount : (BitVec.ofNat 32 n).toInt = n := ofNat_toInt_of_le (l := s.dstLen) (hn ▸ hroom.trans hdst)
    exact ⟨.inl (hcount ▸ Int.natCast_nonneg n), hk⟩
  stores _ := rfl

end

/-- R22: a destination span is no longer than the registers say. -/
theorem State.dstSpan_len_le (s : State) (i : Instr) : (s.dstSpan i).len ≤ s.dstCount := by
  rw [State.dstSpan]
  split <;> simp

/-! ## Machines on which a command has the same effect -/

/-- The machines agree on what a running command reads: its operands, its transient state, its source bytes. -/
structure Alike (i : Instr) (s t : State) : Prop where
  cfg : t.cfg = s.cfg
  busy : t.busy = s.busy
  srcPtr : t.srcPtr = s.srcPtr
  srcLen : t.srcLen = s.srcLen
  dstPtr : t.dstPtr = s.dstPtr
  dstLen : t.dstLen = s.dstLen
  value : t.value = s.value
  engine : t.engine = s.engine
  bytes : i ≠ .vwr → ∀ k, k < s.srcCount → t.srcByte k = s.srcByte k

theorem Alike.rfl {i : Instr} {s : State} : Alike i s s :=
  ⟨.refl _, .refl _, .refl _, .refl _, .refl _, .refl _, .refl _, .refl _, fun _ _ _ => .refl _⟩

section
variable {i : Instr} {s t : State} (h : Alike i s t)
include h

theorem Alike.srcCount : t.srcCount = s.srcCount := by rw [State.srcCount, h.srcLen, State.srcCount]

theorem Alike.dstCount : t.dstCount = s.dstCount := by rw [State.dstCount, h.dstLen, State.dstCount]

/-- Both have a byte left to read, or neither has. -/
theorem Alike.more : t.engine.s < t.srcCount ↔ s.engine.s < s.srcCount := by rw [h.engine, h.srcCount]

theorem Alike.byte (hi : i ≠ .vwr) (hs : s.engine.s < s.srcCount) :
    t.srcByte t.engine.s = s.srcByte s.engine.s := by
  rw [h.engine]
  exact h.bytes hi _ hs

end

/-- The unit of `i` on `s` has one effect, on `s` and on every machine that agrees with it; or it is a VRD whose value
is too wide, under FAULT. -/
def UnitHasEffect (i : Instr) (s : State) : Prop :=
  (∃ f : Effect, f.Of i s ∧ ∀ t, Alike i s t → commandUnit i t = .next (f.apply t)) ∨
  i = .vrd ∧ s.cfg.varintOverflow = .fault ∧ ∀ t, Alike i s t → commandUnit i t = .fault .varintOverflow

theorem encUnit_hasEffect (final : Bool) {s : State} (hin : RunsInside (.enc final) s) : UnitHasEffect (.enc final) s := by
  have hd : s.engine.d ≤ s.dstCount := hin.1
  refine .inl ?_
  by_cases hs : s.engine.s < s.srcCount
  · by_cases hfill : s.engine.fill + 1 = 3
    · have hunit (t : State) (h : Alike (.enc final) s t) :
          encUnit final t = .next (encGroup t (s.engine.gatherByte (s.srcByte s.engine.s))) := by
        rw [encUnit_closed final (h.more.mpr hs) (h.engine ▸ hfill), h.byte nofun hs, h.engine]
      by_cases hroom : s.engine.d + 4 ≤ s.dstCount
      · refine ⟨_, .running (out := accSymbols (shiftByte s.engine.acc (s.srcByte s.engine.s)) 4)
          (e := (s.engine.gatherByte (s.srcByte s.engine.s)).closeGroup 4) nofun hs rfl
          (by rw [accSymbols_length]; rfl) (by rw [accSymbols_length]; exact hroom), fun t h => (hunit t h).trans ?_⟩
        rw [encGroup_emits (h.dstCount ▸ hroom), Effect.apply_unit, h.engine]
        rfl
      · refine ⟨_, .error (e := s.engine.gatherByte (s.srcByte s.engine.s)) (k := s.engine.commit) hin (.head _) rfl nofun,
          fun t h => (hunit t h).trans ?_⟩
        rw [encGroup_noRoom (h.dstCount ▸ Nat.not_le.mp hroom), Effect.apply_error, h.engine]
        rfl
    · refine ⟨_, .running (out := []) (e := s.engine.gatherByte (s.srcByte s.engine.s)) nofun hs rfl rfl hd, fun t h => ?_⟩
      rw [commandUnit, encUnit_open final (h.more.mpr hs) (h.engine ▸ hfill), h.byte nofun hs, h.engine]
      rfl
  · have hunit (t : State) (h : Alike (.enc final) s t) : encUnit final t = .next (encEnd final t) :=
      encUnit_end final (h.more.not.mpr hs)
    by_cases hpart : 0 < s.engine.fill ∧ final = true
    · obtain ⟨hfill, rfl⟩ := hpart
      by_cases hroom : s.engine.d + partialSymbols s.engine.fill ≤ s.dstCount
      · refine ⟨_, .count (out := accSymbols s.engine.acc (partialSymbols s.engine.fill))
          (e := s.engine.finish (partialSymbols s.engine.fill)) (k := s.engine.s) le_rfl rfl
          (by rw [accSymbols_length]; exact hroom)
          (by rw [accSymbols_length]; rfl) nofun,
          fun t h => (hunit t h).trans ?_⟩
        rw [encEnd_partial (h.engine ▸ hfill) (h.engine ▸ h.dstCount ▸ hroom), Effect.apply_count, h.engine,
          accSymbols_length]
      · refine ⟨_, .error (e := s.engine) (k := s.engine.commit) hin (.head _) rfl nofun, fun t h => (hunit t h).trans ?_⟩
        rw [encEnd_noRoom (h.engine ▸ hfill) (h.engine ▸ h.dstCount ▸ Nat.not_le.mp hroom), Effect.apply_error, ← h.engine]
        rfl
    · refine ⟨_, .count (out := []) (e := s.engine) (k := s.engine.commit) le_rfl rfl hd rfl nofun,
        fun t h => (hunit t h).trans ?_⟩
      rw [encEnd_rollback (h.engine ▸ hpart), Effect.apply_count, ← h.engine]
      rfl

/-- The end of DEC's span. -/
theorem decEnd_hasEffect (final : Bool) {s : State} (hin : RunsInside (.dec final) s)
    (hs : ¬ s.engine.s < s.srcCount) : UnitHasEffect (.dec final) s := by
  have hd : s.engine.d ≤ s.dstCount := hin.1
  have hunit (t : State) (h : Alike (.dec final) s t) : decUnit final t = .next (decEnd final t) :=
    decUnit_end final (h.more.not.mpr hs)
  refine .inl ?_
  by_cases hfill : s.engine.fill = 0
  · refine ⟨_, .count (out := []) (e := { s.engine with commit := s.engine.s }) (k := s.engine.s) le_rfl rfl hd rfl nofun,
      fun t h => (hunit t h).trans ?_⟩
    rw [decEnd_noGroup final (h.engine ▸ hfill), Effect.apply_count, h.engine]
    rfl
  cases final with
  | false =>
    refine ⟨_, .count (out := []) (e := s.engine) (k := s.engine.commit) le_rfl rfl hd rfl nofun,
      fun t h => (hunit t h).trans ?_⟩
    rw [decEnd_rollback (h.engine ▸ hfill), Effect.apply_count, ← h.engine]
    rfl
  | true =>
    cases hn : partialBytes s.engine.fill with
    | none =>
      refine ⟨_, .error (e := s.engine) (k := s.engine.gstart) hin (.tail _ (.head _)) rfl nofun,
        fun t h => (hunit t h).trans ?_⟩
      rw [decEnd_lone (h.engine ▸ hfill) (h.engine ▸ hn), Effect.apply_error, ← h.engine]
      rfl
    | some n =>
      by_cases hroom : s.engine.d + n ≤ s.dstCount
      · refine ⟨_, .count (out := accBytes s.engine.acc n) (e := s.engine.finish n) (k := s.engine.s) le_rfl rfl
          (by rw [accBytes_length]; exact hroom) (by rw [accBytes_length]; rfl) nofun,
          fun t h => (hunit t h).trans ?_⟩
        rw [decEnd_partial (h.engine ▸ hfill) (h.engine ▸ hn) (h.engine ▸ h.dstCount ▸ hroom), Effect.apply_count,
          h.engine, accBytes_length]
      · refine ⟨_, .error (e := s.engine) (k := s.engine.commit) hin (.head _) rfl nofun,
          fun t h => (hunit t h).trans ?_⟩
        rw [decEnd_noRoom (h.engine ▸ hfill) (h.engine ▸ hn) (h.engine ▸ h.dstCount ▸ Nat.not_le.mp hroom),
          Effect.apply_error, ← h.engine]
        rfl

theorem decUnit_hasEffect (final : Bool) {s : State} (hin : RunsInside (.dec final) s) : UnitHasEffect (.dec final) s := by
  have hd : s.engine.d ≤ s.dstCount := hin.1
  by_cases hs : s.engine.s < s.srcCount
  case neg => exact decEnd_hasEffect final hin hs
  have hbyte (t : State) (h : Alike (.dec final) s t) : t.srcByte t.engine.s = s.srcByte s.engine.s := h.byte nofun hs
  refine .inl ?_
  cases hb : rev (s.srcByte s.engine.s) with
  | whitespace =>
    refine ⟨_, .running (out := []) (e := { s.engine with s := s.engine.s + 1 }) nofun hs rfl rfl hd, fun t h => ?_⟩
    rw [commandUnit, decUnit_whitespace final (h.more.mpr hs) (hbyte t h ▸ hb), h.engine]
    rfl
  | invalid =>
    refine ⟨_, .error (e := s.engine) (k := s.engine.s) hin (.tail _ (.head _)) rfl nofun, fun t h => ?_⟩
    rw [commandUnit, decUnit_invalid final (h.more.mpr hs) (hbyte t h ▸ hb), Effect.apply_error, ← h.engine]
    rfl
  | code c =>
    by_cases hfill : s.engine.fill + 1 = 4
    · have hunit (t : State) (h : Alike (.dec final) s t) :
          decUnit final t = .next (decGroup t (s.engine.gather c)) := by
        rw [decUnit_code_closed final (h.more.mpr hs) (hbyte t h ▸ hb) (h.engine ▸ hfill), h.engine]
      by_cases hroom : s.engine.d + 3 ≤ s.dstCount
      · refine ⟨_, .running (out := accBytes (shiftCode s.engine.acc c) 3) (e := (s.engine.gather c).closeGroup 3) nofun hs
          rfl (by rw [accBytes_length]; rfl) (by rw [accBytes_length]; exact hroom), fun t h => (hunit t h).trans ?_⟩
        rw [decGroup_emits (h.dstCount ▸ hroom), Effect.apply_unit, h.engine]
        rfl
      · refine ⟨_, .error (e := s.engine.gather c) (k := s.engine.commit) hin (.head _) rfl nofun,
          fun t h => (hunit t h).trans ?_⟩
        rw [decGroup_noRoom (h.dstCount ▸ Nat.not_le.mp hroom), Effect.apply_error, h.engine]
        rfl
    · refine ⟨_, .running (out := []) (e := s.engine.gather c) nofun hs rfl rfl hd, fun t h => ?_⟩
      rw [commandUnit, decUnit_code_open final (h.more.mpr hs) (hbyte t h ▸ hb) (h.engine ▸ hfill), h.engine]
      rfl

theorem vwrUnit_hasEffect {s : State} (hin : RunsInside .vwr s) : UnitHasEffect .vwr s := by
  have hstart : s.engine.d = 0 := hin.2 rfl
  refine .inl ?_
  by_cases hroom : chunks s.value.toNat ≤ s.dstCount
  · have hlen : (varintSymbols s.value).length = chunks s.value.toNat := by simp [varintSymbols_eq]
    refine ⟨_, .count (out := varintSymbols s.value) (e := { s.engine with d := chunks s.value.toNat }) (k := 0) le_rfl
      (n := chunks s.value.toNat) (by rw [hstart, hlen, Nat.zero_add]) (by rw [hstart, hlen, Nat.zero_add]; exact hroom)
      (by rw [hstart, hlen, Nat.zero_add]) (fun _ => rfl), fun t h => ?_⟩
    rcases vwrUnit_cases t with ⟨hover, -⟩ | ⟨-, hunit⟩
    · rw [h.value, h.dstCount] at hover
      omega
    · rw [commandUnit, hunit, Effect.apply_count, h.value, h.engine, hstart, hlen, Nat.zero_add]
  · refine ⟨_, .error (e := s.engine) (k := 0) hin (.head _) rfl (fun _ => rfl), fun t h => ?_⟩
    rcases vwrUnit_cases t with ⟨-, hunit⟩ | ⟨hfits, -⟩
    · have hstart' : t.engine.d = 0 := h.engine ▸ hstart
      rw [commandUnit, hunit, Effect.apply_error, ← h.engine, hstart']
      rfl
    · rw [h.value, h.dstCount] at hfits
      omega

section
variable {s : State} (c : Code)

theorem vrdChunk_faults (htop : s.engine.v >>> 59 ≠ 0) (hmode : s.cfg.varintOverflow = .fault) :
    vrdChunk s c = .fault .varintOverflow := by
  rw [vrdChunk, if_pos htop, hmode]

theorem vrdChunk_errors (htop : s.engine.v >>> 59 ≠ 0) (hmode : s.cfg.varintOverflow = .error) :
    vrdChunk s c = .next (s.raise .invalidSourceData s.engine.s 0) := by
  rw [vrdChunk, if_pos htop, hmode]

/-- An accepted chunk reads on, or stores the value and completes (R112, R114). -/
theorem vrdAccept_hasEffect (hin : RunsInside .vrd s) (hs : s.engine.s < s.srcCount) :
    ∃ f : Effect, f.Of .vrd s ∧ ∀ t, Alike .vrd s t → vrdAccept t c = f.apply t := by
  have hnone : s.engine.d = 0 := Nat.le_zero.mp hin.1
  cases hflag : c.getLsbD 5 with
  | true =>
    refine ⟨_, .running (out := []) (e := { s.engine with v := shiftChunk s.engine.v c, s := s.engine.s + 1 }) nofun hs
      rfl rfl hin.1, fun t h => ?_⟩
    rw [vrdAccept, if_pos hflag, Effect.apply_unit, h.engine]
    rfl
  | false =>
    have hcount : (BitVec.ofNat 32 (s.engine.s + 1)).toInt = (s.engine.s + 1 : Nat) := ofNat_toInt_of_le (l := s.srcLen) hs
    refine ⟨⟨[], { s.engine with v := shiftChunk s.engine.v c, s := s.engine.s + 1 }, some (shiftChunk s.engine.v c),
      some (BitVec.ofNat 32 (s.engine.s + 1), s.engine.s + 1)⟩,
      { reads := nofun, wrote := rfl, room := hin.1, stores := fun hi => absurd rfl hi, outcome := ?_ }, fun t h => ?_⟩
    · rintro o k ⟨⟩
      exact ⟨.inl (hcount ▸ Int.natCast_nonneg _), nofun⟩
    · have hnone' : t.engine.d = 0 := h.engine ▸ hnone
      rw [vrdAccept, if_neg (Bool.eq_false_iff.mp hflag), Effect.apply_ending t rfl, ← h.engine]
      simp only [List.length_nil, Nat.add_zero, hnone']
      rfl

end

theorem vrdUnit_hasEffect {s : State} (hin : RunsInside .vrd s) : UnitHasEffect .vrd s := by
  have hnone : s.engine.d = 0 := Nat.le_zero.mp hin.1
  -- an error's write-back, for each of the three places that raise one
  have raises {st : Status} {k : Nat} (hst : st ∈ reports .vrd)
      (hunit : ∀ t, Alike .vrd s t → vrdUnit t = .next (t.raise st k 0)) : UnitHasEffect .vrd s := by
    refine .inl ⟨_, .error (e := s.engine) (k := k) hin hst rfl nofun, fun t h => ?_⟩
    have hnone' : t.engine.d = 0 := h.engine ▸ hnone
    rw [commandUnit, hunit t h, Effect.apply_error, ← h.engine, hnone']
    rfl
  by_cases hs : s.engine.s < s.srcCount
  case neg =>
    exact raises (.tail _ (.head _)) fun t h => vrdUnit_end (Nat.not_lt.mp (h.more.not.mpr hs))
  have hbyte (t : State) (h : Alike .vrd s t) : t.srcByte t.engine.s = s.srcByte s.engine.s := h.byte nofun hs
  cases hcode : codeOf (s.srcByte s.engine.s) with
  | none =>
    refine raises (k := s.engine.s) (.head _) fun t h => ?_
    rw [vrdUnit_nonCode (h.more.mpr hs) (hbyte t h ▸ hcode), h.engine]
  | some c =>
    have hunit (t : State) (h : Alike .vrd s t) : vrdUnit t = vrdChunk t c :=
      vrdUnit_code (h.more.mpr hs) (hbyte t h ▸ (codeOf_eq_some_iff _ c).mp hcode)
    by_cases haccept : s.engine.v >>> 59 = 0 ∨ s.cfg.varintOverflow = .wrap
    · obtain ⟨f, hf, happly⟩ := vrdAccept_hasEffect c hin hs
      refine .inl ⟨f, hf, fun t h => ?_⟩
      rw [commandUnit, hunit t h, vrdChunk_accepts c (h.engine ▸ h.cfg ▸ haccept), happly t h]
    · obtain ⟨htop, hwrap⟩ := not_or.mp haccept
      cases hmode : s.cfg.varintOverflow with
      | wrap => exact absurd hmode hwrap
      | fault =>
        exact .inr ⟨rfl, hmode, fun t h => (hunit t h).trans (vrdChunk_faults c (h.engine ▸ htop) (h.cfg ▸ hmode))⟩
      | error =>
        refine raises (k := s.engine.s) (.head _) fun t h => ?_
        rw [hunit t h, vrdChunk_errors c (h.engine ▸ htop) (h.cfg ▸ hmode), h.engine]

/-- Every unit of a command that has stayed in its destination span has one effect. -/
theorem commandUnit_hasEffect (i : Instr) {s : State} (hin : RunsInside i s) : UnitHasEffect i s := by
  cases i with
  | enc final => exact encUnit_hasEffect final hin
  | dec final => exact decUnit_hasEffect final hin
  | vwr => exact vwrUnit_hasEffect hin
  | vrd => exact vrdUnit_hasEffect hin

end Sys2Proof.Machine
end

section
/-! PROOFS. The effect of a whole command (R56, R58), and what follows from it for every command: its frame (R38, R57),
the statuses it can report (R135), and that its operands determine it (R26, R37). -/

namespace Sys2Proof.Machine

/-! ## The units of a command, one after the other -/

/-- The memory keeps the source bytes of a command whose spans are apart, whatever it writes (R42). -/
theorem Effect.Of.srcByte_apply {i : Instr} {s t : State} {f : Effect} (hf : f.Of i s) (hends : f.ends = none)
    (hmem : t.mem.wf = true) (hapart : s.spansApart i = true) (hsrcPtr : t.srcPtr = s.srcPtr)
    (hdstPtr : t.dstPtr = s.dstPtr) (hengine : t.engine = s.engine) (hi : i ≠ .vwr) {k : Nat} (hk : k < s.srcCount) :
    (f.apply t).srcByte k = t.srcByte k := by
  have hroom := hf.room
  have hsource : hasSource i = true := (hasSource_iff i).mpr hi
  rw [State.spansApart, Span.apart_iff] at hapart
  simp only [State.srcSpan, hsource, if_true] at hapart
  have hdst : (s.dstSpan i).base = s.dstPtr.toNat := rfl
  have hread : (f.apply t).srcByte k = (f.apply t).mem.read (t.srcPtr.toNat + k) := by rw [f.apply_running t hends]; rfl
  rw [hread, Effect.apply_mem, Memory.read_writeBytes _ _ _ hmem, if_neg, State.srcByte]
  rw [hsrcPtr, hdstPtr, hengine]
  omega

/-- `t` is `s`, or agrees with it and cannot disturb its source: what a command does on `s` it does on `t`. -/
def Follows (i : Instr) (s t : State) : Prop :=
  t = s ∨ Alike i s t ∧ s.mem.wf = true ∧ t.mem.wf = true ∧ s.spansApart i = true

section
variable {i : Instr} {s t : State} {f : Effect}

theorem Follows.alike (h : Follows i s t) : Alike i s t := by
  rcases h with rfl | ⟨halike, -⟩
  · exact .rfl
  · exact halike

/-- The same unit on both machines leaves them in agreement. -/
theorem Follows.apply (h : Follows i s t) (hf : f.Of i s) (hends : f.ends = none) :
    Follows i (f.apply s) (f.apply t) := by
  rcases h with rfl | ⟨h, hs, ht, hapart⟩
  · exact .inl rfl
  have hstores : f.stores = none := (hf.reads hends).2.1
  refine .inr ⟨?_, by simpa using Memory.wf_writeBytes _ _ hs, by simpa using Memory.wf_writeBytes _ _ ht, ?_⟩
  · refine {
      cfg := by simp [h.cfg]
      value := by simp [h.value]
      engine := by simp
      bytes := fun hi k hk => ?bytes
      busy := ?_, srcPtr := ?_, srcLen := ?_, dstPtr := ?_, dstLen := ?_ }
    case bytes =>
      have hk : k < s.srcCount := by rw [f.apply_running s hends] at hk; exact hk
      rw [hf.srcByte_apply hends ht hapart h.srcPtr h.dstPtr h.engine hi hk,
        hf.srcByte_apply hends hs hapart rfl rfl rfl hi hk, h.bytes hi k hk]
    -- a running command moves no register
    all_goals rw [f.apply_running s hends, f.apply_running t hends]
    exacts [h.busy, h.srcPtr, h.srcLen, h.dstPtr, h.dstLen]
  · rw [f.apply_running s hends]
    exact hapart

/-- A unit that leaves the command running has stayed in the destination span. -/
theorem Effect.Of.runsInside (hf : f.Of i s) (hends : f.ends = none) : RunsInside i (f.apply s) := by
  have hspan : (f.apply s).dstSpan i = s.dstSpan i := by rw [f.apply_running s hends]; rfl
  refine ⟨?_, fun hi => absurd hi (hf.reads hends).1⟩
  rw [hspan, Effect.apply_engine, hf.wrote]
  exact hf.room

/-- Two effects in sequence are one. -/
theorem Effect.Of.andThen {g : Effect} {o : Word} {k : Nat} (hf : f.Of i s) (hends : f.ends = none)
    (hg : g.Of i (f.apply s)) (hdone : g.ends = some (o, k)) : (f.andThen g).Of i s := by
  have hspan : (f.apply s).dstSpan i = s.dstSpan i := by rw [f.apply_running s hends]; rfl
  have hout : s.engine.d + (f.out ++ g.out).length = (f.apply s).engine.d + g.out.length := by
    rw [Effect.apply_engine, hf.wrote, List.length_append, Nat.add_assoc]
  exact {
    reads := fun h => by cases hdone.symm.trans h
    wrote := hg.wrote.trans hout.symm
    room := hspan ▸ hout.trans_le hg.room
    outcome := hg.outcome
    stores := hg.stores }

end

/-- The command running on `s` ends within `n` units, with one effect on `s` and on every machine that follows it; or it
is a VRD whose value is too wide, under FAULT. -/
def RunHasEffect (i : Instr) (n : Nat) (s : State) : Prop :=
  (∃ f o k, Effect.ends f = some (o, k) ∧ f.Of i s ∧
    ∀ t, Follows i s t → drive (commandUnit i) n t = .next (f.apply t)) ∨
  i = .vrd ∧ s.cfg.varintOverflow = .fault ∧ ∀ t, Follows i s t → drive (commandUnit i) n t = .fault .varintOverflow

/-- R155: a unit that leaves the command running has read one source unit, so the units come to an end. -/
theorem drive_hasEffect (i : Instr) (n : Nat) {s : State} (hbusy : s.busy = true) (hin : RunsInside i s)
    (hfuel : s.srcCount - s.engine.s < n) : RunHasEffect i n s := by
  induction n generalizing s with
  | zero => exact absurd hfuel (Nat.not_lt_zero _)
  | succ n ih =>
    have hbusy' (t : State) (h : Follows i s t) : t.busy = true := h.alike.busy.trans hbusy
    rcases commandUnit_hasEffect i hin with ⟨f, hf, hunit⟩ | ⟨hvrd, hmode, hfault⟩
    · have hstep (t : State) (h : Follows i s t) :
          drive (commandUnit i) (n + 1) t = drive (commandUnit i) n (f.apply t) :=
        drive_step _ n (hbusy' t h) (hunit t h.alike)
      cases hends : f.ends with
      | some p =>
        exact .inl ⟨f, p.1, p.2, hends, hf, fun t h =>
          (hstep t h).trans (drive_idle _ n (Effect.apply_busy_of_ends t hends))⟩
      | none =>
        obtain ⟨-, hstores, hmore, hread⟩ := hf.reads hends
        have hbusyNext : (f.apply s).busy = true := by rw [f.apply_running s hends]; exact hbusy
        have hcount : (f.apply s).srcCount = s.srcCount := by rw [f.apply_running s hends]; rfl
        have hless : (f.apply s).srcCount - (f.apply s).engine.s < n := by
          rw [hcount, Effect.apply_engine, hread]
          omega
        rcases ih hbusyNext (hf.runsInside hends) hless with ⟨g, o, k, hdone, hg, hdrive⟩ | ⟨hvrd, hmode, hdrive⟩
        · refine .inl ⟨f.andThen g, o, k, hdone, hf.andThen hends hg hdone, fun t h => ?_⟩
          have hwrote : f.engine.d = t.engine.d + f.out.length := by rw [h.alike.engine, hf.wrote]
          rw [hstep t h, hdrive _ (h.apply hf hends), f.apply_andThen g t hends hstores hwrote]
        · exact .inr ⟨hvrd, by simpa using hmode, fun t h => (hstep t h).trans (hdrive _ (h.apply hf hends))⟩
    · refine .inr ⟨hvrd, hmode, fun t h => ?_⟩
      simp [drive, hbusy' t h, hfault t h.alike]

/-! ## A whole command -/

/-- An idle machine on which the command passes its entry checks (R139). -/
structure Accepts (i : Instr) (s : State) : Prop where
  idle : s.busy = false
  lengths : s.lengthsOk i = true
  inside : s.spansInside i = true
  apart : s.spansApart i = true

theorem Accepts.exec_eq_drive {i : Instr} {s : State} (h : Accepts i s) :
    exec i s = drive (commandUnit i) (s.srcCount + 1) s.start :=
  (exec_eq_runCommand i s).trans (runCommand_starts h.idle h.lengths h.inside h.apart)

/-- A command that starts has written nothing. -/
theorem runsInside_start (i : Instr) (s : State) : RunsInside i s.start := ⟨Nat.zero_le _, fun _ => rfl⟩

theorem start_hasEffect (i : Instr) (s : State) : RunHasEffect i (s.srcCount + 1) s.start :=
  drive_hasEffect i _ rfl (runsInside_start i s) (Nat.lt_succ_of_le (Nat.sub_le _ _))

/-- What a command leaves: it was rejected for a negative length, or it had an effect from its start. -/
theorem exec_next {i : Instr} {s t : State} (h : exec i s = .next t) : s.busy = false ∧
    ((s.lengthsOk i = false ∧ t = s.start.reject .invalidLength) ∨
      Accepts i s ∧ ∃ f o k, Effect.ends f = some (o, k) ∧ f.Of i s.start ∧ t = f.apply s.start) := by
  rw [exec_eq_runCommand] at h
  obtain ⟨hidle, hreject | ⟨hlen, hin, hapart, hdrive⟩⟩ := runCommand_next h
  · exact ⟨hidle, .inl hreject⟩
  refine ⟨hidle, .inr ⟨⟨hidle, hlen, hin, hapart⟩, ?_⟩⟩
  rcases start_hasEffect i s with ⟨f, o, k, hends, hf, happly⟩ | ⟨-, -, hfault⟩
  · exact ⟨f, o, k, hends, hf, Host.Outcome.next.inj (hdrive.symm.trans (happly _ (.inl rfl)))⟩
  · cases hdrive.symm.trans (hfault _ (.inl rfl))

/-! ## The frame -/

/-- What no command changes (R57): the parameters, `CMD`, `BUSY` at its end, and the model's own fields. -/
structure CommandFrame (s t : State) : Prop where
  cfg : t.cfg = s.cfg
  cmd : t.cmd = s.cmd
  busy : t.busy = s.busy
  schedule : t.schedule = s.schedule
  observed : t.observed = s.observed
  draws : t.draws = s.draws

theorem exec_frame {i : Instr} {s t : State} (h : exec i s = .next t) : CommandFrame s t := by
  obtain ⟨hidle, ⟨-, rfl⟩ | ⟨-, f, o, k, hends, -, rfl⟩⟩ := exec_next h
  · exact ⟨rfl, rfl, hidle.symm, rfl, rfl, rfl⟩
  · exact ⟨by simp, by simp, (Effect.apply_busy_of_ends _ hends).trans hidle.symm, by simp, by simp, by simp⟩

theorem exec_idle {i : Instr} {s t : State} (h : exec i s = .next t) : t.busy = false :=
  (exec_frame h).busy.trans (exec_next h).1

/-- R57, R112: only VRD changes `VALUE`. -/
theorem exec_value {i : Instr} {s t : State} (hi : i ≠ .vrd) (h : exec i s = .next t) : t.value = s.value := by
  obtain ⟨-, ⟨-, rfl⟩ | ⟨-, f, o, k, -, hf, rfl⟩⟩ := exec_next h
  · rfl
  · simp [hf.stores hi]

/-- The difference of the lengths is the number of bytes written (R58): it is far below 2^32. -/
theorem Effect.Of.dstOut {i : Instr} {s : State} {f : Effect} {o : Word} {k : Nat} (hf : f.Of i s.start)
    (hends : f.ends = some (o, k)) : (s.dstLen - (f.apply s.start).dstLen).toNat = f.out.length := by
  have hroom := hf.room.trans (s.start.dstSpan_len_le i)
  have hlt := BitVec.toInt_lt (x := s.dstLen)
  rw [State.dstCount] at hroom
  have hsmall : f.out.length < 2 ^ 32 := by
    simp only [State.start_dstLen, State.start_engine, Engine.start] at hroom
    omega
  rw [Effect.apply_dstLen_of_ends _ hends]
  simpa [Engine.start] using hsmall

/-- R38: memory changes only at the `dst_out` bytes from the destination cursor on. -/
theorem exec_mem_outside {i : Instr} {s t : State} (hmem : s.mem.wf = true) (h : exec i s = .next t) {a : Nat}
    (ha : a < s.dstPtr.toNat ∨ s.dstPtr.toNat + (s.dstLen - t.dstLen).toNat ≤ a) : t.mem.read a = s.mem.read a := by
  obtain ⟨-, ⟨-, rfl⟩ | ⟨-, f, o, k, hends, hf, rfl⟩⟩ := exec_next h
  · rfl
  · rw [hf.dstOut hends] at ha
    rw [Effect.apply_mem]
    refine (Memory.read_writeBytes _ _ _ hmem).trans (if_neg ?_)
    simp only [State.start_dstPtr, State.start_engine, Engine.start]
    omega

/-- Settles O30: the frame of every command, for the two that have both spans. -/
theorem encDecFrame : Obligations.EncDecFrame := by
  intro s t final hmem h
  have frame (i : Instr) (hi : i ≠ .vrd) (h : exec i s = .next t) : t.cfg = s.cfg ∧ t.cmd = s.cmd ∧ t.busy = s.busy ∧
      t.value = s.value ∧ t.schedule = s.schedule ∧ t.observed = s.observed ∧ t.draws = s.draws ∧
      ∀ a, a < s.dstPtr.toNat ∨ s.dstPtr.toNat + (s.dstLen - t.dstLen).toNat ≤ a → t.mem.read a = s.mem.read a := by
    obtain ⟨hcfg, hcmd, hbusy, hschedule, hobserved, hdraws⟩ := exec_frame h
    exact ⟨hcfg, hcmd, hbusy, exec_value hi h, hschedule, hobserved, hdraws, fun a => exec_mem_outside hmem h⟩
  exact h.elim (frame (.enc final) nofun) (frame (.dec final) nofun)

/-- A cursor that moves by nothing stays (R18). -/
theorem truncAddr_add_zero {c : Config} {p : Word} (hp : p.toNat < c.space) :
    truncAddr c (p + BitVec.ofNat 32 0) = p := by
  apply BitVec.eq_of_toNat_eq
  rw [truncAddr_toNat, BitVec.add_zero]
  exact Nat.mod_eq_of_lt hp

/-- Settles O31: VWR's source offset is 0. -/
theorem vwrFrame : Obligations.VwrFrame := by
  intro s t hwf h
  obtain ⟨hcfg, hcmd, hbusy, hschedule, hobserved, hdraws⟩ := exec_frame h
  have hsrc : t.srcPtr = s.srcPtr ∧ t.srcLen = s.srcLen := by
    obtain ⟨-, ⟨-, rfl⟩ | ⟨-, f, o, k, hends, hf, rfl⟩⟩ := exec_next h
    · exact ⟨rfl, rfl⟩
    · obtain rfl : k = 0 := (hf.outcome o k hends).2 rfl
      rw [Effect.apply_srcPtr_of_ends _ hends, Effect.apply_srcLen_of_ends _ hends]
      exact ⟨truncAddr_add_zero hwf.srcOk, by simp⟩
  exact ⟨hcfg, hcmd, hbusy, hsrc.1, hsrc.2, exec_value (i := .vwr) nofun h, hschedule, hobserved, hdraws,
    fun a => exec_mem_outside hwf.memOk h⟩

/-- VRD has no destination span, so it writes nothing (R42). -/
theorem Effect.Of.out_vrd {s : State} {f : Effect} (hf : f.Of .vrd s.start) : f.out = [] :=
  List.eq_nil_of_length_eq_zero (Nat.le_zero.mp ((Nat.le_add_left _ _).trans hf.room))

/-- Settles O32: VRD writes nothing, and an error of it stores no `VALUE`. -/
theorem vrdFrame : Obligations.VrdFrame := by
  intro s t hwf h
  obtain ⟨hcfg, hcmd, hbusy, hschedule, hobserved, hdraws⟩ := exec_frame h
  refine ⟨hcfg, hcmd, hbusy, ?_⟩
  obtain ⟨-, ⟨-, rfl⟩ | ⟨-, f, o, k, hends, hf, rfl⟩⟩ := exec_next h
  · exact ⟨rfl, rfl, rfl, rfl, rfl, rfl, fun _ => rfl⟩
  have hzero : s.start.engine.d + f.out.length = 0 := by rw [hf.out_vrd]; rfl
  refine ⟨?_, ?_, by simp [hf.out_vrd, Memory.writeBytes], hschedule, hobserved, hdraws, fun hneg => ?_⟩
  · rw [Effect.apply_dstPtr_of_ends _ hends, hzero]
    exact truncAddr_add_zero hwf.dstOk
  · rw [Effect.apply_dstLen_of_ends _ hends, hzero]
    simp
  · rw [Effect.apply_result_of_ends _ hends] at hneg
    rcases (hf.outcome o k hends).1 with hcount | ⟨hstores, -⟩
    · omega
    · simp [hstores]

/-! ## Statuses -/

/-- R135: a command reports a count, INVALID_LENGTH, or one of its own errors. -/
theorem exec_status {i : Instr} {s t : State} (h : exec i s = .next t) :
    0 ≤ t.result.toInt ∨ t.result.toInt = -5 ∨ ∃ st ∈ reports i, t.result.toInt = st.toInt := by
  obtain ⟨-, ⟨-, rfl⟩ | ⟨-, f, o, k, hends, hf, rfl⟩⟩ := exec_next h
  · exact .inr (.inl rfl)
  · rw [Effect.apply_result_of_ends _ hends]
    rcases (hf.outcome o k hends).1 with hcount | ⟨-, st, hst, rfl⟩
    · exact .inl hcount
    · exact .inr (.inr ⟨st, hst, st.code_toInt⟩)

/-- Settles O33: the errors of each command as numbers. -/
theorem statusesOfEachCommand : Obligations.StatusesOfEachCommand := by
  intro s t
  refine ⟨fun final h => ?enc, fun final h => ?dec, fun h => ?vwr, fun h => ?vrd⟩
  all_goals
    have hstatus := exec_status h
    simp only [reports, List.mem_cons, List.not_mem_nil, or_false, exists_eq_or_imp, exists_eq_left, Status.toInt] at hstatus
    omega

/-! ## The operands -/

/-- The source bytes, one at a time. -/
theorem State.srcByte_eq_of_srcBytes {s t : State} (hlen : s.srcLen = t.srcLen) (hbytes : s.srcBytes = t.srcBytes)
    {k : Nat} (hk : k < s.srcCount) : t.srcByte k = s.srcByte k := by
  have hget := congrArg (fun bs : List Byte => bs[k]?) hbytes
  have hk' : k < s.srcLen.toInt.toNat := hk
  simpa [State.srcBytes, readSpan, hk', ← hlen, State.srcByte] using hget.symm

/-- A run of bytes reads back from its start. -/
theorem Memory.read_writeBytes_add {m m' : Memory} (hm : m.wf = true) (hm' : m'.wf = true) (x : Nat) (bs : List Byte)
    {k : Nat} (hk : k < bs.length) : (m.writeBytes x bs).read (x + k) = (m'.writeBytes x bs).read (x + k) := by
  rw [Memory.read_writeBytes bs x _ hm, Memory.read_writeBytes bs x _ hm', if_pos (by omega), if_pos (by omega)]

/-- Settles O34: both machines reject a negative length; else they start alike, and a command has one effect on machines
that are alike. -/
theorem operandsDetermineOutcome : Obligations.OperandsDetermineOutcome := by
  intro i s t s' hs ht hsmem htmem hcfg hsrcPtr hsrcLen hdstPtr hdstLen hvalue hbytes h
  have hlen : t.lengthsOk i = s.lengthsOk i := by rw [State.lengthsOk, State.lengthsOk, hsrcLen, hdstLen]
  obtain ⟨-, ⟨hneg, rfl⟩ | ⟨haccepts, -⟩⟩ := exec_next h
  · refine ⟨_, exec_rejects ht (hlen.trans hneg), rfl, hsrcPtr.symm, hsrcLen.symm, hdstPtr.symm, hdstLen.symm, hvalue.symm,
      rfl, fun k hk => ?_⟩
    simp at hk
  have hsrcSpan : t.srcSpan i = s.srcSpan i := by simp [State.srcSpan, State.srcCount, hsrcPtr, hsrcLen]
  have hdstSpan : t.dstSpan i = s.dstSpan i := by simp [State.dstSpan, State.dstCount, hdstPtr, hdstLen]
  have haccepts' : Accepts i t := by
    obtain ⟨-, hlengths, hinside, hapart⟩ := haccepts
    refine ⟨ht, hlen.trans hlengths, ?_, ?_⟩
    · rwa [State.spansInside, hsrcSpan, hdstSpan, ← hcfg]
    · rwa [State.spansApart, hsrcSpan, hdstSpan]
  have hcount : t.srcCount = s.srcCount := by rw [State.srcCount, ← hsrcLen, State.srcCount]
  have hfollows : Follows i s.start t.start := .inr ⟨{
    cfg := hcfg.symm, busy := rfl, srcPtr := hsrcPtr.symm, srcLen := hsrcLen.symm, dstPtr := hdstPtr.symm
    dstLen := hdstLen.symm, value := hvalue.symm, engine := rfl
    bytes := fun hi k hk => State.srcByte_eq_of_srcBytes hsrcLen (hbytes hi) hk }, hsmem, htmem, haccepts.apart⟩
  rw [haccepts.exec_eq_drive] at h
  rcases start_hasEffect i s with ⟨f, o, k, hends, hf, happly⟩ | ⟨-, -, hfault⟩
  · obtain rfl := Host.Outcome.next.inj ((happly _ (.inl rfl)).symm.trans h)
    refine ⟨f.apply t.start, ?_, ?_⟩
    · rw [haccepts'.exec_eq_drive, hcount, happly _ hfollows]
    · simp only [Effect.apply_result_of_ends _ hends, Effect.apply_srcPtr_of_ends _ hends,
        Effect.apply_srcLen_of_ends _ hends, Effect.apply_dstPtr_of_ends _ hends, Effect.apply_dstLen_of_ends _ hends,
        Effect.apply_busy_of_ends _ hends, Effect.apply_value, Effect.apply_mem, State.start_cfg, State.start_srcPtr,
        State.start_srcLen, State.start_dstPtr, State.start_dstLen, State.start_value, State.start_mem, State.start_engine,
        hcfg, hsrcPtr, hsrcLen, hdstPtr, hdstLen, hvalue, true_and]
      intro j hj
      have hout := hf.dstOut hends
      rw [Effect.apply_dstLen_of_ends _ hends] at hout
      simp only [State.start_dstLen, State.start_engine, hdstLen] at hout
      exact Memory.read_writeBytes_add htmem hsmem _ _ (hout ▸ hj)
  · cases (hfault _ (.inl rfl)).symm.trans h

end Sys2Proof.Machine
end

section
/-! PROOFS. What a turn can do, said once for each kind of turn, and from it when `BUSY` changes (R21). -/

namespace Sys2Proof.Machine

section
variable {s t : State}

theorem runWord_next {w : Word} (h : runWord w s = .next t) :
    (∃ i, decode w = .instr i ∧ exec i s = .next t) ∨ t = runIllegal s := by
  unfold runWord at h
  cases hw : decode w with
  | instr i => rw [hw] at h; exact .inl ⟨i, rfl, h⟩
  | illegal why => rw [hw] at h; exact .inr (Host.Outcome.next.inj h).symm

theorem startWord_next {w : Word} (h : startWord w s = .next t) :
    (∃ i, decode w = .instr i ∧ beginCommand i s = .next t) ∨ t = runIllegal s := by
  unfold startWord at h
  cases hw : decode w with
  | instr i => rw [hw] at h; exact .inl ⟨i, rfl, h⟩
  | illegal why => rw [hw] at h; exact .inr (Host.Outcome.next.inj h).symm

/-- A register write that the port takes: at a reserved offset it has no effect, and otherwise the block is idle and the
word is stored, or run from `CMD`. -/
theorem hostWrite_next {a : PortAccess} {w : Word} (h : hostWrite a w s = .next t) :
    t = s ∨ s.busy = false ∧ ((∃ r, t = s.writeReg r w ∧ r ≠ .cmd) ∨ runWord w (s.writeReg .cmd w) = .next t) := by
  unfold hostWrite at h
  split at h
  · cases h
  split at h
  · exact .inl (Host.Outcome.next.inj h).symm
  rename_i r _
  cases hbusy : s.busy with
  | true => simp [hbusy] at h
  | false =>
    refine .inr ⟨rfl, ?_⟩
    by_cases hr : r = .cmd
    · exact .inr (by simpa [hbusy, hr] using h)
    · exact .inl ⟨r, by simpa [hbusy, hr, eq_comm] using h, hr⟩

theorem hostStart_next {w : Word} (h : hostStart w s = .next t) :
    s.busy = false ∧ startWord w (s.writeReg .cmd w) = .next t := by
  cases hbusy : s.busy with
  | true => simp [hostStart, hbusy] at h
  | false => exact ⟨rfl, by simpa [hostStart, hbusy] using h⟩

/-- A register read changes the observations and the draws only. -/
theorem hostRead_next {a : PortAccess} (h : hostRead a s = .next t) :
    ∃ o d, t = { s with observed := o, draws := d } := by
  unfold hostRead at h
  split at h
  · cases h
  split at h
  · exact ⟨_, _, (Host.Outcome.next.inj h).symm⟩
  split at h
  all_goals exact ⟨_, _, (Host.Outcome.next.inj h).symm⟩

/-- A memory write that is made changes the memory, inside the space. -/
theorem hostMemWrite_next {a : Nat} {b : Byte} (h : hostMemWrite a b s = .next t) :
    a < s.cfg.space ∧ t = { s with mem := s.mem.write a b } := by
  unfold hostMemWrite at h
  split_ifs at h with hspace
  exact ⟨Nat.not_le.mp hspace, (Host.Outcome.next.inj h).symm⟩

theorem hostMemRead_next {a : Nat} (h : hostMemRead a s = .next t) : ∃ o, t = { s with observed := o } := by
  unfold hostMemRead at h
  split_ifs at h
  exact ⟨_, (Host.Outcome.next.inj h).symm⟩

/-- A wait on an idle machine observes `STATUS`; on a busy one it moves the engine and stays scheduled. -/
theorem waitTurn_next (h : waitTurn s = .next t) :
    (s.busy = false ∧ ∃ o, t = { s with observed := o }) ∨
    s.busy = true ∧ ∃ o l, engineTurn { s with observed := o, schedule := l } = .next t := by
  rcases Bool.eq_false_or_eq_true s.busy with hbusy | hbusy
  · rw [waitTurn, if_pos hbusy] at h
    exact .inr ⟨hbusy, _, _, h⟩
  · rw [waitTurn, if_neg (Bool.eq_false_iff.mp hbusy)] at h
    exact .inl ⟨hbusy, _, (Host.Outcome.next.inj h).symm⟩

/-- A step takes the next turn, or moves the engine. -/
theorem step_next (h : step s = .next t) :
    (s.schedule = [] ∧ engineTurn s = .next t) ∨
    ∃ turn rest, s.schedule = turn :: rest ∧ takeTurn turn { s with schedule := rest } = .next t := by
  cases hschedule : s.schedule with
  | nil => exact .inl ⟨rfl, (step_nil hschedule).symm.trans h⟩
  | cons turn rest => exact .inr ⟨turn, rest, rfl, (step_cons hschedule).symm.trans h⟩

/-! ## `BUSY` -/

/-- A `CMD` write in the atomic form ends with `BUSY` = 0. -/
theorem runWord_idle {w : Word} (h : runWord w s = .next t) : t.busy = false := by
  rcases runWord_next h with ⟨i, -, hexec⟩ | rfl
  · exact exec_idle hexec
  · rfl

/-- The turns that may raise `BUSY`, and those that may clear it. -/
theorem takeTurn_busy {turn : Turn} (h : takeTurn turn s = .next t) :
    (s.busy = false → t.busy = true → ∃ w, turn = .startHeld w) ∧
    (s.busy = true → t.busy = false → turn = .engine ∨ turn = .wait ∨ turn = .reset) := by
  cases turn with
  | regWrite a w =>
    rcases hostWrite_next h with rfl | ⟨hidle, ⟨r, rfl, -⟩ | hrun⟩
    · exact ⟨fun h0 h1 => by simp [h0] at h1, fun h1 h0 => by simp [h0] at h1⟩
    · exact ⟨fun _ h1 => by simp [hidle] at h1, fun h1 => by simp [hidle] at h1⟩
    · exact ⟨fun _ h1 => by simp [runWord_idle hrun] at h1, fun h1 => by simp [hidle] at h1⟩
  | regRead a =>
    obtain ⟨o, d, rfl⟩ := hostRead_next h
    exact ⟨fun h0 h1 => by simp [h0] at h1, fun h1 h0 => by simp [h1] at h0⟩
  | startHeld w => exact ⟨fun _ _ => ⟨w, rfl⟩, fun h1 => by simp [(hostStart_next h).1] at h1⟩
  | engine =>
    refine ⟨fun h0 h1 => ?_, fun _ _ => .inl rfl⟩
    obtain rfl := Host.Outcome.next.inj ((engineTurn_idle h0).symm.trans h)
    simp [h0] at h1
  | wait =>
    refine ⟨fun h0 h1 => ?_, fun _ _ => .inr (.inl rfl)⟩
    rcases waitTurn_next h with ⟨-, o, rfl⟩ | ⟨hbusy, -⟩
    · simp [h0] at h1
    · simp [h0] at hbusy
  | memWrite a b =>
    obtain ⟨-, rfl⟩ := hostMemWrite_next h
    exact ⟨fun h0 h1 => by simp [h0] at h1, fun h1 h0 => by simp [h1] at h0⟩
  | memRead a =>
    obtain ⟨o, rfl⟩ := hostMemRead_next h
    exact ⟨fun h0 h1 => by simp [h0] at h1, fun h1 h0 => by simp [h1] at h0⟩
  | reset =>
    obtain rfl := Host.Outcome.next.inj h
    exact ⟨fun _ h1 => by simp at h1, fun _ _ => .inr (.inr rfl)⟩

end

/-- Settles O39: with nothing scheduled the engine moves, which an idle block does not feel. -/
theorem busyChangesOnlyByCommandsAndReset : Obligations.BusyChangesOnlyByCommandsAndReset := by
  intro s t h
  rcases step_next h with ⟨hschedule, hengine⟩ | ⟨turn, rest, hschedule, hturn⟩
  · refine ⟨fun h0 h1 => ?_, fun _ _ => .inl hschedule⟩
    obtain rfl := Host.Outcome.next.inj ((engineTurn_idle h0).symm.trans hengine)
    simp [h0] at h1
  · obtain ⟨hrise, hfall⟩ := takeTurn_busy hturn
    rw [hschedule]
    refine ⟨fun h0 h1 => ?_, fun h1 h0 => .inr ⟨rest, ?_⟩⟩
    · obtain ⟨w, rfl⟩ := hrise h0 h1
      exact ⟨w, rest, rfl⟩
    · rcases hfall h1 h0 with rfl | rfl | rfl
      exacts [.inl rfl, .inr (.inl rfl), .inr (.inr rfl)]

end Sys2Proof.Machine
end

section
/-! PROOFS. The invariant of the machine (R8, R18, R25, R31, R41, R42): every command and every turn keeps it, and what it
gives for a reset that abandons a command (R148). -/

namespace Sys2Proof.Machine

/-! ## The transient state of a running command -/

/-- Every command starts within the bounds of R25. -/
theorem progressOk_start (i : Instr) (s : State) : progressOk i s.start := by
  cases i with
  | enc final =>
    exact { fillSmall := Nat.zero_le _, readBound := Nat.zero_le _, writeBound := Nat.zero_le _, readSplit := rfl
            wholeGroups := rfl, accBits := by simp [Engine.start] }
  | dec final =>
    exact { fillSmall := Nat.zero_le _, readBound := Nat.zero_le _, writeBound := Nat.zero_le _, readSplit := Nat.le_refl _
            groupStart := nofun, wholeGroups := rfl, accBits := by simp [Engine.start] }
  | vwr => rfl
  | vrd => exact { readBound := Nat.zero_le _, nothingWritten := rfl }

/-- The bounds speak of the transient state and the lengths only. -/
theorem progressOk_environment {i : Instr} {s : State} (h : progressOk i s) (m : Memory) (l : List Turn)
    (o : List Observation) (d : Nat) :
    progressOk i { s with mem := m, schedule := l, observed := o, draws := d } := by
  cases i with
  | enc final =>
    obtain ⟨hfill, hread, hwrite, hsplit, hgroups, hbits⟩ := h
    exact ⟨hfill, hread, hwrite, hsplit, hgroups, hbits⟩
  | dec final =>
    obtain ⟨hfill, hread, hwrite, hsplit, hstart, hgroups, hbits⟩ := h
    exact ⟨hfill, hread, hwrite, hsplit, hstart, hgroups, hbits⟩
  | vwr => exact h
  | vrd =>
    obtain ⟨hread, hnothing⟩ := h
    exact ⟨hread, hnothing⟩

theorem progressOk.runsInside {i : Instr} {s : State} (h : progressOk i s) : RunsInside i s := by
  cases i with
  | enc final => exact ⟨EncProgress.writeBound h, nofun⟩
  | dec final => exact ⟨DecProgress.writeBound h, nofun⟩
  | vwr =>
    have hstart : s.engine.d = 0 := congrArg Engine.d h
    exact ⟨hstart ▸ Nat.zero_le _, fun _ => hstart⟩
  | vrd => exact ⟨(VrdProgress.nothingWritten h).le, nofun⟩

/-- R81, R82: a unit of ENC. -/
theorem EncProgress.step {final : Bool} {s t : State} (h : EncProgress s) (hunit : encUnit final s = .next t)
    (hbusy : t.busy = true) : EncProgress t := by
  have hacc := h.acc_lt
  obtain ⟨hfill, hread, hwrite, hsplit, hgroups, hbits⟩ := h
  rcases encUnit_cases final s with ⟨acc, hs, hopen, rfl, e⟩ | ⟨acc, hs, hclosed, rfl, hroom, e⟩ |
      ⟨e', -, -, -, -, e⟩ | ⟨-, e⟩
  all_goals obtain rfl := Host.Outcome.next.inj (e.symm.trans hunit)
  · have hb := (s.srcByte s.engine.s).isLt
    refine ⟨?_, ?_, hwrite, ?_, hgroups, ?_⟩
    all_goals simp only [State.withEngine_engine, State.withEngine_srcCount]
    · omega
    · omega
    · omega
    · rw [shiftByte_toNat hacc, Nat.mul_add, pow_add]
      omega
  · exact ⟨by simp, by simpa using hs, by simpa using hroom, by simp, by simp; omega, by simp⟩
  · simp at hbusy
  · rcases encEnd_cases final s with ⟨-, -, -, e⟩ | ⟨n, -, -, -, -, e⟩ | ⟨-, e⟩ <;> simp [e] at hbusy

/-- R93, R95, R96: a unit of DEC. -/
theorem DecProgress.step {final : Bool} {s t : State} (h : DecProgress s) (hunit : decUnit final s = .next t)
    (hbusy : t.busy = true) : DecProgress t := by
  have hacc := h.acc_lt
  obtain ⟨hfill, hread, hwrite, hsplit, hstart, hgroups, hbits⟩ := h
  rcases decUnit_cases final s with ⟨hs, -, e⟩ | ⟨-, -, e⟩ | ⟨c, g, hs, -, hopen, rfl, e⟩ |
      ⟨c, g, hs, -, hclosed, hroom, e⟩ | ⟨e', -, -, -, -, e⟩ | ⟨-, e⟩
  all_goals obtain rfl := Host.Outcome.next.inj (e.symm.trans hunit)
  · refine ⟨hfill, hs, hwrite, hsplit.trans (Nat.le_succ _), fun hpos => ?_, hgroups, hbits⟩
    obtain ⟨hlo, hhi⟩ := hstart hpos
    exact ⟨hlo, hhi.trans (Nat.le_succ _)⟩
  · simp at hbusy
  · have hc := c.isLt
    refine ⟨?_, hs, hwrite, ?_, fun _ => ?_, hgroups, ?_⟩
    all_goals simp only [State.withEngine_engine]
    · omega
    · omega
    · split_ifs <;> omega
    · rw [shiftCode_toNat hacc, Nat.mul_add, pow_add]
      omega
  · exact ⟨by simp, hs, hroom, by simp, by simp, by simp; omega, by simp⟩
  · simp at hbusy
  · rcases decEnd_cases final s with ⟨-, e⟩ | ⟨-, -, -, e⟩ | ⟨n, -, -, -, -, e⟩ | ⟨n, -, -, -, -, e⟩ | ⟨-, -, e⟩ <;>
      simp [e] at hbusy

/-- R112: a unit of VRD. -/
theorem VrdProgress.step {s t : State} (h : VrdProgress s) (hunit : vrdUnit s = .next t) (hbusy : t.busy = true) :
    VrdProgress t := by
  obtain ⟨hread, hnothing⟩ := h
  rcases vrdUnit_cases s with ⟨c, hs, -, e⟩ | ⟨-, -, e⟩ | ⟨-, e⟩
  · rw [e] at hunit
    rcases vrdChunk_cases s c with ⟨e, -⟩ | ⟨e, -⟩ | ⟨e, -⟩
    · obtain rfl := Host.Outcome.next.inj (e.symm.trans hunit)
      rcases vrdAccept_cases s c with ⟨-, e⟩ | ⟨-, e⟩
      · rw [e]
        exact ⟨hs, hnothing⟩
      · simp [e] at hbusy
    · cases e.symm.trans hunit
    · obtain rfl := Host.Outcome.next.inj (e.symm.trans hunit)
      simp at hbusy
  all_goals
    obtain rfl := Host.Outcome.next.inj (e.symm.trans hunit)
    simp at hbusy

theorem vwrUnit_ends {s t : State} (hunit : vwrUnit s = .next t) : t.busy = false := by
  rcases vwrUnit_cases s with ⟨-, e⟩ | ⟨-, e⟩
  all_goals
    obtain rfl := Host.Outcome.next.inj (e.symm.trans hunit)
    rfl

/-- Every unit that leaves its command running keeps the bounds of R25. -/
theorem progressOk.step {i : Instr} {s t : State} (h : progressOk i s) (hunit : commandUnit i s = .next t)
    (hbusy : t.busy = true) : progressOk i t := by
  cases i with
  | enc final => exact EncProgress.step h hunit hbusy
  | dec final => exact DecProgress.step h hunit hbusy
  | vwr => simp [vwrUnit_ends hunit] at hbusy
  | vrd => exact VrdProgress.step h hunit hbusy

/-! ## The invariant -/

/-- Where no command runs, the invariant asks for the parameters, the pointers and the memory. -/
theorem State.Wf.of_idle {s : State} (hcfg : s.cfg.wf = true) (hsrc : s.srcPtr.toNat < s.cfg.space)
    (hdst : s.dstPtr.toNat < s.cfg.space) (hmem : s.mem.wf = true) (hbelow : s.mem.below s.cfg.space = true)
    (hidle : s.busy = false) : s.Wf :=
  ⟨hcfg, hsrc, hdst, hmem, hbelow, fun hbusy => by simp [hidle] at hbusy⟩

theorem truncAddr_lt (c : Config) (w : Word) : (truncAddr c w).toNat < c.space := by
  rw [truncAddr_toNat]
  exact Nat.mod_lt _ (Nat.two_pow_pos _)

section
variable {s : State} {i : Instr} {f : Effect} (hmem : s.mem.wf = true) (hbelow : s.mem.below s.cfg.space = true)
  (hf : f.Of i s) (hin : s.spansInside i = true)
include hmem hbelow hf hin

/-- What a command writes is inside its destination span, which is inside the space (R41). -/
theorem Effect.Of.mem_apply : (f.apply s).mem.wf = true ∧ (f.apply s).mem.below (f.apply s).cfg.space = true := by
  have hroom := hf.room
  rw [Effect.apply_mem, Effect.apply_cfg]
  refine ⟨Memory.wf_writeBytes _ _ hmem, ?_⟩
  cases hdest : hasDest i with
  | false =>
    have hnone : f.out = [] := by
      refine List.eq_nil_of_length_eq_zero ?_
      simp only [State.dstSpan, hdest, Bool.false_eq_true, if_false] at hroom
      omega
    rw [hnone]
    exact hbelow
  | true =>
    have htop : s.dstPtr.toNat + (s.dstSpan i).len ≤ s.cfg.space := by
      simp only [State.spansInside, hdest, Span.inside, Bool.and_eq_true, Bool.not_true, Bool.false_or,
        decide_eq_true_eq] at hin
      exact hin.2
    exact Memory.below_writeBytes _ _ hbelow (by omega)

/-- An effect that ends a command leaves an idle machine that meets the invariant. -/
theorem Effect.Of.wf_apply_ending {o : Word} {k : Nat} (hcfg : s.cfg.wf = true) (hends : f.ends = some (o, k)) :
    (f.apply s).Wf := by
  obtain ⟨hmem', hbelow'⟩ := hf.mem_apply hmem hbelow hin
  refine .of_idle (by simpa using hcfg) ?_ ?_ hmem' hbelow' (Effect.apply_busy_of_ends s hends)
  · rw [Effect.apply_cfg, Effect.apply_srcPtr_of_ends s hends]
    exact truncAddr_lt _ _
  · rw [Effect.apply_cfg, Effect.apply_dstPtr_of_ends s hends]
    exact truncAddr_lt _ _

end

section
variable {s : State} (hwf : s.Wf)
include hwf

/-- The invariant does not speak of the model's own fields, and of the memory only its form and bounds. -/
theorem State.Wf.environment {m : Memory} (hmem : m.wf = true) (hbelow : m.below s.cfg.space = true) (l : List Turn)
    (o : List Observation) (d : Nat) :
    ({ s with mem := m, schedule := l, observed := o, draws := d } : State).Wf where
  cfgOk := hwf.cfgOk
  srcOk := hwf.srcOk
  dstOk := hwf.dstOk
  memOk := hmem
  memBelow := hbelow
  runningOk hbusy := by
    obtain ⟨i, hcmd, hlen, hin, hapart, hprogress⟩ := hwf.runningOk hbusy
    exact ⟨i, hcmd, hlen, hin, hapart, progressOk_environment hprogress m l o d⟩

theorem State.Wf.withSchedule (l : List Turn) : ({ s with schedule := l } : State).Wf :=
  hwf.environment hwf.memOk hwf.memBelow l s.observed s.draws

/-- A register write on an idle machine: pointers are cut to `ADDR_W` bits (R18). -/
theorem State.Wf.writeReg (hidle : s.busy = false) (r : Reg) (w : Word) : (s.writeReg r w).Wf := by
  refine .of_idle ?_ ?_ ?_ ?_ ?_ ((s.writeReg_busy w r).trans hidle)
  · simpa using hwf.cfgOk
  · cases r with
    | srcPtr => exact truncAddr_lt _ _
    | _ => exact hwf.srcOk
  · cases r with
    | dstPtr => exact truncAddr_lt _ _
    | _ => exact hwf.dstOk
  · simpa using hwf.memOk
  · simpa using hwf.memBelow

/-- A started command has nothing gathered and nothing written. -/
theorem State.Wf.start {i : Instr} (hcmd : decode s.cmd = .instr i) (haccepts : Accepts i s) : s.start.Wf where
  cfgOk := hwf.cfgOk
  srcOk := hwf.srcOk
  dstOk := hwf.dstOk
  memOk := hwf.memOk
  memBelow := hwf.memBelow
  runningOk _ := ⟨i, hcmd, haccepts.lengths, haccepts.inside, haccepts.apart, progressOk_start i s⟩

theorem State.Wf.reject (st : Status) : (s.start.reject st).Wf :=
  .of_idle hwf.cfgOk hwf.srcOk hwf.dstOk hwf.memOk hwf.memBelow rfl

/-! ## Commands and turns keep it -/

/-- A whole command keeps the invariant. -/
theorem exec_keeps_wf {i : Instr} {t : State} (h : exec i s = .next t) : t.Wf := by
  obtain ⟨-, ⟨-, rfl⟩ | ⟨haccepts, f, o, k, hends, hf, rfl⟩⟩ := exec_next h
  · exact hwf.reject _
  · exact hf.wf_apply_ending hwf.memOk hwf.memBelow haccepts.inside hwf.cfgOk hends

theorem beginCommand_keeps_wf {i : Instr} {t : State} (hcmd : decode s.cmd = .instr i)
    (h : beginCommand i s = .next t) : t.Wf := by
  obtain ⟨hidle, ⟨-, rfl⟩ | ⟨hlen, hin, hapart, rfl⟩⟩ := beginCommand_next h
  · exact hwf.reject _
  · exact hwf.start hcmd ⟨hidle, hlen, hin, hapart⟩

/-- One unit of a running command keeps the invariant. -/
theorem engineTurn_keeps_wf {t : State} (h : engineTurn s = .next t) : t.Wf := by
  rcases Bool.eq_false_or_eq_true s.busy with hbusy | hidle
  case inr =>
    obtain rfl := Host.Outcome.next.inj ((engineTurn_idle hidle).symm.trans h)
    exact hwf
  obtain ⟨i, hcmd, hlen, hin, hapart, hprogress⟩ := hwf.runningOk hbusy
  rw [engineTurn_running hbusy hcmd] at h
  rcases commandUnit_hasEffect i hprogress.runsInside with ⟨f, hf, hunit⟩ | ⟨-, -, hfault⟩
  case inr => cases (hfault s .rfl).symm.trans h
  obtain rfl := Host.Outcome.next.inj ((hunit s .rfl).symm.trans h)
  cases hends : f.ends with
  | some p => exact hf.wf_apply_ending hwf.memOk hwf.memBelow hin hwf.cfgOk hends
  | none =>
    obtain ⟨hmem, hbelow⟩ := hf.mem_apply hwf.memOk hwf.memBelow hin
    have hbusyNext : (f.apply s).busy = true := by rw [f.apply_running s hends]; exact hbusy
    have hprogressNext := hprogress.step h hbusyNext
    refine { cfgOk := ?_, srcOk := ?_, dstOk := ?_, memOk := hmem, memBelow := hbelow, runningOk := fun _ => ⟨i, ?_⟩ }
    -- a running command moves no register
    all_goals rw [f.apply_running s hends] at *
    exacts [hwf.cfgOk, hwf.srcOk, hwf.dstOk, ⟨hcmd, hlen, hin, hapart, hprogressNext⟩]

/-- The span that a running command writes to lies inside the space (R41). -/
theorem State.Wf.guardedDst_inside : s.guardedDst.base + s.guardedDst.len ≤ s.cfg.space := by
  rcases Bool.eq_false_or_eq_true s.busy with hbusy | hidle
  · obtain ⟨i, hcmd, -, hin, -, -⟩ := hwf.runningOk hbusy
    rw [State.guardedDst_running hbusy hcmd]
    have hdst := hwf.dstOk
    cases hdest : hasDest i with
    | false =>
      simp only [State.dstSpan, hdest, Bool.false_eq_true, if_false]
      omega
    | true =>
      simp only [State.spansInside, hdest, Span.inside, Bool.and_eq_true, Bool.not_true, Bool.false_or,
        decide_eq_true_eq] at hin
      exact hin.2
  · simp [State.guardedDst_idle hidle]

theorem resetTurn_keeps_wf : (resetTurn s).Wf := by
  have hspace : 0 < s.cfg.space := Nat.two_pow_pos _
  refine .of_idle hwf.cfgOk hspace hspace (Memory.wf_writeBytes _ _ hwf.memOk) ?_ rfl
  refine Memory.below_writeBytes _ _ hwf.memBelow ?_
  rw [drawnBytes_length]
  exact hwf.guardedDst_inside

/-- Every turn keeps the invariant. -/
theorem takeTurn_keeps_wf {turn : Turn} {t : State} (h : takeTurn turn s = .next t) : t.Wf := by
  cases turn with
  | regWrite a w =>
    rcases hostWrite_next h with rfl | ⟨hidle, ⟨r, rfl, -⟩ | hrun⟩
    · exact hwf
    · exact hwf.writeReg hidle r w
    · have hwf' := hwf.writeReg hidle .cmd w
      rcases runWord_next hrun with ⟨i, -, hexec⟩ | rfl
      · exact exec_keeps_wf hwf' hexec
      · exact hwf'.reject _
  | regRead a =>
    obtain ⟨o, d, rfl⟩ := hostRead_next h
    exact hwf.environment hwf.memOk hwf.memBelow s.schedule o d
  | startHeld w =>
    obtain ⟨hidle, hstart⟩ := hostStart_next h
    have hwf' := hwf.writeReg hidle .cmd w
    rcases startWord_next hstart with ⟨i, hcmd, hbegin⟩ | rfl
    · exact beginCommand_keeps_wf hwf' hcmd hbegin
    · exact hwf'.reject _
  | engine => exact engineTurn_keeps_wf hwf h
  | wait =>
    rcases waitTurn_next h with ⟨-, o, rfl⟩ | ⟨-, o, l, hengine⟩
    · exact hwf.environment hwf.memOk hwf.memBelow s.schedule o s.draws
    · exact engineTurn_keeps_wf (hwf.environment hwf.memOk hwf.memBelow l o s.draws) hengine
  | memWrite a b =>
    obtain ⟨hspace, rfl⟩ := hostMemWrite_next h
    exact hwf.environment (Memory.wf_write hwf.memOk a b) (Memory.below_write a b hwf.memBelow hspace) s.schedule
      s.observed s.draws
  | memRead a =>
    obtain ⟨o, rfl⟩ := hostMemRead_next h
    exact hwf.environment hwf.memOk hwf.memBelow s.schedule o s.draws
  | reset =>
    obtain rfl := Host.Outcome.next.inj h
    exact resetTurn_keeps_wf hwf

end

/-- Settles O35: a step is a turn, or the engine's move. -/
theorem stepKeepsWf : Obligations.StepKeepsWf := by
  intro s t hwf h
  rcases step_next h with ⟨-, hengine⟩ | ⟨turn, rest, -, hturn⟩
  · exact engineTurn_keeps_wf hwf hengine
  · exact takeTurn_keeps_wf (hwf.withSchedule rest) hturn

/-! ## Reset during a command -/

/-- Settles O42: the guarded span is the command's destination span, and its source span is apart from it. -/
theorem resetDuringCommand : Obligations.ResetDuringCommand := by
  intro s i hwf hbusy hcmd
  obtain ⟨j, hj, -, -, hapart, -⟩ := hwf.runningOk hbusy
  obtain rfl : j = i := Decoded.instr.inj (hj.symm.trans hcmd)
  have hguarded := State.guardedDst_running hbusy hcmd
  refine ⟨resetTurn s, rfl, resetTurn_readReg s, fun hi k hk => ?written, fun hi => ?vrd, fun hi k hk => ?source⟩
  case written =>
    have hlen : (s.dstSpan j).len = s.dstLen.toInt.toNat := by simp [State.dstSpan, (hasDest_iff j).mpr hi, State.dstCount]
    have hbase : (s.dstSpan j).base = s.dstPtr.toNat := rfl
    rw [resetTurn_mem, hguarded, hbase, hlen, Memory.read_writeBytes _ _ _ hwf.memOk, drawnBytes_length,
      if_pos (by omega)]
    simp [drawnBytes, hk]
  case vrd =>
    have hlen : (s.dstSpan j).len = 0 := by simp [State.dstSpan, hasDest, hi]
    rw [resetTurn_mem, hguarded, hlen]
    rfl
  case source =>
    refine resetTurn_read_unguarded hwf.memOk fun hin => ?_
    have hsrc : (s.srcSpan j).has (s.srcPtr.toNat + k) = true :=
      (s.srcSpan_has_iff j _).mpr ⟨hi, Nat.le_add_right _ _, by omega⟩
    rw [hguarded] at hin
    have hoverlap := Span.apart_eq_false_of_has hsrc hin
    rw [State.spansApart, hoverlap] at hapart
    cases hapart

end Sys2Proof.Machine
end

section
/-! PROOFS. The two granularities (R155): the engine's steps over a running command are its units in sequence, so they end
as the atomic form does, and within one step per source unit and one more. -/

namespace Sys2Proof.Machine

/-- What follows a step that leaves a state; a stop is the last of a run. -/
def thenRun (r : Result) (next : State → Result) : Result :=
  match r with
  | .next t => next t
  | .fault f => .fault f
  | .refused f => .refused f

/-- `n` steps of the machine. -/
def runSteps (n : Nat) (s : State) : Result := Host.Core.run Sys2Proof.core n s

section
variable {M : Host.Core} (n : Nat) {s : M.State}

theorem core_run_next {t : M.State} (h : M.step s = .next t) : M.run (n + 1) s = M.run n t := by
  simp only [Host.Core.run, h]

theorem core_run_fault {f : M.Fault} (h : M.step s = .fault f) : M.run (n + 1) s = .fault f := by
  simp only [Host.Core.run, h]

theorem core_run_refused {r : M.Refusal} (h : M.step s = .refused r) : M.run (n + 1) s = .refused r := by
  simp only [Host.Core.run, h]

end

/-- One step of a run, and the others. -/
theorem runSteps_succ (n : Nat) (s : State) : runSteps (n + 1) s = thenRun (step s) (runSteps n) := by
  cases h : step s with
  | next t => exact core_run_next (M := Sys2Proof.core) n h
  | fault f => exact core_run_fault (M := Sys2Proof.core) n h
  | refused r => exact core_run_refused (M := Sys2Proof.core) n h

theorem runSteps_succ_of_step (n : Nat) {s : State} {r : Result} (h : step s = r) :
    runSteps (n + 1) s = thenRun r (runSteps n) := by rw [runSteps_succ, h]

/-- An idle block with nothing scheduled waits (R145). -/
theorem runSteps_idle (n : Nat) {s : State} (hidle : s.busy = false) (hschedule : s.schedule = []) :
    runSteps n s = .next s := by
  induction n with
  | zero => rfl
  | succ n ih => exact (runSteps_succ_of_step n ((step_nil hschedule).trans (engineTurn_idle hidle))).trans ih

/-- With nothing scheduled, the steps of a running command are its units. -/
theorem runSteps_eq_drive {i : Instr} (n : Nat) {s : State} (hin : RunsInside i s) (hcmd : decode s.cmd = .instr i)
    (hschedule : s.schedule = []) : runSteps n s = drive (commandUnit i) n s := by
  induction n generalizing s with
  | zero => rfl
  | succ n ih =>
    rcases Bool.eq_false_or_eq_true s.busy with hbusy | hidle
    case inr => exact (runSteps_idle _ hidle hschedule).trans (drive_idle _ _ hidle).symm
    have hstep : step s = commandUnit i s := (step_nil hschedule).trans (engineTurn_running hbusy hcmd)
    rcases commandUnit_hasEffect i hin with ⟨f, hf, hunit⟩ | ⟨-, -, hfault⟩
    · rw [runSteps_succ_of_step n (hstep.trans (hunit s .rfl)), drive_step _ n hbusy (hunit s .rfl)]
      cases hends : f.ends with
      | none => exact ih (hf.runsInside hends) (by simpa using hcmd) (by simpa using hschedule)
      | some p =>
        have hidle : (f.apply s).busy = false := Effect.apply_busy_of_ends s hends
        exact (runSteps_idle n hidle (by simpa using hschedule)).trans (drive_idle _ n hidle).symm
    · rw [runSteps_succ_of_step n (hstep.trans (hfault s .rfl)), drive, if_pos hbusy, hfault s .rfl, thenRun]

/-- A command in its atomic form is over after its step, and the block then waits. -/
theorem thenRun_exec (i : Instr) (n : Nat) {s : State} (hschedule : s.schedule = []) :
    thenRun (exec i s) (runSteps n) = exec i s := by
  cases h : exec i s with
  | next t => exact runSteps_idle n (exec_idle h) ((exec_frame h).schedule.trans hschedule)
  | fault f => rfl
  | refused f => rfl

/-- From its start, a command's steps end as the command does. -/
theorem thenRun_beginCommand {i : Instr} {s : State} (hcmd : decode s.cmd = .instr i) (hschedule : s.schedule = []) :
    thenRun (beginCommand i s) (runSteps (s.srcCount + 1)) = exec i s := by
  rw [exec_eq_runCommand, runCommand]
  cases hbegin : beginCommand i s with
  | fault f => rfl
  | refused f => rfl
  | next t =>
    obtain ⟨-, ⟨-, rfl⟩ | ⟨-, -, -, rfl⟩⟩ := beginCommand_next hbegin
    · exact (runSteps_idle _ (s.start.reject_busy _) hschedule).trans (drive_idle _ _ (s.start.reject_busy _)).symm
    · exact runSteps_eq_drive _ (runsInside_start i s) hcmd hschedule

/-- Settles O37: an illegal word completes within the start; a command's steps from its start are its units. -/
theorem stepwiseEqualsAtomic : Obligations.StepwiseEqualsAtomic := by
  intro s w hidle hschedule
  change runSteps (s.srcCount + 2) { s with schedule := [.startHeld w] } =
    runSteps (s.srcCount + 2) { s with schedule := [.regWrite Reg.cmd.access w] }
  -- the machine with the turn taken and the word in `CMD`
  obtain ⟨u, hu⟩ : ∃ u : State, u = { s with cmd := w, schedule := [] } := ⟨_, rfl⟩
  have hheld : step { s with schedule := [.startHeld w] } = startWord w u := by
    rw [step_cons rfl, hu]
    simp [takeTurn, hostStart, hidle]
    rfl
  have hatomic : step { s with schedule := [.regWrite Reg.cmd.access w] } = runWord w u := by
    rw [hu]
    exact (step_cons rfl).trans (takeTurn_regWrite_cmd (s := { s with schedule := [] }) hidle w)
  rw [runSteps_succ_of_step _ hheld, runSteps_succ_of_step _ hatomic]
  cases hw : decode w with
  | illegal why => simp only [startWord, runWord, hw]
  | instr i =>
    have hstart : startWord w u = beginCommand i u := by rw [startWord, hw]
    have hcmd : decode u.cmd = .instr i := by rw [hu]; exact hw
    have hnone : u.schedule = [] := by rw [hu]
    have hcount : u.srcCount = s.srcCount := by rw [hu]; rfl
    rw [hstart, runWord_instr hw, thenRun_exec i _ hnone, ← hcount]
    exact thenRun_beginCommand hcmd hnone

/-- Settles O38: the fuel of the run is more than the source units left, so the running command's effect ends it. -/
theorem runningCommandCompletes : Obligations.RunningCommandCompletes := by
  intro s hwf hbusy hschedule
  obtain ⟨i, hcmd, -, -, -, hprogress⟩ := hwf.runningOk hbusy
  have hin : RunsInside i s := hprogress.runsInside
  have hrun : Host.Core.run Sys2Proof.core (s.srcCount + 1) s = drive (commandUnit i) (s.srcCount + 1) s :=
    runSteps_eq_drive _ hin hcmd hschedule
  rw [hrun]
  rcases drive_hasEffect i (s.srcCount + 1) hbusy hin (Nat.lt_succ_of_le (Nat.sub_le _ _)) with
    ⟨f, o, k, hends, -, hdrive⟩ | ⟨rfl, hmode, hdrive⟩
  · exact .inl ⟨_, hdrive s (.inl rfl), Effect.apply_busy_of_ends s hends⟩
  · exact .inr ⟨hcmd, hmode, hdrive s (.inl rfl)⟩

end Sys2Proof.Machine
end

section
/-! PROOFS. The groups of a byte sequence (R60 to R62): the complete groups, the bytes after them, and the symbols of
both. -/

namespace Sys2Proof.Machine

/-- The bytes of the complete groups (R60). -/
def wholeBytes (bs : List Byte) : List Byte := bs.take (3 * (bs.length / 3))

/-- The bytes after the last complete group: at most two (R61, R62). -/
def openBytes (bs : List Byte) : List Byte := bs.drop (3 * (bs.length / 3))

theorem wholeBytes_append_openBytes (bs : List Byte) : wholeBytes bs ++ openBytes bs = bs := List.take_append_drop _ bs

theorem wholeBytes_length (bs : List Byte) : (wholeBytes bs).length = 3 * (bs.length / 3) := by
  simp only [wholeBytes, List.length_take]
  omega

theorem openBytes_length (bs : List Byte) : (openBytes bs).length = bs.length % 3 := by
  simp only [openBytes, List.length_drop]
  omega

section
variable {bs : List Byte} (b : Byte)

theorem wholeBytes_concat_open (h : bs.length % 3 + 1 ≠ 3) : wholeBytes (bs ++ [b]) = wholeBytes bs := by
  have hgroups : (bs.length + 1) / 3 = bs.length / 3 := by omega
  simp only [wholeBytes, List.length_append, List.length_singleton, hgroups]
  exact List.take_append_of_le_length (by omega)

theorem openBytes_concat_open (h : bs.length % 3 + 1 ≠ 3) : openBytes (bs ++ [b]) = openBytes bs ++ [b] := by
  have hgroups : (bs.length + 1) / 3 = bs.length / 3 := by omega
  simp only [openBytes, List.length_append, List.length_singleton, hgroups]
  exact List.drop_append_of_le_length (by omega)

theorem openBytes_concat_closed (h : bs.length % 3 + 1 = 3) : openBytes (bs ++ [b]) = [] :=
  List.drop_eq_nil_of_le (by simp only [List.length_append, List.length_singleton]; omega)

theorem wholeBytes_concat_closed (h : bs.length % 3 + 1 = 3) :
    wholeBytes (bs ++ [b]) = wholeBytes bs ++ (openBytes bs ++ [b]) := by
  have hall := wholeBytes_append_openBytes (bs ++ [b])
  rw [openBytes_concat_closed b h, List.append_nil] at hall
  rw [hall, ← List.append_assoc, wholeBytes_append_openBytes]

end

/-- The length of a sequence cut after whole groups and fewer than three bytes more. -/
theorem wholeBytes_take {bs : List Byte} {g r : Nat} (hr : r < 3) (h : 3 * g + r ≤ bs.length) :
    wholeBytes (bs.take (3 * g + r)) = bs.take (3 * g) := by
  have hlen : (bs.take (3 * g + r)).length = 3 * g + r := List.length_take_of_le h
  have hgroups : (3 * g + r) / 3 = g := by omega
  rw [wholeBytes, hlen, hgroups, List.take_take, min_eq_left (Nat.le_add_right _ _)]

/-! ## Symbols -/

/-- R76: the symbols of a group of `r` trailing bytes. -/
theorem partialSymbols_eq {r : Nat} (hr : r < 3) : partialSymbols r = if r = 0 then 0 else if r = 1 then 2 else 3 := by
  interval_cases r <;> rfl

/-- R60: groups encode one after the other. -/
theorem encodeBytes_append {bs : List Byte} (h : bs.length % 3 = 0) (cs : List Byte) :
    encodeBytes (bs ++ cs) = encodeBytes bs ++ encodeBytes cs := by
  induction bs using encodeBytes.induct with
  | case1 => rfl
  | case2 | case3 => simp at h
  | case4 b0 b1 b2 rest ih => simp [encodeBytes, ih (by simp at h; omega)]

/-- R76: four symbols a group, and those of the partial group. -/
theorem encodeBytes_length (bs : List Byte) :
    (encodeBytes bs).length = 4 * (bs.length / 3) + partialSymbols (bs.length % 3) := by
  induction bs using encodeBytes.induct with
  | case1 | case2 | case3 => simp [encodeBytes, partialSymbols]
  | case4 b0 b1 b2 rest ih =>
    have hgroups : (rest.length + 1 + 1 + 1) / 3 = rest.length / 3 + 1 := by omega
    have hrest : (rest.length + 1 + 1 + 1) % 3 = rest.length % 3 := by omega
    simp only [encodeBytes, List.length_cons, ih, hgroups, hrest]
    omega

theorem encodeBytes_wholeBytes_length (bs : List Byte) :
    (encodeBytes (wholeBytes bs)).length = 4 * (bs.length / 3) := by
  have hgroups : 3 * (bs.length / 3) / 3 = bs.length / 3 := by omega
  have hrest : 3 * (bs.length / 3) % 3 = 0 := by omega
  rw [encodeBytes_length, wholeBytes_length, hgroups, hrest]
  rfl

/-- R82: the accumulator of a complete group, as its bytes are gathered one by one. -/
theorem accSymbols_foldl_whole {bs : List Byte} (h : bs.length = 3) :
    accSymbols (bs.foldl shiftByte 0) 4 = encodeBytes bs := by
  obtain ⟨b0, b1, b2, rfl⟩ := List.length_eq_three.mp h
  exact accSymbols_group b0 b1 b2

/-- R84: the same for the bytes of a partial group. -/
theorem accSymbols_foldl_partial {bs : List Byte} (h : bs.length < 3) :
    accSymbols (bs.foldl shiftByte 0) (partialSymbols bs.length) = encodeBytes bs := by
  match bs, h with
  | [], _ => rfl
  | [b0], _ => exact accSymbols_one b0
  | [b0, b1], _ => exact accSymbols_two b0 b1

end Sys2Proof.Machine
end

section
/-! PROOFS. ENC on a ready machine (R79 to R85, R88): the running command after any number of the source bytes, and its
ends. -/

namespace Sys2Proof.Machine

/-! ## Completions on a ready machine -/

@[simp] theorem State.srcBytes_length (s : State) : s.srcBytes.length = s.srcCount := by
  simp [State.srcBytes, readSpan, State.srcCount]

section
variable {s : State} (hready : Ready s) {out : List Byte} (e : Engine) {srcOut n : Nat}
include hready

/-- A count of the bytes written. -/
theorem Ready.completes_count (hn : out.length = n) (hsrcOut : srcOut ≤ s.srcCount) (hroom : n ≤ s.dstCount) :
    Completes s (((s.start.emit 0 out).withEngine e).complete n srcOut n) n srcOut n out := by
  subst hn
  have hdone := hready.completes_writeBack e (BitVec.ofNat 32 out.length) hsrcOut hroom
  rw [ofNat_toInt_of_le hroom] at hdone
  exact hdone

theorem Ready.completes_error (st : Status) (hn : out.length = n) (hsrcOut : srcOut ≤ s.srcCount) (hroom : n ≤ s.dstCount) :
    Completes s (((s.start.emit 0 out).withEngine e).raise st srcOut n) st.toInt srcOut n out := by
  subst hn
  exact hready.completes_raise e st hsrcOut hroom

end

/-- Bytes written behind those of a running command. -/
theorem State.emit_withEngine (s : State) {out : List Byte} (e e' : Engine) {d : Nat} (hd : d = out.length)
    (more : List Byte) :
    (((s.emit 0 out).withEngine e).emit d more).withEngine e' = (s.emit 0 (out ++ more)).withEngine e' := by
  rw [hd, ← State.emit_emit]
  rfl

/-! ## The running command after the first bytes of the source -/

/-- The transient state of ENC there (R81, R82). -/
def encEngine (bs : List Byte) : Engine :=
  { Engine.start with
    acc := (openBytes bs).foldl shiftByte 0, fill := bs.length % 3, s := bs.length
    d := 4 * (bs.length / 3), commit := 3 * (bs.length / 3) }

/-- An ENC started on `s`, after the units of the bytes `bs`, whose complete groups all fit. -/
def encState (s : State) (bs : List Byte) : State :=
  (s.start.emit 0 (encodeBytes (wholeBytes bs))).withEngine (encEngine bs)

theorem encState_nil (s : State) : encState s [] = s.start := rfl

theorem encEngine_concat_open {bs : List Byte} (b : Byte) (h : bs.length % 3 + 1 ≠ 3) :
    (encEngine bs).gatherByte b = encEngine (bs ++ [b]) := by
  have hgroups : (bs.length + 1) / 3 = bs.length / 3 := by omega
  have hfill : (bs.length + 1) % 3 = bs.length % 3 + 1 := by omega
  simp [encEngine, Engine.gatherByte, openBytes_concat_open b h, hgroups, hfill]

theorem encEngine_concat_closed {bs : List Byte} (b : Byte) (h : bs.length % 3 + 1 = 3) :
    ((encEngine bs).gatherByte b).closeGroup 4 = encEngine (bs ++ [b]) := by
  have hgroups : (bs.length + 1) / 3 = bs.length / 3 + 1 := by omega
  have hfill : (bs.length + 1) % 3 = 0 := by omega
  have hcommit : bs.length + 1 = 3 * (bs.length / 3 + 1) := by omega
  simp [encEngine, Engine.gatherByte, Engine.closeGroup, openBytes_concat_closed b h, hgroups, hfill, Nat.mul_add]
  omega

/-- R82: the group that a byte completes is written as its accumulator gives it. -/
theorem encodeBytes_wholeBytes_concat_closed {bs : List Byte} (b : Byte) (h : bs.length % 3 + 1 = 3) :
    encodeBytes (wholeBytes bs) ++ accSymbols ((encEngine bs).gatherByte b).acc 4 =
      encodeBytes (wholeBytes (bs ++ [b])) := by
  have hgroup : (openBytes bs ++ [b]).length = 3 := by simp [openBytes_length, h]
  have hacc : ((encEngine bs).gatherByte b).acc = (openBytes bs ++ [b]).foldl shiftByte 0 := by
    simp [encEngine, Engine.gatherByte]
  rw [wholeBytes_concat_closed b h, encodeBytes_append (by rw [wholeBytes_length]; omega), hacc,
    accSymbols_foldl_whole hgroup]

section
variable {s : State} (hready : Ready s) (final : Bool) {bs rest : List Byte} {b : Byte}
include hready

/-- The running command reads the source as it was at the start, whatever it has written (R42). -/
theorem encState_reads (hsrc : s.srcBytes = bs ++ b :: rest) (hroom : 4 * (bs.length / 3) ≤ s.dstCount) :
    (encState s bs).engine.s < (encState s bs).srcCount ∧ (encState s bs).srcByte (encState s bs).engine.s = b := by
  obtain ⟨hlt, hbyte⟩ := State.srcBytes_eq_append_cons hsrc
  exact ⟨hlt, (hready.srcByte_emit hlt (by rw [encodeBytes_wholeBytes_length]; exact hroom)).trans hbyte⟩

/-- One unit over a byte: the group it completes, if it completes one, fits. -/
theorem encUnit_encState (hsrc : s.srcBytes = bs ++ b :: rest) (hroom : 4 * ((bs.length + 1) / 3) ≤ s.dstCount) :
    encUnit final (encState s bs) = .next (encState s (bs ++ [b])) := by
  obtain ⟨hlt, hbyte⟩ := encState_reads hready hsrc (by omega)
  by_cases hclosed : bs.length % 3 + 1 = 3
  · have hfits : ((encState s bs).engine.gatherByte b).d + 4 ≤ (encState s bs).dstCount := by
      have hd : ((encState s bs).engine.gatherByte b).d = 4 * (bs.length / 3) := rfl
      have hm : (encState s bs).dstCount = s.dstCount := rfl
      omega
    have hd : ((encEngine bs).gatherByte b).d = (encodeBytes (wholeBytes bs)).length :=
      (encodeBytes_wholeBytes_length bs).symm
    rw [encUnit_closed final hlt hclosed, hbyte, encGroup_emits hfits, encState, State.withEngine_engine,
      State.emit_withEngine _ _ _ hd, encEngine_concat_closed b hclosed,
      encodeBytes_wholeBytes_concat_closed b hclosed, encState]
  · rw [encUnit_open final hlt hclosed, hbyte, encState, State.withEngine_engine, encEngine_concat_open b hclosed, encState,
      wholeBytes_concat_open b hclosed]
    rfl

/-- The units over bytes whose groups all fit leave the command running after them. -/
theorem drive_encUnit (hsrc : s.srcBytes = bs ++ rest) (hroom : 4 * (bs.length / 3) ≤ s.dstCount) (k : Nat) :
    drive (encUnit final) (bs.length + k) s.start = drive (encUnit final) k (encState s bs) := by
  induction bs using List.reverseRecOn generalizing rest k with
  | nil => rw [encState_nil, List.length_nil, Nat.zero_add]
  | append_singleton bs b ih =>
    rw [List.append_assoc] at hsrc
    rw [List.length_append, List.length_singleton] at hroom ⊢
    rw [Nat.add_assoc, Nat.add_comm 1 k, ih hsrc (by omega)]
    exact drive_step _ k rfl (encUnit_encState hready final hsrc hroom)

theorem exec_enc_eq_drive : exec (.enc final) s = drive (encUnit final) (s.srcCount + 1) s.start :=
  hready.exec_eq_drive (.enc final)

/-! ## The ends -/

/-- R83: the first group without room ends the command. -/
theorem exec_enc_noRoom (hroom : s.dstCount < 4 * (s.srcCount / 3)) :
    ∃ t, exec (.enc final) s = .next t ∧ t.value = s.value ∧
      Completes s t (-1) (3 * (s.dstCount / 4)) (4 * (s.dstCount / 4))
        (encodeBytes (s.srcBytes.take (3 * (s.dstCount / 4)))) := by
  -- the bytes before the one that completes that group
  have hlen : 3 * (s.dstCount / 4) + 2 < s.srcBytes.length := by
    rw [State.srcBytes_length]
    omega
  obtain ⟨bs, hbs⟩ : ∃ bs, bs = s.srcBytes.take (3 * (s.dstCount / 4) + 2) := ⟨_, rfl⟩
  have hcount : bs.length = 3 * (s.dstCount / 4) + 2 := by rw [hbs, List.length_take_of_le hlen.le]
  have hwhole : wholeBytes bs = s.srcBytes.take (3 * (s.dstCount / 4)) := hbs ▸ wholeBytes_take (by omega) hlen.le
  have hgroups : bs.length / 3 = s.dstCount / 4 := by omega
  have hsrc : s.srcBytes = bs ++ s.srcBytes[3 * (s.dstCount / 4) + 2] :: s.srcBytes.drop (3 * (s.dstCount / 4) + 2 + 1) := by
    rw [hbs, List.getElem_cons_drop, List.take_append_drop]
  obtain ⟨b, hb⟩ : ∃ b, b = s.srcBytes[3 * (s.dstCount / 4) + 2] := ⟨_, rfl⟩
  rw [← hb] at hsrc
  obtain ⟨hlt, hbyte⟩ := encState_reads hready hsrc (by omega)
  have hclosed : (encState s bs).engine.fill + 1 = 3 := by
    have hfill : (encState s bs).engine.fill = bs.length % 3 := rfl
    omega
  have hnoRoom : (encState s bs).dstCount < ((encState s bs).engine.gatherByte b).d + 4 := by
    have hd : ((encState s bs).engine.gatherByte b).d = 4 * (bs.length / 3) := rfl
    have hm : (encState s bs).dstCount = s.dstCount := rfl
    omega
  have hunit := encUnit_closed final hlt hclosed
  rw [hbyte, encGroup_noRoom hnoRoom] at hunit
  refine ⟨((encState s bs).withEngine ((encEngine bs).gatherByte b)).raise .notEnoughRoom (3 * (s.dstCount / 4))
    (4 * (s.dstCount / 4)), ?_, rfl, ?_⟩
  · have hfuel : s.srcCount + 1 = bs.length + (s.srcCount - bs.length + 1) := by
      rw [State.srcBytes_length] at hlen
      omega
    rw [exec_enc_eq_drive hready, hfuel, drive_encUnit hready final hsrc (by omega), drive_step _ _ rfl hunit,
      drive_idle _ _ (State.raise_busy _ _ _ _), ← hgroups]
    rfl
  · rw [← hwhole]
    refine hready.completes_error _ .notEnoughRoom ?_ ?_ ?_
    · rw [encodeBytes_wholeBytes_length, hgroups]
    · omega
    · omega

/-- Where all groups fit, the unit at the end of the span is the last one. -/
theorem exec_enc_end (hroom : 4 * (s.srcCount / 3) ≤ s.dstCount) :
    exec (.enc final) s = .next (encEnd final (encState s s.srcBytes)) := by
  have hend : ¬ (encState s s.srcBytes).engine.s < (encState s s.srcBytes).srcCount :=
    Nat.not_lt.mpr s.srcBytes_length.ge
  have hunit := encUnit_end final hend
  have hbusy : (encEnd final (encState s s.srcBytes)).busy = false := by
    rcases encEnd_cases final (encState s s.srcBytes) with ⟨-, -, -, e⟩ | ⟨n, -, -, -, -, e⟩ | ⟨-, e⟩ <;> rw [e] <;> rfl
  rw [exec_enc_eq_drive hready, ← State.srcBytes_length,
    drive_encUnit hready final (List.append_nil _).symm (by rwa [State.srcBytes_length]),
    drive_step _ _ rfl hunit, drive_idle _ _ hbusy]

/-- R85: without a final partial group the complete groups are consumed, and the rest is rolled back. -/
theorem encEnd_rollback_completes (hroom : 4 * (s.srcCount / 3) ≤ s.dstCount)
    (hend : ¬ (0 < s.srcCount % 3 ∧ final = true)) :
    encEnd final (encState s s.srcBytes) = (encState s s.srcBytes).complete (4 * (s.srcCount / 3)) (3 * (s.srcCount / 3))
      (4 * (s.srcCount / 3)) ∧
    Completes s ((encState s s.srcBytes).complete (4 * (s.srcCount / 3)) (3 * (s.srcCount / 3)) (4 * (s.srcCount / 3)))
      (4 * (s.srcCount / 3) : Nat) (3 * (s.srcCount / 3)) (4 * (s.srcCount / 3))
      (encodeBytes (s.srcBytes.take (3 * (s.srcCount / 3)))) := by
  constructor
  · have hfill : ¬ (0 < (encState s s.srcBytes).engine.fill ∧ final = true) := by
      rw [encState, State.withEngine_engine, encEngine, State.srcBytes_length]
      exact hend
    rw [encEnd_rollback hfill, ← State.srcBytes_length]
    rfl
  · rw [← State.srcBytes_length] at hroom ⊢
    refine hready.completes_count _ (encodeBytes_wholeBytes_length _) ?_ hroom
    rw [State.srcBytes_length]
    omega

/-- R84: the final partial group has room, and the whole source is consumed. -/
theorem encEnd_partial_completes (hpart : 0 < s.srcCount % 3)
    (hroom : 4 * (s.srcCount / 3) + partialSymbols (s.srcCount % 3) ≤ s.dstCount) :
    Completes s (encEnd true (encState s s.srcBytes)) (4 * (s.srcCount / 3) + partialSymbols (s.srcCount % 3) : Nat)
      s.srcCount (4 * (s.srcCount / 3) + partialSymbols (s.srcCount % 3)) (encodeBytes s.srcBytes) := by
  rw [← State.srcBytes_length] at hpart hroom ⊢
  obtain ⟨bs, hbs⟩ : ∃ bs, bs = s.srcBytes := ⟨_, rfl⟩
  rw [← hbs] at hpart hroom ⊢
  have hopen : (openBytes bs).length = bs.length % 3 := openBytes_length bs
  have hout : encodeBytes (wholeBytes bs) ++ accSymbols (encEngine bs).acc (partialSymbols (bs.length % 3)) =
      encodeBytes bs := by
    rw [← hopen, encEngine, accSymbols_foldl_partial (by omega),
      ← encodeBytes_append (by rw [wholeBytes_length]; omega), wholeBytes_append_openBytes]
  have hend : encEnd true (encState s bs) = _ := encEnd_partial hpart hroom
  rw [hend, encState, State.withEngine_engine]
  change Completes s (((((s.start.emit 0 (encodeBytes (wholeBytes bs))).withEngine (encEngine bs)).emit
    (4 * (bs.length / 3)) (accSymbols (encEngine bs).acc (partialSymbols (bs.length % 3)))).withEngine _).complete
      (4 * (bs.length / 3) + partialSymbols (bs.length % 3)) bs.length _) _ _ _ _
  rw [State.emit_withEngine _ _ _ (encodeBytes_wholeBytes_length bs).symm, hout]
  refine hready.completes_count _ (encodeBytes_length bs) ?_ hroom
  rw [hbs, State.srcBytes_length]

/-- R84: the final partial group has no room, and the complete groups stay. -/
theorem encEnd_noRoom_completes (hpart : 0 < s.srcCount % 3) (hgroups : 4 * (s.srcCount / 3) ≤ s.dstCount)
    (hroom : s.dstCount < 4 * (s.srcCount / 3) + partialSymbols (s.srcCount % 3)) :
    Completes s (encEnd true (encState s s.srcBytes)) (-1) (3 * (s.srcCount / 3)) (4 * (s.srcCount / 3))
      (encodeBytes (s.srcBytes.take (3 * (s.srcCount / 3)))) := by
  rw [← State.srcBytes_length] at hpart hroom hgroups ⊢
  have hend : encEnd true (encState s s.srcBytes) = _ := encEnd_noRoom hpart hroom
  rw [hend]
  refine hready.completes_error _ .notEnoughRoom (encodeBytes_wholeBytes_length _) ?_ hgroups
  have hcommit : (encState s s.srcBytes).engine.commit = 3 * (s.srcBytes.length / 3) := rfl
  rw [hcommit, State.srcBytes_length]
  omega

end

/-- An end of ENC leaves `VALUE`. -/
theorem encEnd_value (final : Bool) (s : State) : (encEnd final s).value = s.value := by
  rcases encEnd_cases final s with ⟨-, -, -, e⟩ | ⟨n, -, -, -, -, e⟩ | ⟨-, e⟩ <;> rw [e] <;> rfl

/-- Settles O13: either a group of the source does not fit, or the command comes to the end of its span, where the final
form writes the partial group and the other form rolls it back. -/
theorem encOutcomeByLengths : Obligations.EncOutcomeByLengths := by
  intro s final hready
  by_cases hgroups : 4 * (s.srcCount / 3) ≤ s.dstCount
  case neg =>
    obtain ⟨t, hexec, hvalue, hdone⟩ := exec_enc_noRoom hready final (Nat.not_le.mp hgroups)
    refine ⟨t, hexec, hvalue, ?_⟩
    intro n m g e k
    obtain ⟨hm, hg⟩ : m = s.dstCount ∧ g = s.srcCount / 3 := ⟨rfl, rfl⟩
    have hk : k = m / 4 := min_eq_right (by omega)
    exact ⟨fun _ hfits => by omega, fun _ hfits => by omega, fun _ => hk ▸ hdone⟩
  refine ⟨_, exec_enc_end hready final hgroups, encEnd_value _ _, ?_⟩
  intro n m g e k
  have he : e = partialSymbols (n % 3) := (partialSymbols_eq (Nat.mod_lt n (by decide))).symm
  obtain ⟨hn, hm, hg, hk⟩ : n = s.srcCount ∧ m = s.dstCount ∧ g = n / 3 ∧ k = min g (m / 4) := ⟨rfl, rfl, rfl, rfl⟩
  clear_value n m g e k
  subst hn hm hg he
  have hk : k = s.srcCount / 3 := hk.trans (min_eq_left (by omega))
  subst hk
  by_cases hpart : 0 < s.srcCount % 3 ∧ final = true
  · obtain ⟨hrest, rfl⟩ := hpart
    exact ⟨fun _ hroom => encEnd_partial_completes hready hrest hroom, nofun,
      fun hroom => encEnd_noRoom_completes hready hrest hgroups hroom⟩
  · obtain ⟨hend, hdone⟩ := encEnd_rollback_completes hready final hgroups hpart
    have hwhole (hfinal : final = true) : s.srcCount % 3 = 0 := by
      by_contra hrest
      exact hpart ⟨Nat.pos_of_ne_zero hrest, hfinal⟩
    rw [hend]
    refine ⟨fun hfinal _ => ?_, fun _ _ => hdone, fun hover => ?_⟩
    · have hall : 3 * (s.srcCount / 3) = s.srcCount := by
        have hrest := hwhole hfinal
        omega
      have htake : s.srcBytes.take s.srcCount = s.srcBytes := List.take_of_length_le s.srcBytes_length.le
      rw [hall, htake] at hdone
      rw [hwhole hfinal, hall]
      exact hdone
    · split at hover
      case isTrue hfinal =>
        rw [hwhole hfinal] at hover
        exact absurd hgroups (Nat.not_le.mpr hover)
      case isFalse => exact absurd hgroups (Nat.not_le.mpr hover)

end Sys2Proof.Machine
end

section
/-! PROOFS. DEC on a ready machine whose source is a text (R93 to R98, R101): the start of the open group, the ends of
the span, and the four ways the command completes. -/

namespace Sys2Proof.Machine

/-! ## The bytes of a code sequence -/

/-- R77: the bytes of a group of `q` trailing codes; none for a lone one. -/
theorem partialBytes_eq {q : Nat} (hq : q < 4) :
    partialBytes q = if q = 1 then none else some (if q = 2 then 1 else if q = 3 then 2 else 0) := by
  interval_cases q <;> rfl

/-- R77: three bytes a group, and those of the partial group. -/
theorem decodeCodes_length_eq (cs : List Code) :
    (decodeCodes cs).length = 3 * (cs.length / 4) + (partialBytes (cs.length % 4)).getD 0 := by
  induction cs using decodeCodes.induct with
  | case1 | case2 | case3 | case4 => simp [decodeCodes, partialBytes]
  | case5 c0 c1 c2 c3 rest ih =>
    have hgroups : (rest.length + 1 + 1 + 1 + 1) / 4 = rest.length / 4 + 1 := by omega
    have hrest : (rest.length + 1 + 1 + 1 + 1) % 4 = rest.length % 4 := by omega
    simp only [decodeCodes, List.length_cons, ih, hgroups, hrest]
    omega

/-- R97: the accumulator of a partial group, as its codes are gathered one by one. -/
theorem accBytes_foldl_partial {cs : List Code} {n : Nat} (hlen : cs.length < 4) (hn : partialBytes cs.length = some n) :
    accBytes (cs.foldl shiftCode 0) n = decodeCodes cs := by
  match cs, hlen, hn with
  | [], _, rfl => rfl
  | [c0, c1], _, rfl => exact accBytes_two c0 c1
  | [c0, c1, c2], _, rfl => exact accBytes_three c0 c1 c2

/-- The bytes of a code sequence are those of its complete groups and those of its open one. -/
theorem decodeCodes_eq_append (cs : List Code) :
    decodeCodes cs = decodeCodes (wholeGroups cs) ++ decodeCodes (openGroup cs) := by
  rw [← decodeCodes_append (by rw [wholeGroups_length]; omega), wholeGroups_append_openGroup]

/-! ## The start of the open group -/

section
variable {s : State} (hready : Ready s) (final : Bool) {text rest : List Byte}
include hready

/-- R95, R97: a lone code in the open group is the one at `GSTART`. -/
theorem gstart_of_lone (hsrc : s.srcBytes = text ++ rest) (htext : text.all isText = true)
    (hroom : 3 * groupCount text ≤ s.dstCount) {e : Engine}
    (hdrive : drive (decUnit final) text.length s.start = .next (decState s text e))
    (hlone : (sourceCodes text).length % 4 = 1) : e.gstart + 1 = afterCodes (sourceCodes text).length text := by
  induction text using List.reverseRecOn generalizing rest e with
  | nil => simp [sourceCodes] at hlone
  | append_singleton text b ih =>
    rw [List.append_assoc] at hsrc
    simp only [List.all_append, List.all_cons, List.all_nil, Bool.and_true, Bool.and_eq_true] at htext
    obtain ⟨htext, hb⟩ := htext
    have hroomBefore : 3 * groupCount text ≤ s.dstCount := by
      have hle := groupCount_le_append text [b]
      omega
    obtain ⟨e₀, he₀, hbefore⟩ := drive_decUnit_text hready final hsrc htext hroomBefore
    obtain ⟨hlt, hbyte⟩ := decState_reads hready hsrc he₀ hroomBefore
    -- the last unit is the one over `b`
    have hlast (u : State) (hunit : decUnit final (decState s text e₀) = .next u) : u.engine = e := by
      rw [List.length_append, List.length_singleton, hbefore, drive_step _ 0 rfl hunit, drive] at hdrive
      rw [Host.Outcome.next.inj hdrive, decState_engine]
    rcases (isText_iff b).mp hb with hspace | ⟨c, hcode⟩
    · rw [sourceCodes_concat_whitespace text hspace] at hlone ⊢
      rw [afterCodes_append le_rfl, ← ih hsrc htext hroomBefore (hbefore 0) hlone,
        ← hlast _ (decUnit_whitespace final hlt (hbyte ▸ hspace))]
      rfl
    · rw [sourceCodes_concat_code text hcode, List.length_append, List.length_singleton] at hlone ⊢
      have hfill : e₀.fill = 0 := by
        rw [he₀.fill]
        omega
      have hopen : (decState s text e₀).engine.fill + 1 ≠ 4 := by
        rw [decState_engine, hfill]
        decide
      rw [afterCodes_concat_code text hcode, ← hlast _ (decUnit_code_open final hlt (hbyte ▸ hcode) hopen)]
      simp [Engine.gather, hfill, he₀.read]

end

/-! ## The end of the span -/

section
variable {s : State} (hready : Ready s) (final : Bool) (htext : s.srcBytes.all isText = true)
  (hroom : 3 * groupCount s.srcBytes ≤ s.dstCount)
include hready htext hroom

/-- Where all groups of the text fit, the unit at the end of the span is the last one. -/
theorem exec_dec_end : ∃ e, DecGathered s.srcBytes e ∧
    ((sourceCodes s.srcBytes).length % 4 = 1 →
      e.gstart + 1 = afterCodes (sourceCodes s.srcBytes).length s.srcBytes) ∧
    exec (.dec final) s = .next (decEnd final (decState s s.srcBytes e)) := by
  have hall : s.srcBytes = s.srcBytes ++ [] := (List.append_nil _).symm
  obtain ⟨e, he, hdrive⟩ := drive_decUnit_text hready final hall htext hroom
  have hend : ¬ (decState s s.srcBytes e).engine.s < (decState s s.srcBytes e).srcCount := by
    rw [decState_engine, he.read, decState_srcCount, State.srcBytes_length]
    exact lt_irrefl _
  have hunit := decUnit_end final hend
  have hbusy : (decEnd final (decState s s.srcBytes e)).busy = false := by
    rcases decEnd_cases final (decState s s.srcBytes e) with ⟨-, e⟩ | ⟨-, -, -, e⟩ | ⟨n, -, -, -, -, e⟩ |
      ⟨n, -, -, -, -, e⟩ | ⟨-, -, e⟩ <;> rw [e] <;> rfl
  have hexec : exec (.dec final) s = drive (decUnit final) (s.srcCount + 1) s.start := hready.exec_eq_drive (.dec final)
  refine ⟨e, he, gstart_of_lone hready final hall htext hroom (hdrive 0), ?_⟩
  rw [hexec, ← State.srcBytes_length, hdrive, drive_step _ _ rfl hunit, drive_idle _ _ hbusy]

end

/-- An end of DEC leaves `VALUE`. -/
theorem decEnd_value (final : Bool) (s : State) : (decEnd final s).value = s.value := by
  rcases decEnd_cases final s with ⟨-, e⟩ | ⟨-, -, -, e⟩ | ⟨n, -, -, -, -, e⟩ | ⟨n, -, -, -, -, e⟩ | ⟨-, -, e⟩ <;>
    rw [e] <;> rfl

section
variable {s : State} (hready : Ready s) {text : List Byte} (hcount : text.length = s.srcCount) {e : Engine}
  (he : DecGathered text e) (hroom : 3 * groupCount text ≤ s.dstCount)
include hready hcount he hroom

/-- R97: the text ends with a complete group, or has no code. -/
theorem decEnd_noGroup_completes (final : Bool) (hwhole : (sourceCodes text).length % 4 = 0) :
    Completes s (decEnd final (decState s text e)) (3 * groupCount text : Nat) text.length (3 * groupCount text)
      (groupBytes text) := by
  have hend := decEnd_noGroup final (s := decState s text e) (he.fill.trans hwhole)
  rw [hend, decState_engine, he.wrote, he.read]
  exact hready.completes_count _ (groupBytes_length text) hcount.le hroom

/-- R98: the codes of the open group are rolled back. -/
theorem decEnd_rollback_completes (hopen : (sourceCodes text).length % 4 ≠ 0) :
    Completes s (decEnd false (decState s text e)) (3 * groupCount text : Nat) (afterCodes (4 * groupCount text) text)
      (3 * groupCount text) (groupBytes text) := by
  have hend := decEnd_rollback (s := decState s text e) (he.fill ▸ hopen)
  rw [hend, decState_engine, he.wrote, he.commit]
  exact hready.completes_count _ (groupBytes_length text) (hcount ▸ afterCodes_le_length _ text) hroom

/-- R97: a lone code is invalid, and the source cursor stands at it. -/
theorem decEnd_lone_completes (hlone : (sourceCodes text).length % 4 = 1)
    (hgstart : e.gstart + 1 = afterCodes (sourceCodes text).length text) :
    Completes s (decEnd true (decState s text e)) (-2) (afterCodes (sourceCodes text).length text - 1)
      (3 * groupCount text) (groupBytes text) := by
  have hfill : (decState s text e).engine.fill = 1 := he.fill.trans hlone
  have hend := decEnd_lone (s := decState s text e) (by rw [hfill]; decide) (by rw [hfill]; rfl)
  have hstart : e.gstart = afterCodes (sourceCodes text).length text - 1 := by omega
  have hcursor : afterCodes (sourceCodes text).length text - 1 ≤ s.srcCount :=
    hcount ▸ (Nat.sub_le _ _).trans (afterCodes_le_length _ text)
  rw [hend, decState_engine, he.wrote, hstart]
  exact hready.completes_error e .invalidSourceData (groupBytes_length text) hcursor hroom

variable {n : Nat} (hopen : (sourceCodes text).length % 4 ≠ 0)
  (hn : partialBytes ((sourceCodes text).length % 4) = some n)
include hopen hn

omit hroom in
/-- R97: the final partial group has room, and the whole text is consumed. -/
theorem decEnd_partial_completes (hfits : 3 * groupCount text + n ≤ s.dstCount) :
    Completes s (decEnd true (decState s text e)) (3 * groupCount text + n : Nat) text.length (3 * groupCount text + n)
      (decodeCodes (sourceCodes text)) := by
  have hgroup := openGroup_length (sourceCodes text)
  have hend := decEnd_partial (s := decState s text e) (he.fill ▸ hopen) (he.fill ▸ hn)
    (by rw [decState_engine, he.wrote]; exact hfits)
  have hout : groupBytes text ++ accBytes e.acc n = decodeCodes (sourceCodes text) := by
    rw [he.acc, accBytes_foldl_partial (by omega) (hgroup ▸ hn), groupBytes, ← decodeCodes_eq_append]
  rw [hend, decState_engine, he.wrote, he.read, decState, State.emit_withEngine _ _ _ (groupBytes_length text).symm, hout]
  refine hready.completes_count _ ?_ hcount.le hfits
  rw [decodeCodes_length_eq, hn]
  rfl

/-- R97: the final partial group has no room, and the complete groups stay. -/
theorem decEnd_noRoom_completes (hover : s.dstCount < 3 * groupCount text + n) :
    Completes s (decEnd true (decState s text e)) (-1) (afterCodes (4 * groupCount text) text) (3 * groupCount text)
      (groupBytes text) := by
  have hend := decEnd_noRoom (s := decState s text e) (he.fill ▸ hopen) (he.fill ▸ hn)
    (by rw [decState_engine, he.wrote]; exact hover)
  rw [hend, decState_engine, he.wrote, he.commit]
  exact hready.completes_error e .notEnoughRoom (groupBytes_length text) (hcount ▸ afterCodes_le_length _ text) hroom

end

/-! ## The statement -/

/-- DEC of a text with a group that does not fit. -/
theorem exec_dec_noRoom {s : State} (hready : Ready s) (final : Bool) (htext : s.srcBytes.all isText = true)
    (hroom : s.dstCount < 3 * groupCount s.srcBytes) :
    ∃ t, exec (.dec final) s = .next t ∧ t.value = s.value ∧
      Completes s t (-1) (afterCodes (4 * (s.dstCount / 3)) s.srcBytes) (3 * (s.dstCount / 3))
        (decodeCodes ((sourceCodes s.srcBytes).take (4 * (s.dstCount / 3)))) := by
  obtain ⟨t, hvalue, hdone, hdrive⟩ := drive_decUnit_noRoom hready final (List.append_nil _).symm htext hroom
  have hexec : exec (.dec final) s = drive (decUnit final) (s.srcCount + 1) s.start := hready.exec_eq_drive (.dec final)
  exact ⟨t, by rw [hexec, ← State.srcBytes_length, hdrive], hvalue, hdone⟩

/-- Settles O15: either a group of the text does not fit, or the command comes to the end of its span, where the open group
is written, rolled back or invalid. -/
theorem decOutcomeOnText : Obligations.DecOutcomeOnText := by
  intro s final hready htext
  by_cases hgroups : 3 * groupCount s.srcBytes ≤ s.dstCount
  case neg =>
    obtain ⟨t, hexec, hvalue, hdone⟩ := exec_dec_noRoom hready final htext (Nat.not_le.mp hgroups)
    refine ⟨t, hexec, hvalue, ?_⟩
    intro text cs n m g q u k
    obtain ⟨hm, hg⟩ : m = s.dstCount ∧ g = groupCount s.srcBytes := ⟨rfl, rfl⟩
    have hk : k = m / 3 := min_eq_right (by omega)
    exact ⟨fun _ _ hfits => by omega, fun _ _ hfits => by omega, fun _ hfits => by omega, fun _ => hk ▸ hdone⟩
  obtain ⟨e, he, hgstart, hexec⟩ := exec_dec_end hready final htext hgroups
  refine ⟨_, hexec, decEnd_value _ _, ?_⟩
  have hcount := s.srcBytes_length
  intro text cs n m g q u k
  have hbytes : partialBytes q = if q = 1 then none else some u := partialBytes_eq (Nat.mod_lt n (by decide))
  have hk : k = g := min_eq_left ((Nat.le_div_iff_mul_le (by decide)).mpr (Nat.mul_comm 3 g ▸ hgroups))
  have hfit : 3 * g ≤ m := hgroups
  rw [hk]
  by_cases hwhole : q = 0
  · have hu : u = 0 := by simp [u, hwhole]
    have hdone := decEnd_noGroup_completes hready hcount he hgroups final hwhole
    have hall : cs.take (4 * g) = cs := List.take_of_length_le (by omega)
    have hout : decodeCodes (cs.take (4 * g)) = decodeCodes cs := congrArg decodeCodes hall
    refine ⟨fun _ _ _ => ?_, fun _ hlone => by omega, fun _ _ => ?_, fun hover => ?_⟩
    · rw [hu, ← hout]
      exact hdone
    · rw [if_pos hwhole]
      exact hdone
    · rw [hu, ite_self] at hover
      omega
  cases final with
  | false =>
    have hdone := decEnd_rollback_completes hready hcount he hgroups hwhole
    refine ⟨nofun, nofun, fun _ _ => ?_, fun hover => absurd hfit (Nat.not_le.mpr hover)⟩
    rw [if_neg hwhole]
    exact hdone
  | true =>
    by_cases hlone : q = 1
    · have hu : u = 0 := by simp [u, hlone]
      have hdone := decEnd_lone_completes hready hcount he hgroups hlone (hgstart hlone)
      refine ⟨fun _ hne => absurd hlone hne, fun _ _ _ => hdone, nofun, fun hover => ?_⟩
      rw [hu, ite_self] at hover
      omega
    · rw [if_neg hlone] at hbytes
      exact ⟨fun _ _ hroom => decEnd_partial_completes hready hcount he hwhole hbytes hroom,
        fun _ h => absurd h hlone, nofun,
        fun hover => decEnd_noRoom_completes hready hcount he hgroups hwhole hbytes hover⟩

end Sys2Proof.Machine
end

section
/-! PROOFS. The length helpers (R127 to R129) as lengths of the wire format's sequences, and ENC and DEC in their final
form by those lengths (R88, R101). -/

namespace Sys2Proof.Machine

/-! ## The helpers -/

theorem encodedLength_natCast (n : Nat) :
    encodedLength n false = (4 * (n / 3) + partialSymbols (n % 3) : Nat) := by
  have hrest : ((n : Int) % 3).toNat = n % 3 := by omega
  have hpos : ¬ ((n : Int) < 0) := by omega
  rw [encodedLength, if_neg hpos, hrest]
  push_cast
  omega

theorem decodedLength_natCast (e : Nat) :
    decodedLength e = (3 * (e / 4) + (partialBytes (e % 4)).getD 0 : Nat) := by
  have hrest : ((e : Int) % 4).toNat = e % 4 := by omega
  have hpos : ¬ ((e : Int) < 0) := by omega
  rw [decodedLength, if_neg hpos, hrest]
  push_cast
  omega

/-- R127: the helper counts the symbols of the encoding. -/
theorem encodedLength_eq_length (bs : List Byte) : encodedLength bs.length false = (encodeBytes bs).length := by
  rw [encodedLength_natCast, encodeBytes_length]

/-- R128: the helper counts the bytes of the decoding. -/
theorem decodedLength_eq_length (cs : List Code) : decodedLength cs.length = (decodeCodes cs).length := by
  rw [decodedLength_natCast, decodeCodes_length_eq]

/-- R129: a partial group of bytes gives one of two or three symbols, and back. -/
theorem decodedLength_encodedLength (n : Nat) : decodedLength (encodedLength n false) = n := by
  have hr := Nat.mod_lt n (by decide : 3 > 0)
  rw [encodedLength_natCast, decodedLength_natCast, partialSymbols_eq hr, partialBytes_eq (Nat.mod_lt _ (by decide))]
  split_ifs <;> simp only [Option.getD_some, Option.getD_none] <;> omega

theorem encodedLength_decodedLength {e : Nat} (h : e % 4 ≠ 1) : encodedLength (decodedLength e) false = e := by
  have hr := Nat.mod_lt e (by decide : 4 > 0)
  rw [decodedLength_natCast, encodedLength_natCast, partialBytes_eq hr, if_neg h,
    partialSymbols_eq (Nat.mod_lt _ (by decide)), Option.getD_some]
  split_ifs <;> omega

/-! ## The final forms by lengths -/

/-- The length of a decoding in the terms of R101. -/
theorem decodeCodes_length_of_not_lone {cs : List Code} (hlone : cs.length % 4 ≠ 1) : (decodeCodes cs).length =
    3 * (cs.length / 4) + (if cs.length % 4 = 2 then 1 else if cs.length % 4 = 3 then 2 else 0) := by
  rw [decodeCodes_length_eq, partialBytes_eq (Nat.mod_lt _ (by decide)), if_neg hlone, Option.getD_some]

section
variable {s : State} (hready : Ready s)
include hready

/-- A length on a ready machine is its count. -/
theorem Ready.srcLen_eq : s.srcLen.toInt = s.srcCount := (Int.toNat_of_nonneg hready.src.1).symm

theorem Ready.dstLen_eq : s.dstLen.toInt = s.dstCount := (Int.toNat_of_nonneg hready.dst.1).symm

/-- R88: `enc.f` with room for the whole encoding. -/
theorem exec_encFinal (hroom : (encodeBytes s.srcBytes).length ≤ s.dstCount) :
    ∃ t, exec (.enc true) s = .next t ∧ Completes s t (encodeBytes s.srcBytes).length s.srcCount
      (encodeBytes s.srcBytes).length (encodeBytes s.srcBytes) := by
  obtain ⟨t, hexec, -, hfits, -, -⟩ := encOutcomeByLengths s true hready
  have hlen := encodeBytes_length s.srcBytes
  rw [State.srcBytes_length, partialSymbols_eq (Nat.mod_lt _ (by decide))] at hlen
  rw [hlen] at hroom ⊢
  exact ⟨t, hexec, hfits rfl hroom⟩

theorem exec_encFinal_noRoom (hroom : s.dstCount < (encodeBytes s.srcBytes).length) :
    ∃ t, exec (.enc true) s = .next t ∧ t.result.toInt = -1 := by
  obtain ⟨t, hexec, -, -, -, hover⟩ := encOutcomeByLengths s true hready
  rw [encodeBytes_length, State.srcBytes_length, partialSymbols_eq (Nat.mod_lt _ (by decide))] at hroom
  exact ⟨t, hexec, (hover hroom).result⟩

variable (htext : s.srcBytes.all isText = true)
include htext

/-- R101: `dec.f` of a text without a lone symbol, with room for the whole decoding. -/
theorem exec_decFinal (hlone : (sourceCodes s.srcBytes).length % 4 ≠ 1)
    (hroom : (decodeCodes (sourceCodes s.srcBytes)).length ≤ s.dstCount) :
    ∃ t, exec (.dec true) s = .next t ∧ Completes s t (decodeCodes (sourceCodes s.srcBytes)).length s.srcCount
      (decodeCodes (sourceCodes s.srcBytes)).length (decodeCodes (sourceCodes s.srcBytes)) := by
  obtain ⟨t, hexec, -, hfits, -⟩ := decOutcomeOnText s true hready htext
  have hlen := decodeCodes_length_of_not_lone hlone
  rw [hlen] at hroom ⊢
  rw [← State.srcBytes_length]
  exact ⟨t, hexec, hfits rfl hlone hroom⟩

theorem exec_decFinal_error (h : (sourceCodes s.srcBytes).length % 4 = 1 ∨
    s.dstCount < (decodeCodes (sourceCodes s.srcBytes)).length) :
    ∃ t, exec (.dec true) s = .next t ∧ t.result.toInt < 0 := by
  obtain ⟨t, hexec, -, -, hlone, -, hover⟩ := decOutcomeOnText s true hready htext
  refine ⟨t, hexec, ?_⟩
  by_cases hq : (sourceCodes s.srcBytes).length % 4 = 1
  · by_cases hgroups : 3 * ((sourceCodes s.srcBytes).length / 4) ≤ s.dstCount
    · rw [(hlone rfl hq hgroups).result]
      decide
    · rw [(hover (Nat.lt_add_right _ (Nat.not_le.mp hgroups))).result]
      decide
  · have hroom := h.resolve_left hq
    rw [decodeCodes_length_of_not_lone hq] at hroom
    rw [(hover hroom).result]
    decide

end

/-- Settles O55: the helpers are the lengths of the encoding and the decoding, and the final forms succeed where these
fit. -/
theorem lengthHelpersAgree : Obligations.LengthHelpersAgree := by
  refine ⟨fun n hn => ?decEnc, fun e he hlone => ?encDec, fun n hn withLength => ?negative, fun n => ?count,
    fun s hready => ?enc, fun s hready htext hlone => ?dec⟩
  case decEnc =>
    lift n to Nat using hn
    exact decodedLength_encodedLength n
  case encDec =>
    lift e to Nat using he
    exact encodedLength_decodedLength (by omega)
  case negative =>
    rw [encodedLength, decodedLength, if_pos hn, if_pos hn]
    exact ⟨rfl, rfl⟩
  case count => rw [encodedLength_natCast, partialSymbols_eq (Nat.mod_lt n (by decide))]
  case enc =>
    have hlen : encodedLength s.srcLen.toInt false = (encodeBytes s.srcBytes).length := by
      rw [hready.srcLen_eq, ← State.srcBytes_length, encodedLength_eq_length]
    rw [hlen, hready.dstLen_eq]
    by_cases hroom : (encodeBytes s.srcBytes).length ≤ s.dstCount
    · obtain ⟨t, hexec, hdone⟩ := exec_encFinal hready hroom
      refine ⟨t, hexec, ?_, fun _ => hdone.result⟩
      rw [hdone.result]
      omega
    · obtain ⟨t, hexec, hresult⟩ := exec_encFinal_noRoom hready (Nat.not_le.mp hroom)
      refine ⟨t, hexec, ?_, fun h => ?_⟩
      all_goals omega
  case dec =>
    rw [decodedLength_eq_length, hready.dstLen_eq]
    by_cases hroom : (decodeCodes (sourceCodes s.srcBytes)).length ≤ s.dstCount
    · obtain ⟨t, hexec, hdone⟩ := exec_decFinal hready htext hlone hroom
      refine ⟨t, hexec, ?_, fun _ => hdone.result⟩
      rw [hdone.result]
      omega
    · obtain ⟨t, hexec, hresult⟩ := exec_decFinal_error hready htext (.inr (Nat.not_le.mp hroom))
      refine ⟨t, hexec, ?_, fun h => ?_⟩
      all_goals omega

end Sys2Proof.Machine
end

section
/-! PROOFS. What a completion leaves, read back (R38, R58): the bytes at the destination, and the agreement of two
completions with the same outcome. -/

namespace Sys2Proof.Machine

/-- A byte of a span that was read. -/
theorem readSpan_getElem? (m : Memory) (base n k : Nat) :
    (readSpan m base n)[k]? = if k < n then some (m.read (base + k)) else none := by
  by_cases hk : k < n <;> simp [readSpan, hk]

theorem readSpan_length (m : Memory) (base n : Nat) : (readSpan m base n).length = n := by simp [readSpan]

/-- A span read in two parts. -/
theorem readSpan_add (m : Memory) (base n k : Nat) :
    readSpan m base (n + k) = readSpan m base n ++ readSpan m (base + n) k := by
  simp [readSpan, List.range_add, Nat.add_assoc]

theorem readSpan_take (m : Memory) (base : Nat) {n k : Nat} (h : k ≤ n) :
    (readSpan m base n).take k = readSpan m base k := by
  obtain ⟨j, rfl⟩ := Nat.exists_eq_add_of_le h
  rw [readSpan_add, List.take_left' (readSpan_length _ _ _)]

theorem readSpan_drop (m : Memory) (base n k : Nat) : (readSpan m base (n + k)).drop n = readSpan m (base + n) k := by
  rw [readSpan_add, List.drop_left' (readSpan_length _ _ _)]

/-- Memories that agree on a span give the same bytes. -/
theorem readSpan_congr {m m' : Memory} {base n : Nat} (h : ∀ a, base ≤ a → a < base + n → m.read a = m'.read a) :
    readSpan m base n = readSpan m' base n :=
  List.map_congr_left fun _ hk => h _ (Nat.le_add_right _ _) (Nat.add_lt_add_left (List.mem_range.mp hk) _)

section
variable {s t : State} {o : Int} {srcOut dstOut : Nat} {out : List Byte} (h : Completes s t o srcOut dstOut out)
include h

/-- R38: the whole memory after a completion. -/
theorem Completes.read (a : Nat) : t.mem.read a =
    if s.dstPtr.toNat ≤ a ∧ a < s.dstPtr.toNat + dstOut then out.getD (a - s.dstPtr.toNat) 0 else s.mem.read a := by
  split
  case isTrue hin =>
    have hbyte := readSpan_getElem? t.mem s.dstPtr.toNat dstOut (a - s.dstPtr.toNat)
    rw [h.written.2, if_pos (by omega), Nat.add_sub_cancel' hin.1] at hbyte
    rw [List.getD_eq_getElem?_getD, hbyte, Option.getD_some]
  case isFalse hout => exact h.others a (by omega)

/-- R58: the destination length shrinks by the bytes written. -/
theorem Completes.dstLen_sub_toNat_le : (s.dstLen - t.dstLen).toNat ≤ dstOut := by
  have hlen := h.dstLen
  have hsub : s.dstLen - t.dstLen = BitVec.ofNat 32 dstOut := by
    apply BitVec.eq_of_toInt_eq
    rw [BitVec.toInt_sub, hlen, BitVec.toInt_ofNat', sub_sub_cancel]
  rw [hsub, BitVec.toNat_ofNat]
  exact Nat.mod_le _ _

/-- Two completions with the same outcome at the same destination agree. -/
theorem Completes.agree {s₂ t₂ : State} {srcOut₂ : Nat} (h₂ : Completes s₂ t₂ o srcOut₂ dstOut out) (hcfg : s.cfg = s₂.cfg)
    (hdstPtr : s.dstPtr = s₂.dstPtr) (hdstLen : s.dstLen = s₂.dstLen) :
    t.result = t₂.result ∧ t.dstPtr = t₂.dstPtr ∧ t.dstLen = t₂.dstLen ∧
      ∀ k, k < (s.dstLen - t.dstLen).toNat → t.mem.read (s.dstPtr.toNat + k) = t₂.mem.read (s₂.dstPtr.toNat + k) := by
  refine ⟨BitVec.eq_of_toInt_eq ?_, BitVec.eq_of_toNat_eq ?_, BitVec.eq_of_toInt_eq ?_, fun k hk => ?_⟩
  · rw [h.result, h₂.result]
  · rw [h.dstPtr, h₂.dstPtr, hcfg, hdstPtr]
  · rw [h.dstLen, h₂.dstLen, hdstLen]
  · have hin := hk.trans_le h.dstLen_sub_toNat_le
    rw [h.read, h₂.read, hdstPtr, if_pos (by omega), if_pos (by omega)]

end

end Sys2Proof.Machine
end

section
/-! PROOFS. Whitespace in the source of DEC (R93, R102): the codes and the first invalid byte are the same without it, and
these decide what DEC writes and reports. -/

namespace Sys2Proof.Machine

/-- A source without its whitespace. -/
def visible (bs : List Byte) : List Byte := bs.filter fun b => !isSpace b

theorem isSpace_iff (b : Byte) : isSpace b = true ↔ rev b = .whitespace := by simp [isSpace]

/-- R59: whitespace is text. -/
theorem isText_of_isSpace {b : Byte} (h : isSpace b = true) : isText b = true :=
  (isText_iff b).mpr (.inl ((isSpace_iff b).mp h))

/-- R93: a byte that is not visible is no code. -/
theorem codeOf_visible (b : Byte) : (if (!isSpace b) = true then codeOf b else none) = codeOf b := by
  cases h : isSpace b with
  | true => exact (codeOf_whitespace ((isSpace_iff b).mp h)).symm
  | false => rfl

theorem sourceCodes_visible (bs : List Byte) : sourceCodes (visible bs) = sourceCodes bs := by
  simp only [sourceCodes, visible, List.filterMap_filter, codeOf_visible]

/-- The first invalid byte of a source, if it has one. -/
theorem exists_first_invalid (bs : List Byte) : bs.all isText = true ∨
    ∃ before b after, bs = before ++ b :: after ∧ before.all isText = true ∧ isText b = false := by
  induction bs with
  | nil => exact .inl rfl
  | cons b bs ih =>
    cases hb : isText b with
    | false => exact .inr ⟨[], b, bs, rfl, rfl, hb⟩
    | true =>
      rcases ih with htext | ⟨before, c, after, rfl, hbefore, hc⟩
      · exact .inl (by simp [hb, htext])
      · exact .inr ⟨b :: before, c, after, rfl, by simp [hb, hbefore], hc⟩

/-- The text of a source, up to its first invalid byte. -/
def leadingText (bs : List Byte) : List Byte := bs.takeWhile isText

theorem leadingText_append_invalid {before after : List Byte} {b : Byte} (hbefore : before.all isText = true)
    (hb : isText b = false) : leadingText (before ++ b :: after) = before := by
  rw [leadingText, List.takeWhile_append_of_pos (List.all_eq_true.mp hbefore), List.takeWhile_cons_of_neg (by simp [hb]),
    List.append_nil]

/-- Whitespace does not move the first invalid byte among the visible ones. -/
theorem leadingText_visible (bs : List Byte) : leadingText (visible bs) = visible (leadingText bs) := by
  induction bs with
  | nil => rfl
  | cons b bs ih =>
    cases hspace : isSpace b with
    | true => simpa [leadingText, visible, hspace, isText_of_isSpace hspace] using ih
    | false =>
      cases htext : isText b with
      | true => simpa [leadingText, visible, hspace, htext] using ih
      | false => simp [leadingText, visible, hspace, htext]

theorem all_isText_visible (bs : List Byte) : (visible bs).all isText = bs.all isText := by
  induction bs with
  | nil => rfl
  | cons b bs ih =>
    cases hspace : isSpace b with
    | true => simpa [visible, hspace, isText_of_isSpace hspace] using ih
    | false => simpa [visible, hspace] using congrArg (isText b && ·) ih

/-- How a DEC ends and what it writes, up to the source cursor. -/
def DecGives (s : State) (final : Bool) (o : Int) (out : List Byte) : Prop :=
  ∃ t srcOut, exec (.dec final) s = .next t ∧ Completes s t o srcOut out.length out

section
variable {s t : State} {final : Bool} {o : Int} {srcOut dstOut : Nat} {out : List Byte}

theorem DecGives.of_completes (hexec : exec (.dec final) s = .next t) (h : Completes s t o srcOut dstOut out) :
    DecGives s final o out := by
  obtain ⟨rfl, -⟩ := h.written
  exact ⟨t, srcOut, hexec, h⟩

end

/-- R101: of a text, the codes and the room decide what DEC gives. -/
theorem exists_decGives_of_text (cs : List Code) (m : Nat) (final : Bool) : ∃ o out, ∀ s, Ready s →
    s.srcBytes.all isText = true → sourceCodes s.srcBytes = cs → s.dstCount = m → DecGives s final o out := by
  by_cases hover : m < 3 * (cs.length / 4) + (if final then
      if cs.length % 4 = 2 then 1 else if cs.length % 4 = 3 then 2 else 0 else 0)
  · refine ⟨-1, decodeCodes (cs.take (4 * min (cs.length / 4) (m / 3))), fun s hready htext hcs hm => ?_⟩
    subst hcs hm
    obtain ⟨t, hexec, -, -, -, -, hnoRoom⟩ := decOutcomeOnText s final hready htext
    exact .of_completes hexec (hnoRoom hover)
  cases final with
  | false =>
    refine ⟨(3 * (cs.length / 4) : Nat), decodeCodes (cs.take (4 * (cs.length / 4))), fun s hready htext hcs hm => ?_⟩
    subst hcs hm
    obtain ⟨t, hexec, -, -, -, hrollback, -⟩ := decOutcomeOnText s false hready htext
    exact .of_completes hexec (hrollback rfl (Nat.not_lt.mp hover))
  | true =>
    rw [if_pos rfl] at hover
    by_cases hlone : cs.length % 4 = 1
    · refine ⟨-2, decodeCodes (cs.take (4 * (cs.length / 4))), fun s hready htext hcs hm => ?_⟩
      subst hcs hm
      obtain ⟨t, hexec, -, -, hinvalid, -⟩ := decOutcomeOnText s true hready htext
      exact .of_completes hexec (hinvalid rfl hlone ((Nat.le_add_right _ _).trans (Nat.not_lt.mp hover)))
    · refine ⟨(3 * (cs.length / 4) + (if cs.length % 4 = 2 then 1 else if cs.length % 4 = 3 then 2 else 0) : Nat),
        decodeCodes cs, fun s hready htext hcs hm => ?_⟩
      subst hcs hm
      obtain ⟨t, hexec, -, hfits, -⟩ := decOutcomeOnText s true hready htext
      exact .of_completes hexec (hfits rfl hlone (Nat.not_lt.mp hover))

/-- R94, R139: of a source with an invalid byte, the codes before the first one and the room do. -/
theorem exists_decGives_of_invalid (cs : List Code) (m : Nat) (final : Bool) : ∃ o out, ∀ s, Ready s →
    ¬ s.srcBytes.all isText = true → sourceCodes (leadingText s.srcBytes) = cs → s.dstCount = m →
    DecGives s final o out := by
  have split (s : State) (h : ¬ s.srcBytes.all isText = true) (hcs : sourceCodes (leadingText s.srcBytes) = cs) :
      ∃ before b after, s.srcBytes = before ++ b :: after ∧ before.all isText = true ∧ isText b = false ∧
        sourceCodes before = cs := by
    obtain ⟨before, b, after, hsrc, hbefore, hb⟩ := (exists_first_invalid s.srcBytes).resolve_left h
    rw [hsrc, leadingText_append_invalid hbefore hb] at hcs
    exact ⟨before, b, after, hsrc, hbefore, hb, hcs⟩
  by_cases hroom : 3 * (cs.length / 4) ≤ m
  · refine ⟨-2, decodeCodes (cs.take (4 * (cs.length / 4))), fun s hready hsome hcs hm => ?_⟩
    obtain ⟨before, b, after, hsrc, hbefore, hb, rfl⟩ := split s hsome hcs
    subst hm
    obtain ⟨t, hexec, -, hinvalid, -⟩ := decStopsAtInvalidByte s final before after b hready hsrc hbefore hb
    exact .of_completes hexec (hinvalid hroom)
  · refine ⟨-1, decodeCodes (cs.take (4 * (m / 3))), fun s hready hsome hcs hm => ?_⟩
    obtain ⟨before, b, after, hsrc, hbefore, hb, rfl⟩ := split s hsome hcs
    subst hm
    obtain ⟨t, hexec, -, -, hnoRoom⟩ := decStopsAtInvalidByte s final before after b hready hsrc hbefore hb
    exact .of_completes hexec (hnoRoom (Nat.not_le.mp hroom))

/-- Two ready machines with the same visible source and the same room give the same. -/
theorem decGives_of_visible {s t : State} (final : Bool) (hs : Ready s) (ht : Ready t) (hdstLen : s.dstLen = t.dstLen)
    (hvisible : visible s.srcBytes = visible t.srcBytes) :
    ∃ o out, DecGives s final o out ∧ DecGives t final o out := by
  have hroom : t.dstCount = s.dstCount := by rw [State.dstCount, ← hdstLen, State.dstCount]
  have htexts : t.srcBytes.all isText = s.srcBytes.all isText := by
    rw [← all_isText_visible, ← hvisible, all_isText_visible]
  by_cases htext : s.srcBytes.all isText = true
  · have hcodes : sourceCodes t.srcBytes = sourceCodes s.srcBytes := by
      rw [← sourceCodes_visible, ← hvisible, sourceCodes_visible]
    obtain ⟨o, out, hgives⟩ := exists_decGives_of_text (sourceCodes s.srcBytes) s.dstCount final
    exact ⟨o, out, hgives s hs htext rfl rfl, hgives t ht (htexts.trans htext) hcodes hroom⟩
  · have hcodes : sourceCodes (leadingText t.srcBytes) = sourceCodes (leadingText s.srcBytes) := by
      rw [← sourceCodes_visible, ← leadingText_visible, ← hvisible, leadingText_visible, sourceCodes_visible]
    obtain ⟨o, out, hgives⟩ := exists_decGives_of_invalid (sourceCodes (leadingText s.srcBytes)) s.dstCount final
    exact ⟨o, out, hgives s hs htext rfl rfl, hgives t ht (htexts ▸ htext) hcodes hroom⟩

/-- Settles O17: both machines complete with one outcome and one list of bytes. -/
theorem whitespaceIsTransparent : Obligations.WhitespaceIsTransparent := by
  intro s t final hs ht hcfg hdstPtr hdstLen hvisible
  obtain ⟨o, out, ⟨s', k, hexec, hdone⟩, t', k', hexec', hdone'⟩ := decGives_of_visible final hs ht hdstLen hvisible
  exact ⟨s', t', hexec, hexec', hdone.agree hdone' hcfg hdstPtr hdstLen⟩

end Sys2Proof.Machine
end

section
/-! PROOFS. A source in two pieces (R89, R104): the machine for the first piece, the machine for the rolled-back units and
the rest, and the agreement of the two completions with a single one. -/

namespace Sys2Proof.Machine

/-! ## The two machines -/

/-- The machine that is given the first `k` source units only. -/
def State.firstPart (s : State) (k : Nat) : State := { s with srcLen := BitVec.ofNat 32 k }

/-- The machine that is given `j` more source units. -/
def State.withMore (a : State) (j : Nat) : State := { a with srcLen := a.srcLen + BitVec.ofNat 32 j }

/-- R18, R41: a cursor that moves inside its span stays in the space, and wraps only where nothing is left of the span. -/
theorem cursor_inside {p n c M : Nat} (hM : 0 < M) (h : p + n ≤ M) (hc : c ≤ n) :
    (c < n → (p + c) % M = p + c) ∧ (p + c) % M + (n - c) ≤ M := by
  have hwrap : c < n → (p + c) % M = p + c := fun hlt => Nat.mod_eq_of_lt (by omega)
  have hlt := Nat.mod_lt (p + c) hM
  refine ⟨hwrap, ?_⟩
  rcases hc.lt_or_eq with hlt | rfl
  · rw [hwrap hlt]
    omega
  · omega

section
variable {s : State} {k : Nat} (hk : k ≤ s.srcCount)
include hk

theorem State.firstPart_srcLen : (s.firstPart k).srcLen.toInt = k := ofNat_toInt_of_le (l := s.srcLen) hk

theorem State.firstPart_srcCount : (s.firstPart k).srcCount = k := by
  rw [State.srcCount, State.firstPart_srcLen hk, Int.toNat_natCast]

theorem State.firstPart_srcBytes : (s.firstPart k).srcBytes = s.srcBytes.take k := by
  have hcount : (s.firstPart k).srcLen.toInt.toNat = k := State.firstPart_srcCount hk
  have hspan : (s.firstPart k).srcBytes = readSpan s.mem s.srcPtr.toNat k := by rw [State.srcBytes, hcount]; rfl
  rw [hspan]
  exact (readSpan_take _ _ hk).symm

section
variable {a : State} {o : Int} {c d : Nat} {out : List Byte} (ha : Completes (s.firstPart k) a o c d out) (hc : c ≤ k)
include ha hc

/-- What the first piece has not consumed, and the rest, are left. -/
theorem State.withMore_srcLen : (a.withMore (s.srcCount - k)).srcLen.toInt = (s.srcCount - c : Nat) := by
  have hlen := ha.srcLen
  rw [State.firstPart_srcLen hk] at hlen
  have hlt := BitVec.toInt_lt (x := s.srcLen)
  have hcount : s.srcCount = s.srcLen.toInt.toNat := rfl
  rw [State.withMore, BitVec.toInt_add, hlen, BitVec.toInt_ofNat', Int.add_bmod_bmod, Int.bmod_def]
  omega

theorem State.withMore_srcCount : (a.withMore (s.srcCount - k)).srcCount = s.srcCount - c := by
  rw [State.srcCount, State.withMore_srcLen hk ha hc, Int.toNat_natCast]

end

end

theorem State.withMore_dstCount {s a : State} {k j : Nat} {o : Int} {c d : Nat} {out : List Byte}
    (ha : Completes (s.firstPart k) a o c d out) : (a.withMore j).dstCount = s.dstCount - d := by
  have hlen : (a.withMore j).dstLen.toInt = s.dstLen.toInt - d := ha.dstLen
  rw [State.dstCount, hlen, State.dstCount]
  omega

section
variable {s : State} (hready : Ready s) {k : Nat} (hk : k ≤ s.srcCount)
include hready hk

theorem Ready.firstPart : Ready (s.firstPart k) := by
  have hlen := State.firstPart_srcLen hk
  obtain ⟨hwf, hidle, hsrc, hdst, hapart⟩ := hready
  have hcount : s.srcCount = s.srcLen.toInt.toNat := rfl
  obtain ⟨h1, h2⟩ := hsrc
  have hptr : (s.firstPart k).srcPtr = s.srcPtr := rfl
  have hcfg : (s.firstPart k).cfg = s.cfg := rfl
  have hdptr : (s.firstPart k).dstPtr = s.dstPtr := rfl
  have hdlen : (s.firstPart k).dstLen = s.dstLen := rfl
  refine ⟨.of_idle hwf.cfgOk hwf.srcOk hwf.dstOk hwf.memOk hwf.memBelow hidle, hidle, ?_, hdst, ?_⟩
  · rw [SrcFits, hlen, hptr, hcfg]
    omega
  · rw [SpansDisjoint, hlen, hptr, hdptr, hdlen]
    omega

section
variable {a : State} {o : Int} {c d : Nat} {out : List Byte} (ha : Completes (s.firstPart k) a o c d out) (hc : c ≤ k)
include ha hc

variable (hd : d ≤ s.dstCount)
include hd

/-- R42: the first piece has written into the destination span only, so the rest of the source is as it was. -/
theorem State.withMore_srcBytes : (a.withMore (s.srcCount - k)).srcBytes = s.srcBytes.drop c := by
  have hcount : (a.withMore (s.srcCount - k)).srcLen.toInt.toNat = s.srcCount - c :=
    State.withMore_srcCount hk ha hc
  have hptr : (a.withMore (s.srcCount - k)).srcPtr.toNat = (s.srcPtr.toNat + c) % 2 ^ s.cfg.addrW := ha.srcPtr
  have hsplit : s.srcLen.toInt.toNat = c + (s.srcCount - c) := (Nat.add_sub_cancel' (hc.trans hk)).symm
  have hrest : s.srcBytes.drop c = readSpan s.mem (s.srcPtr.toNat + c) (s.srcCount - c) := by
    rw [State.srcBytes, hsplit, readSpan_drop]
  have hspan : (a.withMore (s.srcCount - k)).srcBytes =
      readSpan a.mem ((s.srcPtr.toNat + c) % 2 ^ s.cfg.addrW) (s.srcCount - c) := by rw [State.srcBytes, hcount, hptr]; rfl
  rw [hspan, hrest]
  rcases (hc.trans hk).lt_or_eq with hmore | hall
  · rw [(cursor_inside (Nat.two_pow_pos _) hready.src.2 (hc.trans hk)).1 hmore]
    have hapart := hready.apart
    have hdst : s.dstCount = s.dstLen.toInt.toNat := rfl
    have hsrc : s.srcCount = s.srcLen.toInt.toNat := rfl
    have hdptr : (s.firstPart k).dstPtr = s.dstPtr := rfl
    refine readSpan_congr fun x hlo hhi => ha.others x ?_
    rw [hdptr]
    omega
  · rw [← hall, Nat.sub_self]
    rfl

theorem Ready.withMore (hwf : a.Wf) : Ready (a.withMore (s.srcCount - k)) := by
  have hlen := State.withMore_srcLen hk ha hc
  have hdlen : (a.withMore (s.srcCount - k)).dstLen.toInt = s.dstLen.toInt - d := ha.dstLen
  have hptr : (a.withMore (s.srcCount - k)).srcPtr.toNat = (s.srcPtr.toNat + c) % 2 ^ s.cfg.addrW := ha.srcPtr
  have hdptr : (a.withMore (s.srcCount - k)).dstPtr.toNat = (s.dstPtr.toNat + d) % 2 ^ s.cfg.addrW := ha.dstPtr
  have hcfg : (a.withMore (s.srcCount - k)).cfg = s.cfg := ha.rest.1
  have hsrc : s.srcCount = s.srcLen.toInt.toNat := rfl
  have hdst : s.dstCount = s.dstLen.toInt.toNat := rfl
  obtain ⟨hsrcStays, hsrcTop⟩ := cursor_inside (Nat.two_pow_pos _) hready.src.2 (hc.trans hk)
  obtain ⟨hdstStays, hdstTop⟩ := cursor_inside (Nat.two_pow_pos _) hready.dst.2 hd
  have hdpos := hready.dst.1
  have hapart := hready.apart
  refine ⟨.of_idle hwf.cfgOk hwf.srcOk hwf.dstOk hwf.memOk hwf.memBelow ha.busy, ha.busy, ?_, ?_, ?_⟩
  · rw [SrcFits, hlen, hptr, hcfg]
    omega
  · rw [DstFits, hdlen, hdptr, hcfg]
    omega
  · rw [SpansDisjoint, hlen, hdlen, hptr, hdptr]
    omega

/-! ## Agreement with a single command -/

/-- Two pieces that together consume the source and write what one command writes leave what it leaves. -/
theorem two_pieces_agree {t b : State} {o₂ : Int} {d₂ : Nat} {out₂ : List Byte} (hdd : d + d₂ ≤ s.dstCount)
    (ht : Completes s t (o + o₂) s.srcCount (d + d₂) (out ++ out₂))
    (hb : Completes (a.withMore (s.srcCount - k)) b o₂ (s.srcCount - c) d₂ out₂) :
    b.srcPtr = t.srcPtr ∧ b.srcLen = t.srcLen ∧ b.dstPtr = t.dstPtr ∧ b.dstLen = t.dstLen ∧
      a.result.toInt + b.result.toInt = t.result.toInt ∧ ∀ x, b.mem.read x = t.mem.read x := by
  have hcfg : (a.withMore (s.srcCount - k)).cfg = s.cfg := ha.rest.1
  have hsrcPtr : (a.withMore (s.srcCount - k)).srcPtr.toNat = (s.srcPtr.toNat + c) % 2 ^ s.cfg.addrW := ha.srcPtr
  have hdstPtr : (a.withMore (s.srcCount - k)).dstPtr.toNat = (s.dstPtr.toNat + d) % 2 ^ s.cfg.addrW := ha.dstPtr
  have hdstLen : (a.withMore (s.srcCount - k)).dstLen.toInt = s.dstLen.toInt - d := ha.dstLen
  have hsrcLen := State.withMore_srcLen hk ha hc
  have hlen := hready.srcLen_eq
  refine ⟨BitVec.eq_of_toNat_eq ?_, BitVec.eq_of_toInt_eq ?_, BitVec.eq_of_toNat_eq ?_, BitVec.eq_of_toInt_eq ?_, ?_,
    fun x => ?_⟩
  · rw [hb.srcPtr, ht.srcPtr, hcfg, hsrcPtr, Nat.mod_add_mod, Nat.add_assoc, Nat.add_sub_cancel' (hc.trans hk)]
  · rw [hb.srcLen, ht.srcLen, hsrcLen, hlen]
    omega
  · rw [hb.dstPtr, ht.dstPtr, hcfg, hdstPtr, Nat.mod_add_mod, Nat.add_assoc]
  · rw [hb.dstLen, ht.dstLen, hdstLen]
    push_cast
    omega
  · rw [ha.result, hb.result, ht.result]
  · have hmem : (a.withMore (s.srcCount - k)).mem = a.mem := rfl
    have hdptr : (s.firstPart k).dstPtr = s.dstPtr := rfl
    have hsmem : (s.firstPart k).mem = s.mem := rfl
    have hout := ha.written.1
    rw [hb.read, ht.read, hmem, ha.read, hdptr, hsmem, hdstPtr]
    rcases Nat.eq_zero_or_pos d₂ with rfl | hpos
    · have hnone : out₂ = [] := List.eq_nil_of_length_eq_zero hb.written.1
      rw [if_neg (by omega), hnone, List.append_nil, Nat.add_zero]
    have hdst : s.dstCount = s.dstLen.toInt.toNat := rfl
    rw [(cursor_inside (Nat.two_pow_pos _) hready.dst.2 (by omega)).1 (by omega)]
    by_cases hsecond : s.dstPtr.toNat + d ≤ x
    · rw [if_neg (by omega : ¬ (s.dstPtr.toNat ≤ x ∧ x < s.dstPtr.toNat + d)),
        List.getD_append_right _ _ _ _ (by omega), hout, Nat.sub_sub, Nat.add_assoc]
      simp only [hsecond, true_and, (Nat.le_add_right _ _).trans hsecond]
    · rw [if_neg (by omega)]
      by_cases hfirst : s.dstPtr.toNat ≤ x
      · rw [if_pos (by omega), if_pos (by omega), List.getD_append _ _ _ _ (by omega)]
      · rw [if_neg (by omega), if_neg (by omega)]

end

end

/-! ## ENC -/

/-- Settles O14: the first piece encodes its complete groups and rolls the rest back; the encoding is that of these groups
and that of what is left. -/
theorem encSplitInvariance : Obligations.EncSplitInvariance := by
  intro s k hready hk hfits
  obtain ⟨g, hg⟩ : ∃ g, g = k / 3 := ⟨_, rfl⟩
  have hk : k ≤ s.srcCount := hk
  have hlen : (s.srcBytes.take (3 * g)).length = 3 * g := List.length_take_of_le (by rw [State.srcBytes_length]; omega)
  have hwhole : (s.srcBytes.take (3 * g)).length % 3 = 0 := by omega
  have hsplit : encodeBytes s.srcBytes = encodeBytes (s.srcBytes.take (3 * g)) ++ encodeBytes (s.srcBytes.drop (3 * g)) := by
    rw [← encodeBytes_append hwhole, List.take_append_drop]
  have hgroups : (encodeBytes (s.srcBytes.take (3 * g))).length = 4 * g := by
    rw [encodeBytes_length, hlen, Nat.mul_div_cancel_left _ (by decide), Nat.mul_mod_right]
    rfl
  have hroom : (encodeBytes s.srcBytes).length ≤ s.dstCount := by
    rw [hready.srcLen_eq, hready.dstLen_eq, ← State.srcBytes_length, encodedLength_eq_length] at hfits
    exact Int.ofNat_le.mp hfits
  obtain ⟨t, hexec, ht⟩ := exec_encFinal hready hroom
  rw [hsplit, List.length_append, hgroups] at hroom ht
  -- the first piece
  obtain ⟨a, hexecFirst, -, -, hrollback, -⟩ := encOutcomeByLengths (s.firstPart k) false (hready.firstPart hk)
  have ha : Completes (s.firstPart k) a (4 * g : Nat) (3 * g) (4 * g) (encodeBytes (s.srcBytes.take (3 * g))) := by
    have hcount : (s.firstPart k).srcLen.toInt.toNat = k := State.firstPart_srcCount hk
    have hbytes : (s.srcBytes.take k).take (3 * g) = s.srcBytes.take (3 * g) := by
      rw [List.take_take, min_eq_left (by omega)]
    rw [hcount, ← hg, State.firstPart_srcBytes hk, hbytes] at hrollback
    exact hrollback rfl ((Nat.le_add_right _ _).trans hroom)
  -- the rest
  have hc : 3 * g ≤ k := by omega
  have hd : 4 * g ≤ s.dstCount := by omega
  have hwf : a.Wf := exec_keeps_wf (hready.firstPart hk).wf hexecFirst
  have hbytes := State.withMore_srcBytes hready hk ha hc hd
  obtain ⟨b, hexecRest, hb⟩ := exec_encFinal (Ready.withMore hready hk ha hc hd hwf)
    (by rw [hbytes, State.withMore_dstCount ha]; omega)
  rw [hbytes, State.withMore_srcCount hk ha hc] at hb
  exact ⟨t, a, b, hexec, hexecFirst, hexecRest, two_pieces_agree hready hk ha hc hd hroom (by exact_mod_cast ht) hb⟩

/-! ## DEC -/

/-- The text up to just after its `j`-th code holds the first `j` codes. -/
theorem sourceCodes_take_afterCodes (j : Nat) (text : List Byte) :
    sourceCodes (text.take (afterCodes j text)) = (sourceCodes text).take j := by
  induction text generalizing j with
  | nil => simp [sourceCodes]
  | cons b bs ih =>
    cases j with
    | zero => simp [afterCodes, sourceCodes]
    | succ j =>
      rw [afterCodes, Nat.add_comm 1, List.take_succ_cons]
      cases hcode : codeOf b with
      | none => simpa [sourceCodes, hcode] using ih (j + 1)
      | some c => simpa [sourceCodes, hcode] using ih j

/-- R98: where a DEC that is not final leaves its source cursor: after its last complete group, or, where no code is left
over, at the end. Either way it has passed the codes of its complete groups. -/
theorem sourceCodes_take_rollback (text : List Byte) {c : Nat}
    (hc : c = if (sourceCodes text).length % 4 = 0 then text.length else
      afterCodes (4 * ((sourceCodes text).length / 4)) text) :
    c ≤ text.length ∧ sourceCodes (text.take c) = wholeGroups (sourceCodes text) := by
  by_cases hwhole : (sourceCodes text).length % 4 = 0
  · rw [if_pos hwhole] at hc
    subst hc
    refine ⟨le_rfl, ?_⟩
    rw [List.take_length, wholeGroups, List.take_of_length_le (by omega)]
  · rw [if_neg hwhole] at hc
    subst hc
    exact ⟨afterCodes_le_length _ _, sourceCodes_take_afterCodes _ _⟩

theorem all_isText_of_append {l l' : List Byte} (h : (l ++ l').all isText = true) :
    l.all isText = true ∧ l'.all isText = true := by
  rwa [List.all_append, Bool.and_eq_true] at h

/-- Settles O18: the first piece decodes its complete groups and rolls the rest back; the decoding is that of these groups
and that of the codes left. -/
theorem decSplitInvariance : Obligations.DecSplitInvariance := by
  intro s k hready hk htext hlone hfits
  have hk : k ≤ s.srcCount := hk
  -- the first piece, and what it passes
  obtain ⟨first, hfirst⟩ : ∃ first, first = s.srcBytes.take k := ⟨_, rfl⟩
  have hfirstLen : first.length = k := hfirst ▸ List.length_take_of_le (s.srcBytes_length ▸ hk)
  obtain ⟨c, hc⟩ : ∃ c, c = if (sourceCodes first).length % 4 = 0 then first.length else
      afterCodes (4 * ((sourceCodes first).length / 4)) first := ⟨_, rfl⟩
  obtain ⟨hcLe, hpassed⟩ := sourceCodes_take_rollback first hc
  rw [hfirstLen] at hcLe
  obtain ⟨whole, hwhole⟩ : ∃ whole, whole = wholeGroups (sourceCodes first) := ⟨_, rfl⟩
  have hwholeLen : whole.length = 4 * ((sourceCodes first).length / 4) := hwhole ▸ wholeGroups_length _
  have hwholeMod : whole.length % 4 = 0 := by omega
  have hcodes : sourceCodes s.srcBytes = whole ++ sourceCodes (s.srcBytes.drop c) := by
    have htake : first.take c = s.srcBytes.take c := by rw [hfirst, List.take_take, min_eq_left hcLe]
    rw [hwhole, ← hpassed, htake, ← sourceCodes_append, List.take_append_drop]
  have hsplit : decodeCodes (sourceCodes s.srcBytes) =
      decodeCodes whole ++ decodeCodes (sourceCodes (s.srcBytes.drop c)) := by
    rw [hcodes, decodeCodes_append hwholeMod]
  have hgroups : (decodeCodes whole).length = 3 * ((sourceCodes first).length / 4) := by
    rw [decodeCodes_length hwholeMod, hwholeLen, Nat.mul_div_cancel_left _ (by decide)]
  have hroom : (decodeCodes (sourceCodes s.srcBytes)).length ≤ s.dstCount := by
    rw [hready.dstLen_eq, decodedLength_eq_length] at hfits
    exact Int.ofNat_le.mp hfits
  obtain ⟨t, hexec, ht⟩ := exec_decFinal hready htext hlone hroom
  rw [hsplit, List.length_append, hgroups] at hroom ht
  obtain ⟨htextFirst, -⟩ := all_isText_of_append ((List.take_append_drop k s.srcBytes).symm ▸ htext)
  obtain ⟨-, htextRest⟩ := all_isText_of_append ((List.take_append_drop c s.srcBytes).symm ▸ htext)
  have hfirstBytes : (s.firstPart k).srcBytes = first := (State.firstPart_srcBytes hk).trans hfirst.symm
  obtain ⟨a, hexecFirst, -, -, -, hrollback, -⟩ :=
    decOutcomeOnText (s.firstPart k) false (hready.firstPart hk) (hfirstBytes ▸ hfirst ▸ htextFirst)
  have ha : Completes (s.firstPart k) a (3 * ((sourceCodes first).length / 4) : Nat) c
      (3 * ((sourceCodes first).length / 4)) (decodeCodes whole) := by
    rw [hfirstBytes, ← hc] at hrollback
    rw [hwhole]
    exact hrollback rfl ((Nat.le_add_right _ _).trans hroom)
  -- the rest
  have hd : 3 * ((sourceCodes first).length / 4) ≤ s.dstCount := by omega
  have hwf : a.Wf := exec_keeps_wf (hready.firstPart hk).wf hexecFirst
  have hbytes := State.withMore_srcBytes hready hk ha hcLe hd
  have hloneRest : (sourceCodes (s.srcBytes.drop c)).length % 4 ≠ 1 := by
    rw [hcodes, List.length_append] at hlone
    omega
  obtain ⟨b, hexecRest, hb⟩ := exec_decFinal (Ready.withMore hready hk ha hcLe hd hwf) (hbytes ▸ htextRest)
    (hbytes ▸ hloneRest) (by rw [hbytes, State.withMore_dstCount ha]; omega)
  rw [hbytes, State.withMore_srcCount hk ha hcLe] at hb
  exact ⟨t, a, b, hexec, hexecFirst, hexecRest, two_pieces_agree hready hk ha hcLe hd hroom (by exact_mod_cast ht) hb⟩

end Sys2Proof.Machine
end

section
/-! PROOFS. The round trips (R103, R120): the wire format's two directions undo each other, and so do the commands over
what the other one wrote. -/

namespace Sys2Proof.Machine

/-! ## The wire format -/

theorem codeOf_fwd (c : Code) : codeOf (fwd c) = some c := (codeOf_eq_some_iff _ c).mpr (rev_fwd c)

theorem sourceCodes_map_fwd (cs : List Code) : sourceCodes (cs.map fwd) = cs := by
  simp [sourceCodes, List.filterMap_map, codeOf_fwd]

/-- The bits of a group's tables as numbers. -/
theorem append_toNat {n m : Nat} (x : BitVec n) (y : BitVec m) : (x ++ y).toNat = x.toNat * 2 ^ m + y.toNat := by
  rw [BitVec.toNat_append, ← Nat.shiftLeft_add_eq_or_of_lt y.isLt, Nat.shiftLeft_eq]

theorem slice_toNat {n : Nat} (x : BitVec n) (start len : Nat) :
    (x.extractLsb' start len).toNat = x.toNat / 2 ^ start % 2 ^ len := by
  rw [BitVec.extractLsb'_toNat, Nat.shiftRight_eq_div_pow]

/-- R63: what is left of a first code with its padding bits cleared. -/
theorem clearPadding_toNat (c : Code) :
    (c &&& 0b001111).toNat = c.toNat % 16 ∧ (c &&& 0b000011).toNat = c.toNat % 4 := by
  revert c
  decide

/-- R60: the bytes of a group are put together again from its four codes. -/
theorem group_bytes (b0 b1 b2 : Byte) :
    b0.extractLsb' 2 6 ++ (b0.extractLsb' 0 2 ++ b1.extractLsb' 4 4).extractLsb' 4 2 = b0 ∧
    (b0.extractLsb' 0 2 ++ b1.extractLsb' 4 4).extractLsb' 0 4 ++
      (b1.extractLsb' 0 4 ++ b2.extractLsb' 6 2).extractLsb' 2 4 = b1 ∧
    (b1.extractLsb' 0 4 ++ b2.extractLsb' 6 2).extractLsb' 0 2 ++ b2.extractLsb' 0 6 = b2 := by
  have hb0 := b0.isLt
  have hb1 := b1.isLt
  have hb2 := b2.isLt
  refine ⟨?_, ?_, ?_⟩ <;> apply BitVec.eq_of_toNat_eq
  all_goals
    simp only [append_toNat, slice_toNat]
    omega

/-- R62: the same for a partial group of two bytes. -/
theorem partialGroup_two_bytes (b0 b1 : Byte) :
    (0#2 ++ b0.extractLsb' 4 4).extractLsb' 0 4 ++ (b0.extractLsb' 0 4 ++ b1.extractLsb' 6 2).extractLsb' 2 4 = b0 ∧
    (b0.extractLsb' 0 4 ++ b1.extractLsb' 6 2).extractLsb' 0 2 ++ b1.extractLsb' 0 6 = b1 := by
  have hb0 := b0.isLt
  have hb1 := b1.isLt
  refine ⟨?_, ?_⟩ <;> apply BitVec.eq_of_toNat_eq
  all_goals
    simp only [append_toNat, slice_toNat, BitVec.toNat_ofNat]
    omega

/-- R61: the same for a partial group of one byte. -/
theorem partialGroup_one_byte (b0 : Byte) : (0#4 ++ b0.extractLsb' 6 2).extractLsb' 0 2 ++ b0.extractLsb' 0 6 = b0 := by
  have hb := b0.isLt
  apply BitVec.eq_of_toNat_eq
  simp only [append_toNat, slice_toNat, BitVec.toNat_ofNat]
  omega

/-- R103, first half, on sequences. -/
theorem decodeCodes_encodeBytes (bs : List Byte) : decodeCodes (sourceCodes (encodeBytes bs)) = bs := by
  induction bs using encodeBytes.induct with
  | case1 => rfl
  | case2 b0 => simpa [encodeBytes, sourceCodes, codeOf_fwd, decodeCodes] using partialGroup_one_byte b0
  | case3 b0 b1 => simpa [encodeBytes, sourceCodes, codeOf_fwd, decodeCodes] using partialGroup_two_bytes b0 b1
  | case4 b0 b1 b2 rest ih =>
    obtain ⟨h0, h1, h2⟩ := group_bytes b0 b1 b2
    simp [encodeBytes, sourceCodes, codeOf_fwd, decodeCodes, h0, h1, h2] at ih ⊢
    exact ih

/-- R60: the codes of a group are put together again from its three bytes. -/
theorem group_codes (c0 c1 c2 c3 : Code) :
    (c0 ++ c1.extractLsb' 4 2).extractLsb' 2 6 = c0 ∧
    (c0 ++ c1.extractLsb' 4 2).extractLsb' 0 2 ++ (c1.extractLsb' 0 4 ++ c2.extractLsb' 2 4).extractLsb' 4 4 = c1 ∧
    (c1.extractLsb' 0 4 ++ c2.extractLsb' 2 4).extractLsb' 0 4 ++ (c2.extractLsb' 0 2 ++ c3).extractLsb' 6 2 = c2 ∧
    (c2.extractLsb' 0 2 ++ c3).extractLsb' 0 6 = c3 := by
  have hc0 := c0.isLt
  have hc1 := c1.isLt
  have hc2 := c2.isLt
  have hc3 := c3.isLt
  refine ⟨?_, ?_, ?_, ?_⟩ <;> apply BitVec.eq_of_toNat_eq
  all_goals
    simp only [append_toNat, slice_toNat]
    omega

/-- R62, R63: the same for a partial group of three codes, with the padding bits of the first one cleared. -/
theorem partialGroup_three_codes (c0 c1 c2 : Code) :
    0#2 ++ (c0.extractLsb' 0 4 ++ c1.extractLsb' 2 4).extractLsb' 4 4 = c0 &&& 0b001111 ∧
    (c0.extractLsb' 0 4 ++ c1.extractLsb' 2 4).extractLsb' 0 4 ++ (c1.extractLsb' 0 2 ++ c2).extractLsb' 6 2 = c1 ∧
    (c1.extractLsb' 0 2 ++ c2).extractLsb' 0 6 = c2 := by
  have hc0 := c0.isLt
  have hpad := clearPadding_toNat c0
  have hc1 := c1.isLt
  have hc2 := c2.isLt
  refine ⟨?_, ?_, ?_⟩ <;> apply BitVec.eq_of_toNat_eq
  all_goals
    simp only [append_toNat, slice_toNat, BitVec.toNat_ofNat]
    omega

/-- R61, R63: the same for a partial group of two codes. -/
theorem partialGroup_two_codes (c0 c1 : Code) :
    0#4 ++ (c0.extractLsb' 0 2 ++ c1).extractLsb' 6 2 = c0 &&& 0b000011 ∧
    (c0.extractLsb' 0 2 ++ c1).extractLsb' 0 6 = c1 := by
  have hc0 := c0.isLt
  have hpad := clearPadding_toNat c0
  have hc1 := c1.isLt
  refine ⟨?_, ?_⟩ <;> apply BitVec.eq_of_toNat_eq
  all_goals
    simp only [append_toNat, slice_toNat, BitVec.toNat_ofNat]
    omega

/-- R103, second half, with R63, on sequences. -/
theorem encodeBytes_decodeCodes {cs : List Code} (h : cs.length % 4 ≠ 1) :
    encodeBytes (decodeCodes cs) = (clearPadding cs).map fwd := by
  induction cs using decodeCodes.induct with
  | case1 => rfl
  | case2 => simp at h
  | case3 c0 c1 =>
    obtain ⟨h0, h1⟩ := partialGroup_two_codes c0 c1
    simp [decodeCodes, encodeBytes, clearPadding, h0, h1]
  | case4 c0 c1 c2 =>
    obtain ⟨h0, h1, h2⟩ := partialGroup_three_codes c0 c1 c2
    simp [decodeCodes, encodeBytes, clearPadding, h0, h1, h2]
  | case5 c0 c1 c2 c3 rest ih =>
    obtain ⟨h0, h1, h2, h3⟩ := group_codes c0 c1 c2 c3
    have hrest : rest.length % 4 ≠ 1 := by simp at h; omega
    simp [decodeCodes, encodeBytes, clearPadding, h0, h1, h2, h3, ih hrest]

/-! ## Texts of symbols only -/

theorem all_isText_map_fwd (cs : List Code) : (cs.map fwd).all isText = true := by
  simp [List.all_map, isText, rev_fwd]

/-- A text of symbols is that of its codes. -/
theorem map_fwd_sourceCodes {bs : List Byte} (h : (bs.all fun b => (codeOf b).isSome) = true) :
    (sourceCodes bs).map fwd = bs := by
  induction bs with
  | nil => rfl
  | cons b bs ih =>
    rw [List.all_cons, Bool.and_eq_true] at h
    obtain ⟨c, hc⟩ := Option.isSome_iff_exists.mp h.1
    have hb : fwd c = b := fwd_of_rev_eq_code ((codeOf_eq_some_iff b c).mp hc)
    simpa [sourceCodes, hc, hb] using ih h.2

theorem encodeBytes_eq_map_fwd (bs : List Byte) : ∃ cs : List Code, encodeBytes bs = cs.map fwd := by
  induction bs using encodeBytes.induct with
  | case1 => exact ⟨[], rfl⟩
  | case2 b0 => exact ⟨[_, _], rfl⟩
  | case3 b0 b1 => exact ⟨[_, _, _], rfl⟩
  | case4 b0 b1 b2 rest ih =>
    obtain ⟨cs, hcs⟩ := ih
    exact ⟨_ :: _ :: _ :: _ :: cs, by rw [encodeBytes, hcs]; rfl⟩

/-- R65: an encoding has no lone symbol. -/
theorem encodeBytes_length_not_lone (bs : List Byte) : (encodeBytes bs).length % 4 ≠ 1 := by
  rw [encodeBytes_length, partialSymbols_eq (Nat.mod_lt _ (by decide))]
  split_ifs <;> omega

theorem clearPadding_length (cs : List Code) : (clearPadding cs).length = cs.length := by
  induction cs using clearPadding.induct with
  | case5 c0 c1 c2 c3 rest ih => simp [clearPadding, ih]
  | _ => rfl

end Sys2Proof.Machine
end

section
/-! PROOFS. The round trips of the commands (R103, R120). -/

namespace Sys2Proof.Machine

/-- R38: what was written is the source span of a command that is pointed at it. -/
theorem Completes.srcBytes {s t u : State} {o : Int} {srcOut dstOut : Nat} {out : List Byte}
    (h : Completes s t o srcOut dstOut out) (hmem : u.mem = t.mem) (hptr : u.srcPtr = s.dstPtr)
    (hcount : u.srcCount = dstOut) :
    u.srcBytes = out := by
  rw [← h.written.2, ← hcount, ← hptr, ← hmem]
  rfl

/-- R103: `dec.f` over an encoding, with room for the bytes it is the encoding of. -/
theorem exec_decFinal_encoding {s : State} (hready : Ready s) {bs : List Byte} (hsrc : s.srcBytes = encodeBytes bs)
    (hroom : bs.length ≤ s.dstCount) :
    ∃ t, exec (.dec true) s = .next t ∧ Completes s t bs.length s.srcCount bs.length bs := by
  obtain ⟨cs, hcs⟩ := encodeBytes_eq_map_fwd bs
  have hcodes : sourceCodes s.srcBytes = cs := by rw [hsrc, hcs, sourceCodes_map_fwd]
  have hlone : cs.length % 4 ≠ 1 := by simpa [hcs] using encodeBytes_length_not_lone bs
  have hdecoded : decodeCodes cs = bs := by rw [← hcodes, hsrc, decodeCodes_encodeBytes]
  have hdec := exec_decFinal hready (by rw [hsrc, hcs, all_isText_map_fwd])
  rw [hcodes, hdecoded] at hdec
  exact hdec hlone hroom

/-- R88: a successful `enc.f` had room for the whole encoding, and wrote it. -/
theorem exec_encFinal_success {s t : State} (hready : Ready s) (h : exec (.enc true) s = .next t)
    (hsuccess : 0 ≤ t.result.toInt) : Completes s t (encodeBytes s.srcBytes).length s.srcCount
      (encodeBytes s.srcBytes).length (encodeBytes s.srcBytes) := by
  rcases Nat.lt_or_ge s.dstCount (encodeBytes s.srcBytes).length with hover | hroom
  · obtain ⟨t', hexec, hresult⟩ := exec_encFinal_noRoom hready hover
    obtain rfl := Host.Outcome.next.inj (h.symm.trans hexec)
    omega
  · obtain ⟨t', hexec, hdone⟩ := exec_encFinal hready hroom
    obtain rfl := Host.Outcome.next.inj (h.symm.trans hexec)
    exact hdone

/-- R101: the text of a successful `dec.f` has no lone symbol, and its whole decoding was written. -/
theorem exec_decFinal_success {s t : State} (hready : Ready s) (htext : s.srcBytes.all isText = true)
    (h : exec (.dec true) s = .next t) (hsuccess : 0 ≤ t.result.toInt) :
    (sourceCodes s.srcBytes).length % 4 ≠ 1 ∧ Completes s t (decodeCodes (sourceCodes s.srcBytes)).length s.srcCount
      (decodeCodes (sourceCodes s.srcBytes)).length (decodeCodes (sourceCodes s.srcBytes)) := by
  by_cases herror : (sourceCodes s.srcBytes).length % 4 = 1 ∨ s.dstCount < (decodeCodes (sourceCodes s.srcBytes)).length
  · obtain ⟨t', hexec, hresult⟩ := exec_decFinal_error hready htext herror
    obtain rfl := Host.Outcome.next.inj (h.symm.trans hexec)
    omega
  · obtain ⟨hlone, hroom⟩ := not_or.mp herror
    obtain ⟨t', hexec, hdone⟩ := exec_decFinal hready htext hlone (Nat.not_lt.mp hroom)
    obtain rfl := Host.Outcome.next.inj (h.symm.trans hexec)
    exact ⟨hlone, hdone⟩

/-- Settles O19: the encoder succeeded, so it had room, and what it wrote is the encoding. -/
theorem decodeOfEncode : Obligations.DecodeOfEncode := by
  intro s t p l hready hexec hsuccess hready' hl
  have hdone := exec_encFinal_success hready hexec hsuccess
  have hsrc := hdone.srcBytes (u := { t with srcPtr := s.dstPtr, srcLen := t.result, dstPtr := p, dstLen := l }) rfl rfl
    (congrArg Int.toNat hdone.result)
  rw [hready.srcLen_eq] at hl ⊢
  obtain ⟨v, hv, hback⟩ := exec_decFinal_encoding hready' hsrc
    (by rw [State.srcBytes_length]; exact (Int.le_toNat hready'.dst.1).mpr hl)
  rw [State.srcBytes_length] at hback
  exact ⟨v, hv, hback.result, hback.written.2⟩

/-- Settles O20: the decoder succeeded, so the text has no lone symbol, and the encoding of what it wrote is the text with
the padding bits cleared. -/
theorem encodeOfDecode : Obligations.EncodeOfDecode := by
  intro s t p l hready hsymbols hexec hsuccess hready' hl
  have hmap := map_fwd_sourceCodes hsymbols
  have htext : s.srcBytes.all isText = true := hmap ▸ all_isText_map_fwd _
  have hlen : (sourceCodes s.srcBytes).length = s.srcCount := by
    rw [← List.length_map (f := fwd), hmap, State.srcBytes_length]
  obtain ⟨hlone, hdone⟩ := exec_decFinal_success hready htext hexec hsuccess
  have hsrc := hdone.srcBytes (u := { t with srcPtr := s.dstPtr, srcLen := t.result, dstPtr := p, dstLen := l }) rfl rfl
    (congrArg Int.toNat hdone.result)
  have henc := exec_encFinal hready'
  rw [hsrc, encodeBytes_decodeCodes hlone, List.length_map, clearPadding_length, hlen] at henc
  rw [hready.srcLen_eq] at hl ⊢
  obtain ⟨v, hv, hback⟩ := henc ((Int.le_toNat hready'.dst.1).mpr hl)
  exact ⟨v, hv, hback.result, hback.written.2⟩

/-- R109: a successful VWR had room for the length field of `VALUE`, and wrote it. -/
theorem exec_vwr_success {s t : State} (hwf : s.Wf) (hidle : s.busy = false) (hdst : DstFits s)
    (h : exec .vwr s = .next t) (hsuccess : 0 ≤ t.result.toInt) :
    Completes s t (chunks s.value.toNat) 0 (chunks s.value.toNat) ((lengthField s.value).map fwd) := by
  obtain ⟨t', hexec, -, hfits, hover⟩ := exec_vwr_field hwf hidle hdst
  obtain rfl := Host.Outcome.next.inj (h.symm.trans hexec)
  refine hfits (Nat.not_lt.mp fun hlt => ?_)
  have hresult := (hover hlt).result
  omega

/-- R112: VRD over a length field and whatever follows it. -/
theorem exec_vrd_lengthField {s : State} (hwf : s.Wf) (hidle : s.busy = false) (hsrc : SrcFits s) {v : Value}
    {rest : List Byte} (hbytes : s.srcBytes = (lengthField v).map fwd ++ rest) :
    ∃ t, exec .vrd s = .next t ∧ t.value = v ∧ Completes s t (chunks v.toNat) (chunks v.toNat) 0 [] := by
  have hvalue := varintValue_lengthField v
  obtain ⟨t, hexec, hread, hdone⟩ := vrdReadsLengthField s (lengthField v) rest hwf hidle hsrc hbytes
    (isVarint_lengthField v) (by rw [hvalue]; exact v.isLt)
  rw [lengthField_length] at hdone
  exact ⟨t, hexec, BitVec.eq_of_toNat_eq (hread.trans hvalue), hdone⟩

/-- Settles O26: the source of the VRD begins with the field that the VWR wrote. -/
theorem varintRoundTrip : Obligations.VarintRoundTrip := by
  intro s t l hwf hidle hdst hexec hsuccess hl hsrc
  have hdone := exec_vwr_success hwf hidle hdst hexec hsuccess
  have ht : t.Wf := exec_keeps_wf hwf hexec
  have hcfg : t.cfg = s.cfg := hdone.rest.1
  obtain ⟨k, hk⟩ : ∃ k, l.toInt.toNat = chunks s.value.toNat + k := by
    refine Nat.exists_eq_add_of_le ?_
    rw [hdone.result] at hl
    omega
  obtain ⟨u, hu, hvalue, hback⟩ := exec_vrd_lengthField (v := s.value)
    (s := { t with srcPtr := s.dstPtr, srcLen := l, value := 0 })
    (rest := readSpan t.mem (s.dstPtr.toNat + chunks s.value.toNat) k)
    (.of_idle ht.cfgOk (hcfg ▸ hwf.dstOk) ht.dstOk ht.memOk ht.memBelow hdone.busy) hdone.busy hsrc
    (by rw [State.srcBytes, hk, readSpan_add, hdone.written.2])
  exact ⟨u, hu, hvalue, BitVec.eq_of_toInt_eq (hback.result.trans hdone.result.symm)⟩

end Sys2Proof.Machine
end

section
/-! PROOFS. The host's lines (R67, R68): what the pointing lines set, and what `run` leaves and returns. -/

namespace Sys2Proof.Machine

/-! ## Lines -/

theorem truncAddr_of_lt {c : Config} {p : Word} (hp : p.toNat < c.space) : truncAddr c p = p := by
  simpa using truncAddr_add_zero hp

/-- `VALUE` is its two halves. -/
theorem valueHalves_append (v : Value) : v.extractLsb' 32 32 ++ v.extractLsb' 0 32 = v := by
  have hv := v.isLt
  apply BitVec.eq_of_toNat_eq
  simp only [append_toNat, slice_toNat]
  omega

theorem writeReg_valueHalves (s : State) (v : Value) :
    (s.writeReg .valueLo (v.extractLsb' 0 32)).writeReg .valueHi (v.extractLsb' 32 32) = { s with value := v } := by
  have hv : v.extractLsb' 32 32 ++ (s.value.extractLsb' 32 32 ++ v.extractLsb' 0 32).extractLsb' 0 32 = v := by
    have hlt := v.isLt
    apply BitVec.eq_of_toNat_eq
    simp only [append_toNat, slice_toNat]
    omega
  simp only [State.writeReg, hv]

section
variable {s : State} (hidle : s.busy = false)
include hidle

theorem playLines_wr_wr {r r' : Reg} (w w' : Word) (hr : r ≠ .cmd) (hr' : r' ≠ .cmd) :
    playLines [.wr r w, .wr r' w'] s = .next ((s.writeReg r w).writeReg r' w') := by
  rw [playLines_cons (takeTurn_wr w hidle hr), playLines_cons (takeTurn_wr w' (s.writeReg_busy w r ▸ hidle) hr'),
    playLines_nil]

theorem playLines_src {p : Word} (n : Word) (hp : p.toNat < s.cfg.space) :
    playLines (srcLines p n) s = .next { s with srcPtr := p, srcLen := n } := by
  rw [srcLines, playLines_wr_wr (r := .srcPtr) (r' := .srcLen) hidle _ _ nofun nofun]
  simp only [State.writeReg, truncAddr_of_lt hp]

theorem playLines_dst {p : Word} (n : Word) (hp : p.toNat < s.cfg.space) :
    playLines (dstLines p n) s = .next { s with dstPtr := p, dstLen := n } := by
  rw [dstLines, playLines_wr_wr (r := .dstPtr) (r' := .dstLen) hidle _ _ nofun nofun]
  simp only [State.writeReg, truncAddr_of_lt hp]

theorem playLines_val (v : Value) : playLines (valLines v) s = .next { s with value := v } := by
  rw [valLines, playLines_wr_wr (r := .valueLo) (r' := .valueHi) hidle _ _ nofun nofun, writeReg_valueHalves]

theorem playThen_rd (r : Reg) (next : State → Word → HostResult) :
    playThen [.rd r] s next = next (s.observeReg r.offset (s.readReg r)) (s.readReg r) :=
  playThen_next ((playLines_cons (takeTurn_rd r hidle)).trans (playLines_nil _)) next

end

/-- What the host has observed after `run`: the block idle, and the command's `RESULT` (R68). -/
def State.reported (t : State) : State :=
  (t.observeReg Reg.status.offset 0).observeReg Reg.result.offset t.result

theorem playLines_run {i : Instr} {s t : State} (hidle : s.busy = false)
    (h : exec i { s with cmd := encode i } = .next t) : playLines (runLines i) s = .next t.reported := by
  have ht : t.busy = false := exec_idle h
  have hcmd : takeTurn (HostLine.cmd i).turn s = .next t :=
    (takeTurn_regWrite_command hidle (decode_encode i)).trans h
  rw [runLines, playLines_cons hcmd, playLines_cons (takeTurn_wait ht),
    playLines_cons (takeTurn_rd .result ((t.observeReg_busy _ _).trans ht)), playLines_nil]
  rfl

/-- `run` after other lines, and what the host does with `RESULT`. -/
theorem playThen_run {ls : List HostLine} {i : Instr} {s a t : State} (hls : playLines ls s = .next a)
    (hidle : a.busy = false) (h : exec i { a with cmd := encode i } = .next t) (next : State → Word → HostResult) :
    playThen (ls ++ runLines i) s next = next t.reported t.result := by
  rw [playThen_next ((playLines_append hls).trans (playLines_run hidle h)) next]
  rfl

/-- What the host has observed after `rd VALUE_LO` and `rd VALUE_HI`. -/
def State.valueRead (t : State) : State :=
  (t.observeReg Reg.valueLo.offset (t.readReg .valueLo)).observeReg Reg.valueHi.offset (t.readReg .valueHi)

/-- R20: the two reads give `VALUE`. -/
theorem playThen_rd_value {t : State} (hidle : t.busy = false) (next : State → Value → HostResult) :
    (playThen [.rd .valueLo] t fun u lo => playThen [.rd .valueHi] u fun v hi => next v (hi ++ lo)) =
      next t.valueRead t.value := by
  have hvalue : (t.observeReg Reg.valueLo.offset (t.readReg .valueLo)).readReg .valueHi ++ t.readReg .valueLo = t.value :=
    valueHalves_append t.value
  rw [playThen_rd hidle, playThen_rd ((t.observeReg_busy _ _).trans hidle), hvalue]
  rfl

/-- The machine on which the command of a sequence starts (R131, R132): VRD and ENC with a source span, VWR with `VALUE` and
a destination span, DEC with a destination span. -/
def State.atVrd (s : State) (p n : Word) : State := { s with srcPtr := p, srcLen := n, cmd := encode .vrd }

def State.atEnc (s : State) (p n : Word) : State := { s with srcPtr := p, srcLen := n, cmd := encode (.enc true) }

def State.atVwr (s : State) (v : Value) (p n : Word) : State :=
  { s with value := v, dstPtr := p, dstLen := n, cmd := encode .vwr }

def State.atDec (s : State) (p n : Word) : State := { s with dstPtr := p, dstLen := n, cmd := encode (.dec true) }

section
variable {s t : State} (hidle : s.busy = false) {p : Word} (hp : p.toNat < s.cfg.space) {n : Word}
include hidle hp

theorem playThen_vrd (h : exec .vrd (s.atVrd p n) = .next t) (next : State → Word → HostResult) :
    playThen (srcLines p n ++ runLines .vrd) s next = next t.reported t.result :=
  playThen_run (playLines_src hidle n hp) hidle h next

theorem playThen_enc (h : exec (.enc true) (s.atEnc p n) = .next t) (next : State → Word → HostResult) :
    playThen (srcLines p n ++ runLines (.enc true)) s next = next t.reported t.result :=
  playThen_run (playLines_src hidle n hp) hidle h next

theorem playThen_vwr {v : Value} (h : exec .vwr (s.atVwr v p n) = .next t) (next : State → Word → HostResult) :
    playThen (valLines v ++ dstLines p n ++ runLines .vwr) s next = next t.reported t.result := by
  have hls : playLines (valLines v ++ dstLines p n) s = .next { s with value := v, dstPtr := p, dstLen := n } :=
    (playLines_append (playLines_val hidle v)).trans (playLines_dst (s := { s with value := v }) hidle n hp)
  exact playThen_run hls hidle h next

theorem playThen_dec (h : exec (.dec true) (s.atDec p n) = .next t) (next : State → Word → HostResult) :
    playThen (dstLines p n ++ runLines (.dec true)) s next = next t.reported t.result :=
  playThen_run (playLines_dst hidle n hp) hidle h next

end

/-- R18: an idle machine keeps the invariant whatever operands the host gives it. -/
theorem State.Wf.withOperands {s : State} (hwf : s.Wf) (hidle : s.busy = false) {p p' : Word}
    (hp : p.toNat < s.cfg.space) (hp' : p'.toNat < s.cfg.space) (c n n' : Word) (v : Value) (o : List Observation) :
    ({ s with cmd := c, srcPtr := p, srcLen := n, dstPtr := p', dstLen := n', value := v, observed := o } : State).Wf :=
  .of_idle hwf.cfgOk hp hp' hwf.memOk hwf.memBelow hidle

/-! A length below `2^31` is held as it is by `VALUE` and by a length register (R19, R20). -/

theorem ofInt_natCast_value {n : Nat} (h : n < 2 ^ 31) : (BitVec.ofInt 64 n).toNat = n := by
  rw [BitVec.toNat_ofInt]
  omega

theorem ofInt_natCast_toInt {n : Nat} (h : n < 2 ^ 31) : (BitVec.ofInt 32 n).toInt = n := by
  rw [BitVec.toInt_ofInt_eq_self (by decide)] <;> omega

end Sys2Proof.Machine
end

section
/-! PROOFS. `decode_l` and `encode_l` (R131 to R133): the length field read, the checks that follow it, and the round
trip. -/

namespace Sys2Proof.Machine

/-- The machine after `decode_l` has read the length field `cs` from the units at `p`: the source cursor stands before
the units that follow, and nothing else that R132 speaks of has changed. -/
structure FieldRead (s t : State) (p : Nat) (cs : List Code) (rest : List Byte) : Prop where
  wf : t.Wf
  idle : t.busy = false
  cfg : t.cfg = s.cfg
  mem : t.mem = s.mem
  dstPtr : t.dstPtr = s.dstPtr
  dstLen : t.dstLen = s.dstLen
  srcPtr : t.srcPtr.toNat = (p + cs.length) % 2 ^ s.cfg.addrW
  srcLen : t.srcLen.toInt = rest.length

section
variable {s : State} {sp : Word} {sn : Nat} {cs : List Code} {rest : List Byte} (hwf : s.Wf) (hidle : s.busy = false)
  (hsn : sn < 2 ^ 31) (hsp : sp.toNat < 2 ^ s.cfg.addrW) (hspan : sp.toNat + sn ≤ 2 ^ s.cfg.addrW)
  (hbytes : readSpan s.mem sp.toNat sn = cs.map fwd ++ rest) (hfield : isVarint cs = true)
  (hvalue : varintValue cs < 2 ^ 64)
include hwf hidle hsn hsp hspan hbytes hfield hvalue

/-- R132: `decode_l` of a source that begins with a whole length field goes on with its value and the rest. -/
theorem decodeL_of_field (dp : Word) (dn : Int) : ∃ t,
    decodeL sp sn dp dn s = decodeBody (varintValue cs) rest.length dp dn t ∧ FieldRead s t sp.toNat cs rest := by
  have hlen := ofInt_natCast_toInt hsn
  have hcount : sn = cs.length + rest.length := by
    rw [← readSpan_length s.mem sp.toNat sn, hbytes, List.length_append, List.length_map]
  have haWf : (s.atVrd sp (BitVec.ofInt 32 sn)).Wf := hwf.withOperands hidle hsp hwf.dstOk _ _ _ _ _
  have haFits : SrcFits (s.atVrd sp (BitVec.ofInt 32 sn)) := by
    rw [SrcFits, State.atVrd, hlen]
    exact ⟨Int.natCast_nonneg _, hspan⟩
  have haBytes : (s.atVrd sp (BitVec.ofInt 32 sn)).srcBytes = cs.map fwd ++ rest := by
    rw [State.srcBytes, State.atVrd, hlen]
    exact hbytes
  obtain ⟨t, hexec, hread, hdone⟩ := vrdReadsLengthField _ cs rest haWf hidle haFits haBytes hfield hvalue
  obtain ⟨-, -, -, hdstPtr, hdstLen, hmem, -⟩ := vrdFrame _ t haWf hexec
  have htWf : t.Wf := exec_keeps_wf haWf hexec
  have hrest : (sn : Int) - t.result.toInt = rest.length := by
    rw [hdone.result, hcount]
    omega
  have hconsumed : ¬ t.result.toInt < 0 := by
    rw [hdone.result]
    omega
  refine ⟨t.reported.valueRead, ?_, ?_⟩
  · rw [decodeL, playThen_vrd hidle hsp hexec, if_neg hconsumed, hrest,
      playThen_rd_value (t := t.reported) hdone.busy fun v value => decodeBody value.toNat rest.length dp dn v]
    exact congrArg (decodeBody · _ _ _ _) hread
  · exact {
      wf := htWf.environment htWf.memOk htWf.memBelow _ _ _
      idle := hdone.busy
      cfg := hdone.rest.1
      mem := hmem
      dstPtr := hdstPtr
      dstLen := hdstLen
      srcPtr := hdone.srcPtr
      srcLen := by
        have hleft := hdone.srcLen
        rw [State.atVrd, hlen] at hleft
        exact hleft.trans (by omega) }

end

/-- Settles O57: the two checks follow the field, in R132's order. -/
theorem decodeLengthChecks : Obligations.DecodeLengthChecks := by
  intro s sp dp sn dn cs rest hwf hidle hsn hsp hspan hbytes hfield hvalue
  obtain ⟨t, hgoesOn, ht⟩ := decodeL_of_field hwf hidle hsn hsp hspan hbytes hfield hvalue dp dn
  rw [hgoesOn, decodeBody]
  refine ⟨fun hshort => ⟨t, ?_, ht.mem, ht.dstPtr, ht.dstLen⟩, fun hrest hroom => ⟨t, ?_, ht.mem, ht.dstPtr, ht.dstLen⟩⟩
  · rw [if_pos hshort]
    rfl
  · rw [if_neg (Int.not_lt.mpr hrest), if_pos hroom]
    rfl

/-! ## The round trip -/

/-- R58: a command that goes on at the destination cursor another one left writes after it. -/
theorem Completes.readSpan_after {s t a u : State} {o o' : Int} {k k' d d' n : Nat} {out out' : List Byte}
    (h : Completes s t o k d out) (h' : Completes a u o' k' d' out') (hmem : a.mem = t.mem) (hptr : a.dstPtr = t.dstPtr)
    (hspan : s.dstPtr.toNat + n ≤ 2 ^ s.cfg.addrW) (hd : d + d' ≤ n) :
    readSpan u.mem s.dstPtr.toNat (d + d') = out ++ out' := by
  have hcursor := h.dstPtr
  rcases Nat.eq_zero_or_pos d' with rfl | hpos
  · obtain rfl : out' = [] := List.eq_nil_of_length_eq_zero h'.written.1
    rw [Nat.add_zero, List.append_nil, ← h.written.2]
    exact readSpan_congr fun x _ _ => (h'.others x (by omega)).trans (hmem ▸ rfl)
  · rw [(cursor_inside (Nat.two_pow_pos _) hspan (by omega)).1 (by omega), ← hptr] at hcursor
    have hsecond := h'.written.2
    rw [hcursor] at hsecond
    rw [readSpan_add, hsecond, ← h.written.2]
    congr 1
    exact readSpan_congr fun x _ hx => (h'.others x (by omega)).trans (hmem ▸ rfl)

/-- A span that begins at a cursor that has moved: where the move wraps, nothing is left to read. -/
theorem readSpan_cursor (m : Memory) {p n c d M : Nat} (hM : 0 < M) (h : p + n ≤ M) (hd : c + d ≤ n) :
    readSpan m ((p + c) % M) d = readSpan m (p + c) d := by
  rcases Nat.eq_zero_or_pos d with rfl | hpos
  · rfl
  · rw [(cursor_inside hM h (by omega)).1 (by omega)]

/-- R131: the length `encode_l` returns counts the field and the encoding. -/
theorem encodedLength_true_eq (bs : List Byte) :
    encodedLength bs.length true = (chunks bs.length + (encodeBytes bs).length : Nat) := by
  have hfalse := encodedLength_eq_length bs
  have hpos : ¬ ((bs.length : Int) < 0) := by omega
  rw [encodedLength, if_neg hpos] at hfalse ⊢
  push_cast at hfalse ⊢
  simp only [if_true, Int.toNat_natCast] at hfalse ⊢
  omega

section
variable {s : State} {sp dp : Word} {dn : Nat} {bs : List Byte}
  (hsn : bs.length < 2 ^ 31) (hdn : dn < 2 ^ 31) (hsp : sp.toNat < 2 ^ s.cfg.addrW)
  (hsrc : sp.toNat + bs.length ≤ 2 ^ s.cfg.addrW) (hdst : dp.toNat + dn ≤ 2 ^ s.cfg.addrW)
  (hapart : sp.toNat + bs.length ≤ dp.toNat ∨ dp.toNat + dn ≤ sp.toNat)
  (hbytes : readSpan s.mem sp.toNat bs.length = bs)
include hsn hdn hsp hsrc hdst hapart hbytes

/-- R131: what is left for ENC after VWR has written `c` bytes: all of the source, and the rest of the destination. -/
theorem Ready.atEnc_of_vwr {v : Value} {t : State} {o : Int} {c : Nat} {out : List Byte} (hc : c ≤ dn)
    (h : Completes (s.atVwr v dp (BitVec.ofInt 32 dn)) t o 0 c out) (ht : t.Wf) :
    Ready (t.reported.atEnc sp (BitVec.ofInt 32 bs.length)) ∧
      (t.reported.atEnc sp (BitVec.ofInt 32 bs.length)).srcBytes = bs ∧
      (t.reported.atEnc sp (BitVec.ofInt 32 bs.length)).dstCount = dn - c := by
  have hcfg : t.cfg = s.cfg := h.rest.1
  have hlen := ofInt_natCast_toInt hsn
  have hptr : t.dstPtr.toNat = (dp.toNat + c) % 2 ^ s.cfg.addrW := h.dstPtr
  have hleft : t.dstLen.toInt = dn - c := h.dstLen.trans (congrArg (· - (c : Int)) (ofInt_natCast_toInt hdn))
  obtain ⟨hstays, htop⟩ := cursor_inside (Nat.two_pow_pos _) hdst hc
  refine ⟨⟨?wf, h.busy, ?src, ?dst, ?apart⟩, ?bytes, ?room⟩
  case wf => exact ht.withOperands h.busy (hcfg ▸ hsp) ht.dstOk _ _ _ _ _
  case src =>
    change 0 ≤ (BitVec.ofInt 32 bs.length).toInt ∧
      sp.toNat + (BitVec.ofInt 32 bs.length).toInt.toNat ≤ 2 ^ t.cfg.addrW
    rw [hlen, hcfg]
    omega
  case dst =>
    change 0 ≤ t.dstLen.toInt ∧ t.dstPtr.toNat + t.dstLen.toInt.toNat ≤ 2 ^ t.cfg.addrW
    rw [hleft, hptr, hcfg]
    omega
  case apart =>
    change (BitVec.ofInt 32 bs.length).toInt = 0 ∨ t.dstLen.toInt = 0 ∨
      sp.toNat + (BitVec.ofInt 32 bs.length).toInt.toNat ≤ t.dstPtr.toNat ∨
      t.dstPtr.toNat + t.dstLen.toInt.toNat ≤ sp.toNat
    rw [hlen, hleft, hptr]
    omega
  case bytes =>
    change readSpan t.mem sp.toNat (BitVec.ofInt 32 bs.length).toInt.toNat = bs
    rw [hlen, Int.toNat_natCast]
    refine (readSpan_congr fun x _ _ => h.others x ?_).trans hbytes
    change x < dp.toNat ∨ dp.toNat + c ≤ x
    omega
  case room =>
    change t.dstLen.toInt.toNat = dn - c
    rw [hleft]
    omega

/-- R131: `encode_l` with room for all of it writes the length field and then the encoding. -/
theorem encodeL_of_room (hwf : s.Wf) (hidle : s.busy = false) (hdp : dp.toNat < 2 ^ s.cfg.addrW)
    (hroom : chunks bs.length + (encodeBytes bs).length ≤ dn) : ∃ t,
    encodeL sp bs.length dp dn s = .next (t, encodedLength bs.length true) ∧ t.Wf ∧ t.busy = false ∧ t.cfg = s.cfg ∧
      readSpan t.mem dp.toNat (chunks bs.length + (encodeBytes bs).length) =
        (lengthField (BitVec.ofInt 64 bs.length)).map fwd ++ encodeBytes bs := by
  have hdstLen := ofInt_natCast_toInt hdn
  have hvalue := ofInt_natCast_value hsn
  -- the length field
  have hvwrWf : (s.atVwr (BitVec.ofInt 64 bs.length) dp (BitVec.ofInt 32 dn)).Wf :=
    hwf.withOperands hidle hwf.srcOk hdp _ _ _ _ _
  have hvwrFits : DstFits (s.atVwr (BitVec.ofInt 64 bs.length) dp (BitVec.ofInt 32 dn)) := by
    rw [DstFits, State.atVwr, hdstLen]
    exact ⟨Int.natCast_nonneg _, hdst⟩
  obtain ⟨t, hvwr, -, hfits, -⟩ := exec_vwr_field hvwrWf hidle hvwrFits
  have hvwrCount : (s.atVwr (BitVec.ofInt 64 bs.length) dp (BitVec.ofInt 32 dn)).dstCount = dn :=
    congrArg Int.toNat hdstLen
  have hvwrValue : (s.atVwr (BitVec.ofInt 64 bs.length) dp (BitVec.ofInt 32 dn)).value = BitVec.ofInt 64 bs.length := rfl
  rw [hvwrCount, hvwrValue, hvalue] at hfits
  have hfield := hfits (by omega)
  -- the encoding
  obtain ⟨hready, hsource, hcount⟩ := Ready.atEnc_of_vwr hsn hdn hsp hsrc hdst hapart hbytes (by omega) hfield
    (exec_keeps_wf hvwrWf hvwr)
  obtain ⟨u, henc, hdone⟩ := exec_encFinal hready (by rw [hsource, hcount]; omega)
  rw [hsource] at hdone
  have huWf : u.Wf := exec_keeps_wf hready.wf henc
  have hwritten := hfield.readSpan_after hdone rfl rfl hdst hroom
  have hcfg : t.cfg = s.cfg := hfield.rest.1
  refine ⟨u.reported, ?_, huWf.environment huWf.memOk huWf.memBelow _ _ _, hdone.busy, hdone.rest.1.trans hcfg,
    hwritten⟩
  rw [encodeL, playThen_vwr hidle hdp hvwr, hfield.result, if_neg (Int.not_lt.mpr (Int.natCast_nonneg _)),
    playThen_enc (s := t.reported) hfield.busy (hcfg ▸ hsp) henc, hdone.result,
    if_neg (Int.not_lt.mpr (Int.natCast_nonneg _)), encodedLength_true_eq, Nat.cast_add]

end

section
variable {t : State} {rp : Word} {rn : Nat} {bs : List Byte} (hwf : t.Wf) (hidle : t.busy = false)
  (hrp : rp.toNat < 2 ^ t.cfg.addrW) (hsn : bs.length < 2 ^ 31) (hsrc : SrcFits t)
  (hdst : rp.toNat + bs.length ≤ 2 ^ t.cfg.addrW) (hrn : bs.length ≤ rn) (hbytes : t.srcBytes = encodeBytes bs)
  (hapart : t.srcCount = 0 ∨ t.srcPtr.toNat + t.srcCount ≤ rp.toNat ∨ rp.toNat + bs.length ≤ t.srcPtr.toNat)
include hwf hidle hrp hsn hsrc hdst hrn hbytes hapart

/-- R132: the part of `decode_l` after the field, over an encoding of the declared length and with room for it. -/
theorem decodeBody_of_encoding : ∃ u, decodeBody bs.length (encodeBytes bs).length rp rn t = .next (u, (bs.length : Int)) ∧
    readSpan u.mem rp.toNat bs.length = bs := by
  have hlen : (BitVec.ofNat 32 bs.length).toInt = bs.length := by
    rw [← BitVec.ofInt_natCast]
    exact ofInt_natCast_toInt hsn
  have hready : Ready (t.atDec rp (BitVec.ofNat 32 bs.length)) := by
    refine ⟨hwf.withOperands hidle hwf.srcOk hrp _ _ _ _ _, hidle, hsrc, ?dst, ?apart⟩
    case dst =>
      rw [DstFits, State.atDec, hlen]
      exact ⟨Int.natCast_nonneg _, hdst⟩
    case apart =>
      rw [SpansDisjoint, State.atDec, hlen]
      change t.srcLen.toInt.toNat = 0 ∨ t.srcPtr.toNat + t.srcLen.toInt.toNat ≤ _ ∨ _ at hapart
      have hpos := hsrc.1
      change t.srcLen.toInt = 0 ∨ _ ∨ t.srcPtr.toNat + t.srcLen.toInt.toNat ≤ rp.toNat ∨
        rp.toNat + bs.length ≤ t.srcPtr.toNat
      omega
  have hroom : bs.length ≤ (t.atDec rp (BitVec.ofNat 32 bs.length)).dstCount := by
    rw [State.dstCount, State.atDec, hlen, Int.toNat_natCast]
  obtain ⟨u, hdec, hdone⟩ := exec_decFinal_encoding hready hbytes hroom
  refine ⟨u.reported, ?_, hdone.written.2⟩
  rw [decodeBody, encodedLength_eq_length, if_neg (Int.lt_irrefl _), if_neg (by omega), playThen_dec hidle hrp hdec,
    hdone.result, if_neg (Int.not_lt.mpr (Int.natCast_nonneg _)), if_neg (Int.lt_irrefl _)]

end

/-- Settles O56: `encode_l` leaves the field and the encoding, `decode_l` reads the field and decodes the rest. -/
theorem lengthPrefixedRoundTrip : Obligations.LengthPrefixedRoundTrip := by
  intro s sp dp rp sn dn rn hwf hidle hsn hdn hrn hsp hdp hrp hsrc hdst hback hapart hapart' hroom hfits
  obtain ⟨bs, hbs⟩ : ∃ bs, bs = readSpan s.mem sp.toNat sn := ⟨_, rfl⟩
  obtain rfl : bs.length = sn := by rw [hbs, readSpan_length]
  rw [encodedLength_true_eq, Int.ofNat_le] at hroom
  obtain ⟨t, henc, ht, htIdle, htCfg, hwritten⟩ :=
    encodeL_of_room hsn hdn hsp hsrc hdst hapart hbs.symm hwf hidle hdp hroom
  have hvalue := ofInt_natCast_value hsn
  have hdeclared := (varintValue_lengthField (BitVec.ofInt 64 bs.length)).trans hvalue
  have hfieldLen := (lengthField_length (BitVec.ofInt 64 bs.length)).trans (congrArg chunks hvalue)
  rw [← htCfg] at hdp hrp hdst hback
  obtain ⟨v, hgoesOn, hv⟩ := decodeL_of_field ht htIdle (by omega) hdp (by omega) hwritten (isVarint_lengthField _)
    (by omega) rp rn
  rw [hdeclared] at hgoesOn
  -- what follows the field is the encoding
  have hcount : v.srcCount = (encodeBytes bs).length := congrArg Int.toNat hv.srcLen
  have hptr := hv.srcPtr
  rw [hfieldLen] at hptr
  have hbody : v.srcBytes = encodeBytes bs := by
    have hbody := readSpan_drop t.mem dp.toNat (chunks bs.length) (encodeBytes bs).length
    rw [hwritten, List.drop_left' (by rw [List.length_map, hfieldLen])] at hbody
    rw [hbody, ← readSpan_cursor t.mem (Nat.two_pow_pos _) hdst hroom, ← hptr, ← hcount, ← hv.mem]
    rfl
  obtain ⟨hstays, htop⟩ := cursor_inside (Nat.two_pow_pos _) hdst (by omega : chunks bs.length ≤ dn)
  have hvFits : SrcFits v := by
    rw [SrcFits, hv.srcLen, hv.cfg, hptr]
    omega
  have hvApart : v.srcCount = 0 ∨ v.srcPtr.toNat + v.srcCount ≤ rp.toNat ∨ rp.toNat + bs.length ≤ v.srcPtr.toNat := by
    rw [hcount, hptr]
    omega
  rw [← hv.cfg] at hrp hback
  obtain ⟨u, hdec, hout⟩ := decodeBody_of_encoding hv.wf hv.idle hrp hsn hvFits hback hfits hbody hvApart
  refine ⟨t, u, henc, ?_, hout.trans hbs⟩
  rw [encodedLength_true_eq, hgoesOn, hdec]

end Sys2Proof.Machine
end
